-- ==== Sys2Proof/Word.lean ====
section
/-! DEFINITION. The bit-vector types of the scheduler's fields and ports (`00_scope.md` rules R8, R9: every value is
an unsigned bit vector of a stated width). -/

namespace Sys2Proof

/-- A handle, a bus identifier or a status code: 8 bits (R8, R91). -/
abbrev Byte := BitVec 8

/-- An address, a device-register address, a transfer length (R8), or an event word (R95): 16 bits. -/
abbrev Half := BitVec 16

/-- A port word, a pointer, a callback value, a name, a clock speed: `XLEN = 32` bits (R7). -/
abbrev Word := BitVec 32

end Sys2Proof
end

