-- ==== Sys2Proof/Syntax.lean ====
section
/-! DEFINITION. The instructions of the hardware: its 26 host commands and its 4 event inputs (`30_encoding.md` rules
R90, R95), one constructor for each row of `opcode_table.json`, with the pseudo-commands of R101. -/

namespace Sys2Proof

/-- `DIR` (R22): 0 = write, 1 = read. -/
inductive Dir where
  | write
  | read
  deriving DecidableEq, Repr

/-- `ADDR10` of a bus and `MODE` of ADDRCHK (R28, R87): 0 = 7-bit, 1 = 10-bit addressing. -/
inductive AddrMode where
  | bits7
  | bits10
  deriving DecidableEq, Repr

/-- `ROLE` (R28): 0 = master only, 1 = slave. -/
inductive Role where
  | master
  | slave
  deriving DecidableEq, Repr

/-- The six configuration flags of BUSINIT's `F` field (R86). `duty` is one opaque bit (U7). -/
structure BusFlags where
  addrMode : AddrMode
  duty : Bool
  role : Role
  dual : Bool
  nostretch : Bool
  gencall : Bool
  deriving DecidableEq, Repr

/-- A command or an event. Handles `t`, `d`, `b` are the 8-bit fields as they stand (R91); `regw` is the 2-bit field
whose value 3 is reserved (R83); `sel` is a selector of the width R90 gives it. -/
inductive Instr where
  -- Format T, C and H of the transaction family (`41_transaction.md`)
  | txnew (t : Byte) (dir : Dir) (addr regaddr : Half) (regw : BitVec 2) (buf : Word) (len : Half)
  | txrd (t d : Byte) (regaddr : Half) (regw : BitVec 2) (buf : Word) (len : Half)
  | txwr (t d : Byte) (regaddr : Half) (regw : BitVec 2) (buf : Word) (len : Half)
  | txpre (t : Byte) (fn arg : Word)
  | txpost (t : Byte) (fn arg : Word)
  | txsend (t : Byte)
  | txcbpre (t : Byte)
  | txcbpost (t : Byte)
  | txget (t : Byte) (sel : BitVec 3)
  -- the device family (`42_device.md`); `b = 0` of `devnew` is "without a Bus"
  | devnew (d b : Byte) (addr : Half) (name : Word)
  | devatt (d b : Byte)
  | devdet (d : Byte)
  | devsub (d t : Byte)
  | devget (d : Byte) (sel : BitVec 1)
  -- the bus family (`43_bus.md`)
  | businit (b : Byte) (name clk : Word) (flags : BusFlags) (own1 own2 : Half)
  | bussub (b t : Byte)
  | busnum (b : Byte)
  | busstat (b : Byte)
  | buserr (b : Byte)
  | buscfg (b : Byte) (sel : BitVec 2)
  | addrchk (mode : AddrMode) (address : Word)
  -- the queue family (`40_queue.md`)
  | qsize (b : Byte)
  | qempty (b : Byte)
  | qhasdata (b : Byte)
  | qfull (b : Byte)
  | qpeek (b : Byte) (sel : BitVec 3)
  -- the events (`60_exceptions.md`)
  | irqEv (b : Byte)
  | irqEr (b : Byte)
  | cplt (b : Byte)
  | xerr (b : Byte)
  deriving DecidableEq, Repr

/-- The four event sources (R95, R220), in the order of service within one instance (R224). -/
inductive EventKind where
  | irqEv
  | irqEr
  | cplt
  | xerr
  deriving DecidableEq, Repr

/-- The instruction that services an event of kind `k` for instance `b`. -/
def EventKind.instr : EventKind → Byte → Instr
  | .irqEv, b => .irqEv b
  | .irqEr, b => .irqEr b
  | .cplt, b => .cplt b
  | .xerr, b => .xerr b

/-- True of the 26 commands of the command port, false of the 4 events (R90, R95). -/
def Instr.isCommand : Instr → Bool
  | .irqEv _ => false
  | .irqEr _ => false
  | .cplt _ => false
  | .xerr _ => false
  | .txnew _ _ _ _ _ _ _ => true
  | .txrd _ _ _ _ _ _ => true
  | .txwr _ _ _ _ _ _ => true
  | .txpre _ _ _ => true
  | .txpost _ _ _ => true
  | .txsend _ => true
  | .txcbpre _ => true
  | .txcbpost _ => true
  | .txget _ _ => true
  | .devnew _ _ _ _ => true
  | .devatt _ _ => true
  | .devdet _ => true
  | .devsub _ _ => true
  | .devget _ _ => true
  | .businit _ _ _ _ _ _ => true
  | .bussub _ _ => true
  | .busnum _ => true
  | .busstat _ => true
  | .buserr _ => true
  | .buscfg _ _ => true
  | .addrchk _ _ => true
  | .qsize _ => true
  | .qempty _ => true
  | .qhasdata _ => true
  | .qfull _ => true
  | .qpeek _ _ => true

/-- The flags of a master-only bus with everything off. -/
def BusFlags.zero : BusFlags := ⟨.bits7, false, .master, false, false, false⟩

/-- `TXPRECLR t` (R101). -/
def Instr.txpreclr (t : Byte) : Instr := .txpre t 0 0

/-- `TXPOSTCLR t` (R101). -/
def Instr.txpostclr (t : Byte) : Instr := .txpost t 0 0

/-- `DEVNEWU d, addr, name` (R101). -/
def Instr.devnewu (d : Byte) (addr : Half) (name : Word) : Instr := .devnew d 0 addr name

/-- `BUSMASTER b, name, clk` (R101). -/
def Instr.busmaster (b : Byte) (name clk : Word) : Instr := .businit b name clk BusFlags.zero 0 0

end Sys2Proof
end

