-- ==== Sys2Proof/WellFormed.lean ====
section
/-! DEFINITION. Which instructions have an encoding: all but a Format T command with the reserved `REGW = 3`
(`30_encoding.md` rule R93). Every other constraint of the encoding is in the types of `Instr`'s fields. -/

namespace Sys2Proof

/-- `REGW` is one of none, 8-bit, 16-bit; 3 is illegal (R83, R93). -/
def regwOk (regw : BitVec 2) : Bool := regw != 3

/-- The instruction has an encoding (R93). -/
def Instr.wf : Instr → Bool
  | .txnew _ _ _ _ regw _ _ => regwOk regw
  | .txrd _ _ _ regw _ _ => regwOk regw
  | .txwr _ _ _ regw _ _ => regwOk regw
  | .txpre _ _ _ => true
  | .txpost _ _ _ => true
  | .txsend _ => true
  | .txcbpre _ => true
  | .txcbpost _ => true
  | .txget _ _ => true
  | .devnew _ _ _ _ => true
  | .devatt _ _ => true
  | .devdet _ => true
  | .devsub _ _ => true
  | .devget _ _ => true
  | .businit _ _ _ _ _ _ => true
  | .bussub _ _ => true
  | .busnum _ => true
  | .busstat _ => true
  | .buserr _ => true
  | .buscfg _ _ => true
  | .addrchk _ _ => true
  | .qsize _ => true
  | .qempty _ => true
  | .qhasdata _ => true
  | .qfull _ => true
  | .qpeek _ _ => true
  | .irqEv _ => true
  | .irqEr _ => true
  | .cplt _ => true
  | .xerr _ => true

end Sys2Proof
end

