-- ==== Sys2Proof/Decode.lean ====
section
/-! DEFINITION. The decoder of the command port and of the event port, total on any words, and after it the encoder
(`30_encoding.md` rules R81 to R98, R93 to R96). -/

namespace Sys2Proof

/-! ## Fields of a word -/

/-- Bits 31:16 of a word. -/
def hiHalf (w : Word) : Half := w.extractLsb' 16 16

/-- Bits 15:0 of a word. -/
def loHalf (w : Word) : Half := w.extractLsb' 0 16

/-- `{hi, lo}` (R9). -/
def wordOfHalves (hi lo : Half) : Word := hi ++ lo

/-- `OP`, bits 31:24 of a header (R81). -/
def hdrOp (h : Word) : Byte := h.extractLsb' 24 8

/-- `A`, bits 23:16 of a header (R81). -/
def hdrA (h : Word) : Byte := h.extractLsb' 16 8

/-- `B`, bits 15:8 of a header (R81). -/
def hdrB (h : Word) : Byte := h.extractLsb' 8 8

/-- `F`, bits 7:0 of a header (R81). -/
def hdrF (h : Word) : Byte := h.extractLsb' 0 8

/-- The header `{OP, A, B, F}` (R81). -/
def mkHeader (op a b f : Byte) : Word := op ++ a ++ b ++ f

/-- The one-bit code of a direction (R22). -/
def Dir.bit : Dir → Bool
  | .write => false
  | .read => true

/-- The direction of a one-bit code (R22). -/
def Dir.ofBit : Bool → Dir
  | false => .write
  | true => .read

/-- The one-bit code of an addressing width (R28, R87). -/
def AddrMode.bit : AddrMode → Bool
  | .bits7 => false
  | .bits10 => true

/-- The addressing width of a one-bit code (R28, R87). -/
def AddrMode.ofBit : Bool → AddrMode
  | false => .bits7
  | true => .bits10

/-- The one-bit code of a role (R28). -/
def Role.bit : Role → Bool
  | .master => false
  | .slave => true

/-- The role of a one-bit code (R28). -/
def Role.ofBit : Bool → Role
  | false => .master
  | true => .slave

/-- The flag field of BUSINIT (R86); its bits 5:0 are also those of configuration word 0 (R32). -/
def BusFlags.bits (g : BusFlags) : BitVec 6 :=
  BitVec.ofBool g.gencall ++ BitVec.ofBool g.nostretch ++ BitVec.ofBool g.dual ++
  BitVec.ofBool g.role.bit ++ BitVec.ofBool g.duty ++ BitVec.ofBool g.addrMode.bit

/-- The flags that an `F` field of BUSINIT holds (R86). -/
def BusFlags.ofF (f : Byte) : BusFlags where
  addrMode := AddrMode.ofBit (f.getLsbD 0)
  duty := f.getLsbD 1
  role := Role.ofBit (f.getLsbD 2)
  dual := f.getLsbD 3
  nostretch := f.getLsbD 4
  gencall := f.getLsbD 5

/-! ## The opcode map (R90) -/

/-- The 26 opcodes of R90. -/
inductive Opcode where
  | txnew | txrd | txwr | txpre | txpost | txsend | txcbpre | txcbpost | txget
  | devnew | devatt | devdet | devsub | devget
  | businit | bussub | busnum | busstat | buserr | buscfg | addrchk
  | qsize | qempty | qhasdata | qfull | qpeek
  deriving DecidableEq, Repr

/-- The six command formats (R82). -/
inductive Format where
  | H | C | T | D | B | A
  deriving DecidableEq, Repr

/-- The rows of R90 in the order of the table. -/
def Opcode.all : List Opcode :=
  [.txnew, .txrd, .txwr, .txpre, .txpost, .txsend, .txcbpre, .txcbpost, .txget] ++
  [.devnew, .devatt, .devdet, .devsub, .devget] ++
  [.businit, .bussub, .busnum, .busstat, .buserr, .buscfg, .addrchk] ++
  [.qsize, .qempty, .qhasdata, .qfull, .qpeek]

/-- The `OP` column of R90. -/
def Opcode.code : Opcode → Byte
  | .txnew => 0x10
  | .txrd => 0x11
  | .txwr => 0x12
  | .txpre => 0x13
  | .txpost => 0x14
  | .txsend => 0x15
  | .txcbpre => 0x16
  | .txcbpost => 0x17
  | .txget => 0x18
  | .devnew => 0x20
  | .devatt => 0x21
  | .devdet => 0x22
  | .devsub => 0x23
  | .devget => 0x24
  | .businit => 0x30
  | .bussub => 0x31
  | .busnum => 0x32
  | .busstat => 0x33
  | .buserr => 0x34
  | .buscfg => 0x35
  | .addrchk => 0x36
  | .qsize => 0x40
  | .qempty => 0x41
  | .qhasdata => 0x42
  | .qfull => 0x43
  | .qpeek => 0x44

/-- The format column of R90 (R82). -/
def Opcode.format : Opcode → Format
  | .txnew => .T
  | .txrd => .T
  | .txwr => .T
  | .txpre => .C
  | .txpost => .C
  | .txsend => .H
  | .txcbpre => .H
  | .txcbpost => .H
  | .txget => .H
  | .devnew => .D
  | .devatt => .H
  | .devdet => .H
  | .devsub => .H
  | .devget => .H
  | .businit => .B
  | .bussub => .H
  | .busnum => .H
  | .busstat => .H
  | .buserr => .H
  | .buscfg => .H
  | .addrchk => .A
  | .qsize => .H
  | .qempty => .H
  | .qhasdata => .H
  | .qfull => .H
  | .qpeek => .H

/-- How many operand words follow the header (R82, R98). -/
def Format.operands : Format → Nat
  | .H => 0
  | .A => 1
  | .C => 2
  | .D => 2
  | .T => 3
  | .B => 3

/-- The bits of `A` that the opcode uses: all, but none for ADDRCHK (R90). -/
def Opcode.aMask : Opcode → Byte
  | .addrchk => 0x00
  | .txnew => 0xFF
  | .txrd => 0xFF
  | .txwr => 0xFF
  | .txpre => 0xFF
  | .txpost => 0xFF
  | .txsend => 0xFF
  | .txcbpre => 0xFF
  | .txcbpost => 0xFF
  | .txget => 0xFF
  | .devnew => 0xFF
  | .devatt => 0xFF
  | .devdet => 0xFF
  | .devsub => 0xFF
  | .devget => 0xFF
  | .businit => 0xFF
  | .bussub => 0xFF
  | .busnum => 0xFF
  | .busstat => 0xFF
  | .buserr => 0xFF
  | .buscfg => 0xFF
  | .qsize => 0xFF
  | .qempty => 0xFF
  | .qhasdata => 0xFF
  | .qfull => 0xFF
  | .qpeek => 0xFF

/-- The bits of `B` that the opcode uses: all where R90 puts a second handle there, none elsewhere. -/
def Opcode.bMask : Opcode → Byte
  | .txrd => 0xFF
  | .txwr => 0xFF
  | .devnew => 0xFF
  | .devatt => 0xFF
  | .devsub => 0xFF
  | .bussub => 0xFF
  | .txnew => 0x00
  | .txpre => 0x00
  | .txpost => 0x00
  | .txsend => 0x00
  | .txcbpre => 0x00
  | .txcbpost => 0x00
  | .txget => 0x00
  | .devdet => 0x00
  | .devget => 0x00
  | .businit => 0x00
  | .busnum => 0x00
  | .busstat => 0x00
  | .buserr => 0x00
  | .buscfg => 0x00
  | .addrchk => 0x00
  | .qsize => 0x00
  | .qempty => 0x00
  | .qhasdata => 0x00
  | .qfull => 0x00
  | .qpeek => 0x00

/-- The bits of `F` that the opcode uses (R90); the others are reserved and must be zero (R93). -/
def Opcode.fMask : Opcode → Byte
  | .txnew => 0x07
  | .txrd => 0x06
  | .txwr => 0x06
  | .txget => 0x07
  | .devget => 0x01
  | .businit => 0x3F
  | .buscfg => 0x03
  | .addrchk => 0x01
  | .qpeek => 0x07
  | .txpre => 0x00
  | .txpost => 0x00
  | .txsend => 0x00
  | .txcbpre => 0x00
  | .txcbpost => 0x00
  | .devnew => 0x00
  | .devatt => 0x00
  | .devdet => 0x00
  | .devsub => 0x00
  | .bussub => 0x00
  | .busnum => 0x00
  | .busstat => 0x00
  | .buserr => 0x00
  | .qsize => 0x00
  | .qempty => 0x00
  | .qhasdata => 0x00
  | .qfull => 0x00

/-- The row of R90 whose `OP` is `op`, if there is one. -/
def Opcode.ofByte (op : Byte) : Option Opcode := Opcode.all.find? fun o => o.code == op

/-- The number of words of a command after its header, a function of `OP` alone (R98). -/
def Opcode.operands (o : Opcode) : Nat := o.format.operands

/-! ## Decoding -/

/-- Why a word sequence is no command, or a word no event (R93, R96). -/
inductive Reject where
  /-- `OP` is not in the table of R90. -/
  | unknownOpcode
  /-- A header field or a bit of `F` that must be zero is not (R93). -/
  | reservedHeader
  /-- `REGW = 3` (R93). -/
  | regwThree
  /-- A reserved half of an operand word is not zero (R93). -/
  | reservedOperand
  /-- An event word's `KIND` is outside 1..3 (R96). -/
  | unknownKind
  /-- An event word's bits 11:9 are not zero (R96). -/
  | reservedEvent
  /-- `CLASS = 1` with a `KIND` that is not 1 (R96). -/
  | classNotIrq
  deriving DecidableEq, Repr

/-- What the words waiting on the command port hold. -/
inductive Decoded where
  /-- A whole legal command, and the words after it. -/
  | instr (i : Instr) (rest : List Word)
  /-- A whole illegal command (R93), and the words after it. -/
  | illegal (why : Reject) (rest : List Word)
  /-- No whole command yet: "not a command and is not executed" (R80). -/
  | incomplete
  deriving DecidableEq, Repr

/-- The header's fields that the opcode does not use are zero (R81, R93). -/
def headerOk (o : Opcode) (h : Word) : Bool :=
  hdrA h &&& ~~~o.aMask == 0 && hdrB h &&& ~~~o.bMask == 0 && hdrF h &&& ~~~o.fMask == 0

/-- `REGW`, bits 2:1 of `F` in Format T (R83). -/
def fRegw (f : Byte) : BitVec 2 := f.extractLsb' 1 2

/-- The operand checks of Format T (R93): `REGW` is not 3, `W3[31:16]` is zero, and `W1[31:16]` is zero where the
address comes from a device. -/
def checkT (fromDevice : Bool) (f : Byte) (w1 w3 : Word) (i : Instr) : Except Reject Instr :=
  if fRegw f = 3 then .error .regwThree
  else if hiHalf w3 ≠ 0 then .error .reservedOperand
  else if fromDevice && hiHalf w1 != 0 then .error .reservedOperand
  else .ok i

/-- The command of opcode `o` whose header is `h` and whose operand words are `w1`, `w2`, `w3`, as many of them as its
format has (R83 to R87, R90). -/
def decodeBody (o : Opcode) (h w1 w2 w3 : Word) : Except Reject Instr :=
  let a := hdrA h
  let b := hdrB h
  let f := hdrF h
  match o with
  | .txnew => checkT false f w1 w3
      (.txnew a (Dir.ofBit (f.getLsbD 0)) (hiHalf w1) (loHalf w1) (fRegw f) w2 (loHalf w3))
  | .txrd => checkT true f w1 w3 (.txrd a b (loHalf w1) (fRegw f) w2 (loHalf w3))
  | .txwr => checkT true f w1 w3 (.txwr a b (loHalf w1) (fRegw f) w2 (loHalf w3))
  | .txpre => .ok (.txpre a w1 w2)
  | .txpost => .ok (.txpost a w1 w2)
  | .txsend => .ok (.txsend a)
  | .txcbpre => .ok (.txcbpre a)
  | .txcbpost => .ok (.txcbpost a)
  | .txget => .ok (.txget a (f.extractLsb' 0 3))
  | .devnew => if hiHalf w1 ≠ 0 then .error .reservedOperand else .ok (.devnew a b (loHalf w1) w2)
  | .devatt => .ok (.devatt a b)
  | .devdet => .ok (.devdet a)
  | .devsub => .ok (.devsub a b)
  | .devget => .ok (.devget a (f.extractLsb' 0 1))
  | .businit => .ok (.businit a w1 w2 (BusFlags.ofF f) (loHalf w3) (hiHalf w3))
  | .bussub => .ok (.bussub a b)
  | .busnum => .ok (.busnum a)
  | .busstat => .ok (.busstat a)
  | .buserr => .ok (.buserr a)
  | .buscfg => .ok (.buscfg a (f.extractLsb' 0 2))
  | .addrchk => .ok (.addrchk (AddrMode.ofBit (f.getLsbD 0)) w1)
  | .qsize => .ok (.qsize a)
  | .qempty => .ok (.qempty a)
  | .qhasdata => .ok (.qhasdata a)
  | .qfull => .ok (.qfull a)
  | .qpeek => .ok (.qpeek a (f.extractLsb' 0 3))

/-- Decode the words waiting on the command port: read the header, look `OP` up, take that many further words (R98); an
illegal header of unknown `OP` is one word long (R93). A command of a known `OP` is judged only when all its words are
there (log 12). -/
def decodeCommand : List Word → Decoded
  | [] => .incomplete
  | h :: tl =>
    match Opcode.ofByte (hdrOp h) with
    | none => .illegal .unknownOpcode tl
    | some o =>
      if tl.length < o.operands then .incomplete
      else if headerOk o h then
        match decodeBody o h (tl.getD 0 0) (tl.getD 1 0) (tl.getD 2 0) with
        | .ok i => .instr i (tl.drop o.operands)
        | .error e => .illegal e (tl.drop o.operands)
      else .illegal .reservedHeader (tl.drop o.operands)

/-- Decode an event word `{KIND, 0, CLASS, INST}` (R95); the words of R96 are rejected. -/
def decodeEvent (w : Half) : Except Reject (EventKind × Byte) :=
  let kind := w.extractLsb' 12 4
  let cls := w.getLsbD 8
  let inst := w.extractLsb' 0 8
  if w.extractLsb' 9 3 ≠ 0 then .error .reservedEvent
  else if kind = 1 then .ok (if cls then .irqEr else .irqEv, inst)
  else if kind = 2 then if cls then .error .classNotIrq else .ok (.cplt, inst)
  else if kind = 3 then if cls then .error .classNotIrq else .ok (.xerr, inst)
  else .error .unknownKind

/-! ## Encoding -/

/-- What a platform puts on a port for an instruction: words on the command port or one word on the event port (R80). -/
inductive PortWords where
  | command (ws : List Word)
  | event (w : Half)
  deriving DecidableEq, Repr

/-- The `F` field of Format T: `{0[7:3], REGW, DIR}` (R83). -/
def encodeFT (regw : BitVec 2) (dir : Bool) : Byte := 0#5 ++ regw ++ BitVec.ofBool dir

/-- The event word `{KIND, 0[11:9], CLASS, INST}` (R95). -/
def mkEvent (kind : BitVec 4) (cls : Bool) (inst : Byte) : Half := kind ++ 0#3 ++ BitVec.ofBool cls ++ inst

/-- The event word of a source and an instance (R95). -/
def encodeEvent : EventKind → Byte → Half
  | .irqEv, b => mkEvent 1 false b
  | .irqEr, b => mkEvent 1 true b
  | .cplt, b => mkEvent 2 false b
  | .xerr, b => mkEvent 3 false b

/-- The words of an instruction (R83 to R87, R90, R95). -/
def encode : Instr → PortWords
  | .txnew t dir addr regaddr regw buf len =>
    .command [mkHeader Opcode.txnew.code t 0 (encodeFT regw dir.bit), wordOfHalves addr regaddr, buf, wordOfHalves 0 len]
  | .txrd t d regaddr regw buf len =>
    .command [mkHeader Opcode.txrd.code t d (encodeFT regw false), wordOfHalves 0 regaddr, buf, wordOfHalves 0 len]
  | .txwr t d regaddr regw buf len =>
    .command [mkHeader Opcode.txwr.code t d (encodeFT regw false), wordOfHalves 0 regaddr, buf, wordOfHalves 0 len]
  | .txpre t fn arg => .command [mkHeader Opcode.txpre.code t 0 0, fn, arg]
  | .txpost t fn arg => .command [mkHeader Opcode.txpost.code t 0 0, fn, arg]
  | .txsend t => .command [mkHeader Opcode.txsend.code t 0 0]
  | .txcbpre t => .command [mkHeader Opcode.txcbpre.code t 0 0]
  | .txcbpost t => .command [mkHeader Opcode.txcbpost.code t 0 0]
  | .txget t sel => .command [mkHeader Opcode.txget.code t 0 (0#5 ++ sel)]
  | .devnew d b addr name => .command [mkHeader Opcode.devnew.code d b 0, wordOfHalves 0 addr, name]
  | .devatt d b => .command [mkHeader Opcode.devatt.code d b 0]
  | .devdet d => .command [mkHeader Opcode.devdet.code d 0 0]
  | .devsub d t => .command [mkHeader Opcode.devsub.code d t 0]
  | .devget d sel => .command [mkHeader Opcode.devget.code d 0 (0#7 ++ sel)]
  | .businit b name clk flags own1 own2 =>
    .command [mkHeader Opcode.businit.code b 0 (0#2 ++ flags.bits), name, clk, wordOfHalves own2 own1]
  | .bussub b t => .command [mkHeader Opcode.bussub.code b t 0]
  | .busnum b => .command [mkHeader Opcode.busnum.code b 0 0]
  | .busstat b => .command [mkHeader Opcode.busstat.code b 0 0]
  | .buserr b => .command [mkHeader Opcode.buserr.code b 0 0]
  | .buscfg b sel => .command [mkHeader Opcode.buscfg.code b 0 (0#6 ++ sel)]
  | .addrchk mode address => .command [mkHeader Opcode.addrchk.code 0 0 (0#7 ++ BitVec.ofBool mode.bit), address]
  | .qsize b => .command [mkHeader Opcode.qsize.code b 0 0]
  | .qempty b => .command [mkHeader Opcode.qempty.code b 0 0]
  | .qhasdata b => .command [mkHeader Opcode.qhasdata.code b 0 0]
  | .qfull b => .command [mkHeader Opcode.qfull.code b 0 0]
  | .qpeek b sel => .command [mkHeader Opcode.qpeek.code b 0 (0#5 ++ sel)]
  | .irqEv b => .event (encodeEvent .irqEv b)
  | .irqEr b => .event (encodeEvent .irqEr b)
  | .cplt b => .event (encodeEvent .cplt b)
  | .xerr b => .event (encodeEvent .xerr b)

/-! ## Byte serialisation (R64, D28) -/

/-- The words a byte-wide path carries, each sent least significant byte first (R64). A last group of fewer than four
bytes is not a word yet. -/
def wordsOfBytes : List Byte → List Word
  | b0 :: b1 :: b2 :: b3 :: rest => (b3 ++ b2 ++ b1 ++ b0) :: wordsOfBytes rest
  | _ => []

/-- The bytes of a list of words, each least significant byte first (R64). -/
def bytesOfWords : List Word → List Byte
  | [] => []
  | w :: ws => w.extractLsb' 0 8 :: w.extractLsb' 8 8 :: w.extractLsb' 16 8 :: w.extractLsb' 24 8 :: bytesOfWords ws

/-! ## The host's view of the opcode table -/

/-- The words of the command whose bits are `w`, bit 0 the least significant bit of the header: as many as its `OP`
says (R98), those above the given bits being zero. -/
def tableWords (w : Nat) : List Word :=
  let h : Word := BitVec.ofNat 32 w
  let n := match Opcode.ofByte (hdrOp h) with
    | some o => o.operands
    | none => 0
  h :: [BitVec.ofNat 32 (w >>> 32), BitVec.ofNat 32 (w >>> 64), BitVec.ofNat 32 (w >>> 96)].take n

/-- The instruction that the decoders read from a row's bits: a row of at most 16 bits is an event word, a wider one a
command (opcode_table.json, column `port`). -/
def decodeTableWord (nbits w : Nat) : Option Instr :=
  if nbits ≤ 16 then
    match decodeEvent (BitVec.ofNat 16 w) with
    | .ok (k, b) => some (k.instr b)
    | .error _ => none
  else
    match decodeCommand (tableWords w) with
    | .instr i _ => some i
    | .illegal _ _ => none
    | .incomplete => none

end Sys2Proof
end

