-- ==== Sys2Proof/Config.lean ====
section
/-! DEFINITION. What an implementation fixes (the parameters of `00_scope.md` rule R7) and the one free value of the
model (the backend's answer where the inputs give none). -/

namespace Sys2Proof

/-- The implementation parameters of R7. `XLEN` is fixed at 32 and is the width of `Word`. The model carries them in
`State.params`, which no step changes, so a statement about every state holds for every choice (log 1). -/
structure Params where
  /-- `N_BUS`: physical instances are `1..N_BUS`. -/
  nBus : Nat
  /-- `QCAP`: capacity of each bus's queue. -/
  qcap : Nat
  /-- `N_DEV`: device slots are `0..N_DEV-1`. -/
  nDev : Nat
  /-- `N_TXR`: transaction staging registers are `0..N_TXR-1`. -/
  nTxr : Nat
  /-- `A7_LO`: lowest valid 7-bit address. -/
  a7Lo : Nat
  /-- `A7_HI`: highest valid 7-bit address. -/
  a7Hi : Nat
  /-- `A10_MAX`: highest valid 10-bit address. -/
  a10Max : Nat
  /-- `ADDR_SHIFT_7`: left shift of the wire address on a 7-bit bus. -/
  addrShift7 : Nat
  /-- `ADDR_SHIFT_10`: left shift of the wire address on a 10-bit bus. -/
  addrShift10 : Nat
  /-- `FAST_THRESHOLD_HZ`: clock speed above which `FAST` is 1. -/
  fastThresholdHz : Nat
  deriving DecidableEq, Repr

/-- The constraints R7 puts on the parameters. -/
abbrev Params.wf (p : Params) : Prop :=
  (1 ≤ p.nBus ∧ p.nBus ≤ 255) ∧ (1 ≤ p.qcap ∧ p.qcap ≤ 65535) ∧
  (1 ≤ p.nDev ∧ p.nDev ≤ 256) ∧ (1 ≤ p.nTxr ∧ p.nTxr ≤ 256) ∧
  p.addrShift7 ≤ 15 ∧ p.addrShift10 ≤ 15

/-- The default of every parameter, R7's own column of defaults (log 18). -/
def Params.default : Params where
  nBus := 3
  qcap := 8
  nDev := 8
  nTxr := 8
  a7Lo := 0x10
  a7Hi := 0x77
  a10Max := 0x3FF
  addrShift7 := 1
  addrShift10 := 0
  fastThresholdHz := 100000

/-- The backend's answer to the `n`-th query that the inputs held in State do not answer: a free value (R212, R213:
"an input the scheduler cannot predict"; log 5). 1 is idle or accepted, 0 is not idle or setup failure. -/
opaque Config.freeAnswer : Nat → Bool

end Sys2Proof
end

