-- ==== Sys2Proof/Machine/State.lean ====
section
/-! DEFINITION. The state of the scheduler as plain data (`10_state.md` rules R20 to R36), the codes it stores, the
records and responses it puts on its ports (`30_encoding.md` rules R88, R97), and the state after reset (R39, R250). -/

namespace Sys2Proof.Machine

/-- The status and cause codes of `60_exceptions.md` rule R200. -/
inductive Status where
  | ok
  | null
  | errCfgAddress
  | errCfgDuplicate
  | errCfgInstance
  | errConstruction
  | errUseNodevice
  | errUseAttached
  | errUseNobus
  | errHwInitiate
  | errHwTransfer
  | errHwSpurious
  | errQFull
  | errQEmpty
  | errOperand
  | errIllegal
  deriving DecidableEq, Repr

/-- The context a transition runs in (R12): 0 = foreground, 1 = interrupt. -/
inductive Ctx where
  | fg
  | irq
  deriving DecidableEq, Repr

/-- Which hook a `CB` record invokes (R97): 0 = pre, 1 = post. -/
inductive CbKind where
  | pre
  | post
  deriving DecidableEq, Repr

/-- The two classes of low-level interrupt (R95, R215): 0 = event, 1 = error. -/
inductive IrqClass where
  | event
  | error
  deriving DecidableEq, Repr

/-- A Transaction descriptor (R22, without the `VALID` bit). -/
structure Txn where
  dir : Dir
  addr : Half
  regaddr : Half
  regw : BitVec 2
  buf : Word
  len : Half
  preFn : Word
  preArg : Word
  postFn : Word
  postArg : Word
  devp : Bool
  devid : Byte
  deriving DecidableEq, Repr

/-- A device slot (R35, without the `VALID` bit). `bus = 0` is the null reference. -/
structure Dev where
  addr : Half
  bus : Byte
  name : Word
  deriving DecidableEq, Repr

/-- The configuration record of a bus (R28). -/
structure BusCfg where
  name : Word
  clk : Word
  flags : BusFlags
  own1 : Half
  own2 : Half
  fast : Bool
  deriving DecidableEq, Repr

/-- The content of an error latch that holds a record (R25). -/
structure ErrRec where
  cause : Status
  ctx : Ctx
  deriving DecidableEq, Repr

/-- All the state of one physical instance. Storage that holds no value (R39, R40) is the `none` of an Option: `cfg` is
`some` exactly when `REGD` is 1 (R27), `err` exactly when `ERR_VALID` is 1 (R25), and a slot exactly when it is occupied
(R33). -/
structure Bus where
  cfg : Option BusCfg
  slots : List (Option Txn)
  head : Nat
  tail : Nat
  count : Nat
  busy : Bool
  curValid : Bool
  err : Option ErrRec
  errLost : Bool
  pendIrqEv : Bool
  pendIrqEr : Bool
  pendCplt : Bool
  pendXerr : Bool
  deriving DecidableEq, Repr

/-- A record on the backend port or the notification port (R97). -/
inductive Record where
  | bind (b : Byte)
  | idleq (b : Byte)
  | initiate (b : Byte) (dir : Dir) (waddr regaddr : Half) (regw : BitVec 2) (buf : Word) (len : Half)
  | birq (b : Byte) (cls : IrqClass)
  | cb (kind : CbKind) (b : Byte) (ctx : Ctx) (fn arg : Word)
  | errn (b : Byte) (cause : Status) (ctx : Ctx)
  deriving DecidableEq, Repr

/-- A response `(STATUS, VALUE)` (R88). -/
structure Response where
  status : Status
  value : Word
  deriving DecidableEq, Repr

/-- The machine: the tables of R20, and the model's own fields for the parameters, the inputs and the outputs
(INVENTORY.md, State). -/
structure State where
  /-- The parameters of R7; no step changes them (log 1). -/
  params : Params
  /-- `TXR[0..N_TXR-1]`; `some` is `VALID = 1` (R21, R40). -/
  txr : List (Option Txn)
  /-- `DEV[0..N_DEV-1]`; `some` is `VALID = 1` (R35, R40). -/
  devs : List (Option Dev)
  /-- Instances `1..N_BUS`; instance `b` is entry `b - 1` (R27). -/
  buses : List Bus
  /-- Input: words waiting on the command port, in the order presented (R80; log 3). -/
  cmdPort : List Word
  /-- Input: event words that arrive while no transition is in progress, in order (R221; log 4). -/
  evPort : List Half
  /-- Input: event words that arrive during the coming transitions, one list for each (R221; log 4). -/
  evDuring : List (List Half)
  /-- Input: the backend's coming answers, in the order asked (R212, R213; log 5). -/
  answers : List Bool
  /-- How many free answers have been drawn (log 5). -/
  draws : Nat
  /-- Input: a reset is requested (R250; log 7). -/
  resetReq : Bool
  /-- Output: the responses delivered, oldest first (R80; log 6). -/
  resp : List Response
  /-- Output: the records emitted, oldest first (R70; log 6). -/
  out : List Record
  deriving DecidableEq, Repr

/-- Why the machine stops. The spec gives the hardware no fault: errors are statuses and latched records. -/
inductive Fault where
  /-- Raised by `qPeek` and `qDequeue`: an occupied queue position whose slot holds no value is read (R40), which no
  state that meets `State.Inv` does. Safe: the model stops where nothing is specified (log 9). -/
  | slotHoldsNoValue
  deriving DecidableEq, Repr

/-- Why an instruction has no meaning. -/
inductive Refusal where
  /-- Raised by `exec`'s arm of an instruction that has no meaning yet; no arm does. Safe: nothing is claimed of it. -/
  | notModelled (mnemonic : String)
  deriving DecidableEq, Repr

/-- An instance after reset: not registered, empty queue, idle, nothing latched or pending (R39). -/
def Bus.atReset (qcap : Nat) : Bus where
  cfg := none
  slots := List.replicate qcap none
  head := 0
  tail := 0
  count := 0
  busy := false
  curValid := false
  err := none
  errLost := false
  pendIrqEv := false
  pendIrqEr := false
  pendCplt := false
  pendXerr := false

/-- The state after reset for parameters `p` (R39, R250), with no input waiting and nothing yet put out. -/
def State.resetWith (p : Params) : State where
  params := p
  txr := List.replicate p.nTxr none
  devs := List.replicate p.nDev none
  buses := List.replicate p.nBus (Bus.atReset p.qcap)
  cmdPort := []
  evPort := []
  evDuring := []
  answers := []
  draws := 0
  resetReq := false
  resp := []
  out := []

/-- The state after reset with the default parameters of R7. -/
def State.reset : State := State.resetWith Params.default

end Sys2Proof.Machine
end

