-- ==== Sys2Proof/Machine/Flags.lean ====
section
/-! DEFINITION. Status codes, the flags of a bus and the words that show them (`60_exceptions.md` rule R200;
`10_state.md` rules R24 to R26, R30, R31), the pending bits (R36), and the serial forms of responses and records (R88,
R97). -/

namespace Sys2Proof.Machine

/-- The number of a status code (R200). -/
def Status.code : Status → Byte
  | .ok => 0x00
  | .null => 0x0F
  | .errCfgAddress => 0x11
  | .errCfgDuplicate => 0x12
  | .errCfgInstance => 0x13
  | .errConstruction => 0x21
  | .errUseNodevice => 0x31
  | .errUseAttached => 0x32
  | .errUseNobus => 0x33
  | .errHwInitiate => 0x41
  | .errHwTransfer => 0x42
  | .errHwSpurious => 0x43
  | .errQFull => 0x51
  | .errQEmpty => 0x52
  | .errOperand => 0x7E
  | .errIllegal => 0x7F

/-- The classes of R200. -/
inductive StatusClass where
  | none | configuration | construction | usage | hardware | queue | interface
  deriving DecidableEq, Repr

/-- The class column of R200. -/
def Status.cls : Status → StatusClass
  | .ok => .none
  | .null => .none
  | .errCfgAddress => .configuration
  | .errCfgDuplicate => .configuration
  | .errCfgInstance => .configuration
  | .errConstruction => .construction
  | .errUseNodevice => .usage
  | .errUseAttached => .usage
  | .errUseNobus => .usage
  | .errHwInitiate => .hardware
  | .errHwTransfer => .hardware
  | .errHwSpurious => .hardware
  | .errQFull => .queue
  | .errQEmpty => .queue
  | .errOperand => .interface
  | .errIllegal => .interface

/-- The status is an error code: neither `OK` nor `NULL` (R89). -/
def Status.isError (st : Status) : Bool := st.cls != .none

/-- The one-bit code of a context (R12). -/
def Ctx.bit : Ctx → Bool
  | .fg => false
  | .irq => true

/-- `REGD[b]` (R27). -/
def Bus.regd (q : Bus) : Bool := q.cfg.isSome

/-- `ERR_VALID[b]` (R25). -/
def Bus.errValid (q : Bus) : Bool := q.err.isSome

/-- `STALLED(b)`: registered, nothing in flight, transactions queued (R26). -/
def Bus.stalled (q : Bus) : Bool := q.regd && !q.busy && decide (0 < q.count)

/-- The status word of R30. -/
def Bus.statusWord (q : Bus) : Word :=
  BitVec.ofNat 16 q.count ++ 0#11 ++ BitVec.ofBool q.stalled ++ BitVec.ofBool q.errLost ++
  BitVec.ofBool q.errValid ++ BitVec.ofBool q.curValid ++ BitVec.ofBool q.busy

/-- The error word of R31, of a latch that holds record `e`. -/
def Bus.errWord (q : Bus) (e : ErrRec) : Word :=
  0#22 ++ BitVec.ofBool q.errLost ++ BitVec.ofBool e.ctx.bit ++ e.cause.code

/-- The pending bit of an event source (R36). -/
def Bus.pend (q : Bus) : EventKind → Bool
  | .irqEv => q.pendIrqEv
  | .irqEr => q.pendIrqEr
  | .cplt => q.pendCplt
  | .xerr => q.pendXerr

/-- Write the pending bit of an event source (R36). -/
def Bus.setPend (q : Bus) (k : EventKind) (v : Bool) : Bus :=
  match k with
  | .irqEv => { q with pendIrqEv := v }
  | .irqEr => { q with pendIrqEr := v }
  | .cplt => { q with pendCplt := v }
  | .xerr => { q with pendXerr := v }

/-- The pending source serviced first within one instance: IRQ.EV, IRQ.ER, CPLT, XERR (R224 (3)). -/
def Bus.firstPend (q : Bus) : Option EventKind :=
  if q.pendIrqEv then some .irqEv
  else if q.pendIrqEr then some .irqEr
  else if q.pendCplt then some .cplt
  else if q.pendXerr then some .xerr
  else none

/-- A response as the two words of the response port (R88). -/
def Response.words (r : Response) : List Word := [r.status.code.setWidth 32, r.value]

/-- The output port a record appears on (R97). -/
inductive OutPort where
  | backend
  | notification
  deriving DecidableEq, Repr

/-- The port column of R97. -/
def Record.port : Record → OutPort
  | .bind _ => .backend
  | .idleq _ => .backend
  | .initiate _ _ _ _ _ _ _ => .backend
  | .birq _ _ => .backend
  | .cb _ _ _ _ _ => .notification
  | .errn _ _ _ => .notification

/-- The tag column of R97. -/
def Record.tag : Record → Nat
  | .bind _ => 1
  | .idleq _ => 2
  | .initiate _ _ _ _ _ _ _ => 3
  | .birq _ _ => 4
  | .cb _ _ _ _ _ => 5
  | .errn _ _ _ => 6

end Sys2Proof.Machine
end

