-- ==== Sys2Proof/Machine/Operands.lean ====
section
/-! DEFINITION. Operands: handles and the objects they name (`30_encoding.md` rules R91, R94), selected views of a
descriptor, a device and a configuration (`10_state.md` rules R41, R42, R32), addresses (`43_bus.md` rules R163, R171)
and callback fields (`41_transaction.md` rule R136). -/

namespace Sys2Proof.Machine

/-! ## Handles (R91) -/

/-- `t` is in range: `t < N_TXR` (R91). -/
def State.txrInRange (s : State) (t : Byte) : Bool := decide (t.toNat < s.params.nTxr)

/-- `d` is in range: `d < N_DEV` (R91). -/
def State.devInRange (s : State) (d : Byte) : Bool := decide (d.toNat < s.params.nDev)

/-- `b` is in range: `1 <= b <= N_BUS` (R91). -/
def State.busInRange (s : State) (b : Byte) : Bool := decide (1 ≤ b.toNat ∧ b.toNat ≤ s.params.nBus)

/-- The descriptor in `TXR[t]` when the handle is usable: in range and `VALID = 1` (R91). -/
def State.txr? (s : State) (t : Byte) : Option Txn :=
  if s.txrInRange t then s.txr.getD t.toNat none else none

/-- The Device in `DEV[d]` when the handle is usable (R91). -/
def State.dev? (s : State) (d : Byte) : Option Dev :=
  if s.devInRange d then s.devs.getD d.toNat none else none

/-- The storage of instance `b`, when it is in range. -/
def State.bus? (s : State) (b : Byte) : Option Bus :=
  if s.busInRange b then s.buses[b.toNat - 1]? else none

/-- The configuration and the storage of bus `b` when the identifier is usable: in range and `REGD[b] = 1` (R91). -/
def State.regBus? (s : State) (b : Byte) : Option (BusCfg × Bus) :=
  match s.bus? b with
  | none => none
  | some q =>
    match q.cfg with
    | none => none
    | some c => some (c, q)

/-- `TXR[t] <- x` with `VALID = 1`. -/
def State.setTxr (s : State) (t : Byte) (x : Txn) : State := { s with txr := s.txr.set t.toNat (some x) }

/-- `DEV[d] <- v` with `VALID = 1`. -/
def State.setDev (s : State) (d : Byte) (v : Dev) : State := { s with devs := s.devs.set d.toNat (some v) }

/-- Write the storage of instance `b`. -/
def State.setBus (s : State) (b : Byte) (q : Bus) : State :=
  { s with buses := if s.busInRange b then s.buses.set (b.toNat - 1) q else s.buses }

/-! ## Selected words -/

/-- The descriptor view of R41. -/
def Txn.view (x : Txn) (sel : BitVec 3) : Word :=
  match sel.toNat with
  | 0 => wordOfHalves x.addr x.regaddr
  | 1 => x.buf
  | 2 => wordOfHalves 0 x.len
  | 3 => 0#16 ++ x.devid ++ 0#4 ++ BitVec.ofBool x.devp ++ x.regw ++ BitVec.ofBool x.dir.bit
  | 4 => x.preFn
  | 5 => x.preArg
  | 6 => x.postFn
  | _ => x.postArg

/-- The device view of R42. -/
def Dev.view (v : Dev) (sel : BitVec 1) : Word :=
  match sel.toNat with
  | 0 => 0#8 ++ v.bus ++ v.addr
  | _ => v.name

/-- The configuration read-back words of R32. -/
def BusCfg.word (c : BusCfg) (sel : BitVec 2) : Word :=
  match sel.toNat with
  | 0 => 0#25 ++ BitVec.ofBool c.fast ++ c.flags.bits
  | 1 => c.clk
  | 2 => wordOfHalves c.own2 c.own1
  | _ => c.name

/-! ## Addresses -/

/-- `ADDR_VALID(a, mode)` (R163), for an unsigned number `a`. -/
def addrValid (p : Params) (a : Nat) (mode : AddrMode) : Bool :=
  match mode with
  | .bits7 => decide (p.a7Lo ≤ a ∧ a ≤ p.a7Hi)
  | .bits10 => decide (a ≤ p.a10Max)

/-- `WIRE_ADDR(b, a)`: the shift of the bus's addressing width, 16 bits wide (R171). -/
def wireAddr (p : Params) (c : BusCfg) (a : Half) : Half :=
  match c.flags.addrMode with
  | .bits10 => a <<< p.addrShift10
  | .bits7 => a <<< p.addrShift7

/-- `FAST` of a clock speed (R29). -/
def isFast (p : Params) (clk : Word) : Bool := decide (p.fastThresholdHz < clk.toNat)

/-! ## Transactions -/

/-- `VALIDATE_TX(REGW, REGADDR)` does not raise (R130). -/
def validateTx (regw : BitVec 2) (regaddr : Half) : Bool := !(regw == 0 && regaddr != 0)

/-- The hook of a descriptor, function and argument (R136). -/
def Txn.hook (x : Txn) (kind : CbKind) : Word × Word :=
  match kind with
  | .pre => (x.preFn, x.preArg)
  | .post => (x.postFn, x.postArg)

/-- The record `CB_INVOKE` emits, if any: a hook is present when its function value is not zero (R136). -/
def Txn.cbRecords (x : Txn) (kind : CbKind) (b : Byte) (ctx : Ctx) : List Record :=
  if (x.hook kind).1 ≠ 0 then [.cb kind b ctx (x.hook kind).1 (x.hook kind).2] else []

/-- The `INITIATE` record of a descriptor dispatched on bus `b` with configuration `c` (R170). -/
def Txn.initiateRecord (x : Txn) (p : Params) (c : BusCfg) (b : Byte) : Record :=
  .initiate b x.dir (wireAddr p c x.addr) x.regaddr x.regw x.buf x.len

end Sys2Proof.Machine
end

