-- ==== Sys2Proof/Machine/Ops.lean ====
section
/-! DEFINITION. The shared operations: responses and errors, the output ports, the backend's answers, and the seven
micro-operations of `30_encoding.md` rule R100. -/

namespace Sys2Proof.Machine

/-- What an operation answers: a next state, a fault or a refusal. -/
abbrev Result := Host.Outcome State Fault Refusal

/-- Continue with what an operation answers, stopping where it stops. -/
def andThen {α β : Type} (m : Host.Outcome α Fault Refusal) (f : α → Host.Outcome β Fault Refusal) :
    Host.Outcome β Fault Refusal :=
  match m with
  | .next a => f a
  | .fault r => .fault r
  | .refused r => .refused r

/-! ## Responses and errors -/

/-- Deliver the response `(st, v)` (R11 `return`, R88). -/
def State.respond (s : State) (st : Status) (v : Word) : State := { s with resp := s.resp ++ [⟨st, v⟩] }

/-- End a command with the response `(st, v)` (R11 `return`). -/
def done (st : Status) (v : Word) (s : State) : Result := .next (s.respond st v)

/-- TAKING AN EXCEPTION in foreground context: the command ends at once with the response `(code, 0)` and all state is
as it was before it (R11 `raise`, R207, R208). -/
def raise (st : Status) (s : State) : Result := done st 0 s

/-- Append records to the output stream (R11 `emit`, R70). -/
def State.emit (s : State) (rs : List Record) : State := { s with out := s.out ++ rs }

/-- LATCH's effect on the bus: the first error is kept, a later one only sets `ERR_LOST` (R206). -/
def Bus.latch (q : Bus) (cause : Status) (ctx : Ctx) : Bus :=
  match q.err with
  | none => { q with err := some ⟨cause, ctx⟩ }
  | some _ => { q with errLost := true }

/-- TAKING AN EXCEPTION in interrupt context, and the mark of a failed dispatch in either: `LATCH(b, cause, ctx)` of bus
`b`, whose storage is `q` (R206). There is no return from it: the handler ends (R228). -/
def latch (b : Byte) (q : Bus) (cause : Status) (ctx : Ctx) (s : State) : State :=
  (s.emit [.errn b cause ctx]).setBus b (q.latch cause ctx)

/-! ## The backend's answers -/

/-- The backend's answer to the next query: the next one of the inputs, or a free value where they hold none (R212,
R213; log 5). -/
def State.nextAnswer (s : State) : Bool := s.answers.headD (Config.freeAnswer s.draws)

/-- The state after the next answer has been read. -/
def State.afterAnswer (s : State) : State :=
  { s with answers := s.answers.tail, draws := if s.answers.isEmpty then s.draws + 1 else s.draws }

/-- Read the backend's answer to the query just emitted (R11 `ask`). -/
def State.ask (s : State) : Bool × State := (s.nextAnswer, s.afterAnswer)

/-! ## The queue (R110 to R114) -/

/-- `(x + 1) mod QCAP` (R111). -/
def nextIndex (qcap x : Nat) : Nat := (x + 1) % qcap

/-- `Q_ENQUEUE` (R112); `none` is `QueueFull`, with nothing written. -/
def qEnqueue (qcap : Nat) (q : Bus) (x : Txn) : Option Bus :=
  if q.count = qcap then none
  else some { q with slots := q.slots.set q.tail (some x), tail := nextIndex qcap q.tail, count := q.count + 1 }

/-- `Q_PEEK` (R114); the answer `none` is the null result of an empty queue. -/
def qPeek (q : Bus) : Host.Outcome (Option Txn) Fault Refusal :=
  if q.count = 0 then .next none
  else
    match q.slots.getD q.head none with
    | some x => .next (some x)
    | none => .fault .slotHoldsNoValue

/-- `Q_DEQUEUE` (R113); the answer `none` is `QueueEmpty`, with nothing changed. The vacated slot holds no value
afterwards (R40). -/
def qDequeue (qcap : Nat) (q : Bus) : Host.Outcome (Option (Txn × Bus)) Fault Refusal :=
  if q.count = 0 then .next none
  else
    match q.slots.getD q.head none with
    | some x =>
      .next (some (x, { q with slots := q.slots.set q.head none, head := nextIndex qcap q.head, count := q.count - 1 }))
    | none => .fault .slotHoldsNoValue

/-! ## Callbacks and dispatch -/

/-- `CB_INVOKE(kind, x, b, ctx)` (R136). -/
def cbInvoke (kind : CbKind) (x : Txn) (b : Byte) (ctx : Ctx) (s : State) : State := s.emit (x.cbRecords kind b ctx)

/-- `DISPATCH(b, ctx)` of bus `b`, whose configuration is `c` and whose storage is `q` (R170). It answers the state and
the status DISPATCH returns. -/
def dispatch (b : Byte) (c : BusCfg) (q : Bus) (ctx : Ctx) (s : State) :
    Host.Outcome (State × Status) Fault Refusal :=
  andThen (qPeek q) fun head =>
    match head with
    | none => .next (s.setBus b { q with curValid := false, busy := false }, .ok)
    | some p =>
      let q := { q with curValid := true }
      let s := cbInvoke .pre p b ctx (s.setBus b q)
      let asked := (s.emit [p.initiateRecord s.params c b]).ask
      if asked.1 then .next (asked.2.setBus b { q with busy := true }, .ok)
      else .next (latch b { q with busy := false } .errHwInitiate ctx asked.2, .errHwInitiate)

/-- `BUS_SET_TRANSACTION(b, x, ctx)` (R168). A bus that is not usable is refused as an operand (R94; log 10). -/
def busSetTransaction (b : Byte) (x : Txn) (ctx : Ctx) (s : State) : Result :=
  match s.regBus? b with
  | none => raise .errOperand s
  | some (c, q) =>
    match qEnqueue s.params.qcap q x with
    | none => raise .errQFull s
    | some q' =>
      let s := s.setBus b q'
      if q.count = 0 ∧ q.busy = false then
        let asked := (s.emit [.idleq b]).ask
        if asked.1 then
          andThen (dispatch b c q' ctx asked.2) fun r => done r.2 (if r.2 = .ok then 1 else 0) r.1
        else done .ok 0 asked.2
      else done .ok 0 s

end Sys2Proof.Machine
end

