-- ==== Sys2Proof/Machine/Transaction.lean ====
section
/-! DEFINITION. The transaction family (`41_transaction.md` rules R130 to R140), with the forwarding of a Device (R154),
which TXSEND shares with DEVSUB. -/

namespace Sys2Proof.Machine

/-- A new descriptor has no hooks (R131: "callbacks included"). -/
def newTxn (dir : Dir) (addr regaddr : Half) (regw : BitVec 2) (buf : Word) (len : Half) (devp : Bool) (devid : Byte) :
    Txn :=
  { dir, addr, regaddr, regw, buf, len, preFn := 0, preArg := 0, postFn := 0, postArg := 0, devp, devid }

/-- The last check of a constructor and its write: `VALIDATE_TX`, then `TXR[t]` is replaced whole (R130, R131). -/
def storeTxn (t : Byte) (x : Txn) (s : State) : Result :=
  if validateTx x.regw x.regaddr then done .ok 0 (s.setTxr t x) else raise .errConstruction s

/-- TXRD and TXWR: the target address is the Device's, copied now (R132, R133). An operand `REGW = 3` is illegal (R93;
log 11). -/
def constructForDevice (dir : Dir) (t d : Byte) (regaddr : Half) (regw : BitVec 2) (buf : Word) (len : Half)
    (s : State) : Result :=
  if regwOk regw then
    if s.txrInRange t then
      match s.dev? d with
      | none => raise .errOperand s
      | some v => storeTxn t (newTxn dir v.addr regaddr regw buf len true d) s
    else raise .errOperand s
  else raise .errIllegal s

/-- A command on a usable `TXR[t]` (R91, R94). -/
def withTxr (t : Byte) (s : State) (f : Txn → Result) : Result :=
  match s.txr? t with
  | none => raise .errOperand s
  | some x => f x

/-- `Device.setTransaction`: forward the Transaction staged in `TXR[t]` to the Device's bus (R154). -/
def deviceSubmit (d t : Byte) (s : State) : Result :=
  match s.dev? d with
  | none => raise .errOperand s
  | some v =>
    withTxr t s fun x =>
      if v.bus = 0 then raise .errUseNobus s else busSetTransaction v.bus x .fg s

/-- TXNEW (R131). -/
def execTxnew (t : Byte) (dir : Dir) (addr regaddr : Half) (regw : BitVec 2) (buf : Word) (len : Half) (s : State) :
    Result :=
  if regwOk regw then
    if s.txrInRange t then storeTxn t (newTxn dir addr regaddr regw buf len false 0) s else raise .errOperand s
  else raise .errIllegal s

/-- TXRD (R132). -/
def execTxrd (t d : Byte) (regaddr : Half) (regw : BitVec 2) (buf : Word) (len : Half) (s : State) : Result :=
  constructForDevice .read t d regaddr regw buf len s

/-- TXWR (R133). -/
def execTxwr (t d : Byte) (regaddr : Half) (regw : BitVec 2) (buf : Word) (len : Half) (s : State) : Result :=
  constructForDevice .write t d regaddr regw buf len s

/-- TXPRE (R134). -/
def execTxpre (t : Byte) (fn arg : Word) (s : State) : Result :=
  withTxr t s fun x => done .ok 0 (s.setTxr t { x with preFn := fn, preArg := arg })

/-- TXPOST (R135). -/
def execTxpost (t : Byte) (fn arg : Word) (s : State) : Result :=
  withTxr t s fun x => done .ok 0 (s.setTxr t { x with postFn := fn, postArg := arg })

/-- TXSEND (R139): no device, then what the Device's forwarding answers. -/
def execTxsend (t : Byte) (s : State) : Result :=
  withTxr t s fun x => if x.devp then deviceSubmit x.devid t s else raise .errUseNodevice s

/-- TXCBPRE (R137). -/
def execTxcbpre (t : Byte) (s : State) : Result := withTxr t s fun x => done .ok 0 (cbInvoke .pre x 0 .fg s)

/-- TXCBPOST (R138). -/
def execTxcbpost (t : Byte) (s : State) : Result := withTxr t s fun x => done .ok 0 (cbInvoke .post x 0 .fg s)

/-- TXGET (R140). -/
def execTxget (t : Byte) (sel : BitVec 3) (s : State) : Result := withTxr t s fun x => done .ok (x.view sel) s

end Sys2Proof.Machine
end

