-- ==== Sys2Proof/Machine/BusCommands.lean ====
section
/-! DEFINITION. The bus family (`43_bus.md` rules R160 to R174). -/

namespace Sys2Proof.Machine

/-- A command on a registered bus (R91, R94). -/
def withBus (b : Byte) (s : State) (f : BusCfg → Bus → Result) : Result :=
  match s.regBus? b with
  | none => raise .errOperand s
  | some (c, q) => f c q

/-- The flags of a master-only bus: the slave-only ones are forced to their disabled default (R162). -/
def masterOnlyFlags (g : BusFlags) : BusFlags := { g with dual := false, nostretch := false, gencall := false }

/-- Write the configuration and the initial state of bus `b`, whose storage is `q`, and bind it (R161, R251). -/
def registerBus (b : Byte) (q : Bus) (c : BusCfg) (s : State) : Result :=
  done .ok 0
    ((s.setBus b { q with
        cfg := some c, head := 0, tail := 0, count := 0, busy := false, curValid := false, err := none,
        errLost := false }).emit [.bind b])

/-- BUSINIT (R161): instance, duplicate, address, in that order; a master skips the address checks (R162). -/
def execBusinit (b : Byte) (name clk : Word) (flags : BusFlags) (own1 own2 : Half) (s : State) : Result :=
  match s.bus? b with
  | none => raise .errCfgInstance s
  | some q =>
    match q.cfg with
    | some _ => raise .errCfgDuplicate s
    | none =>
      match flags.role with
      | .master => registerBus b q ⟨name, clk, masterOnlyFlags flags, 0, 0, isFast s.params clk⟩ s
      | .slave =>
        if addrValid s.params own1.toNat flags.addrMode = false then raise .errCfgAddress s
        else if flags.dual && !addrValid s.params own2.toNat flags.addrMode then raise .errCfgAddress s
        else registerBus b q ⟨name, clk, flags, own1, own2, isFast s.params clk⟩ s

/-- BUSSUB (R169). -/
def execBussub (b t : Byte) (s : State) : Result :=
  withBus b s fun _ _ => withTxr t s fun x => busSetTransaction b x .fg s

/-- BUSNUM (R165). -/
def execBusnum (b : Byte) (s : State) : Result := withBus b s fun _ _ => done .ok (b.setWidth 32) s

/-- BUSSTAT (R166). -/
def execBusstat (b : Byte) (s : State) : Result := withBus b s fun _ q => done .ok q.statusWord s

/-- BUSERR (R167): drain the error latch; `NULL` when it holds nothing. -/
def execBuserr (b : Byte) (s : State) : Result :=
  withBus b s fun _ q =>
    match q.err with
    | none => done .null 0 s
    | some e => done .ok (q.errWord e) (s.setBus b { q with err := none, errLost := false })

/-- BUSCFG (R173). -/
def execBuscfg (b : Byte) (sel : BitVec 2) (s : State) : Result := withBus b s fun c _ => done .ok (c.word sel) s

/-- ADDRCHK (R164). -/
def execAddrchk (mode : AddrMode) (address : Word) (s : State) : Result :=
  done .ok (if addrValid s.params address.toNat mode then 1 else 0) s

end Sys2Proof.Machine
end

