-- ==== Sys2Proof/Machine/Device.lean ====
section
/-! DEFINITION. The device family (`42_device.md` rules R150 to R155). -/

namespace Sys2Proof.Machine

/-- A command on a usable `DEV[d]` (R91, R94). -/
def withDev (d : Byte) (s : State) (f : Dev → Result) : Result :=
  match s.dev? d with
  | none => raise .errOperand s
  | some v => f v

/-- DEVNEW (R151): `b = 0` creates the Device without a Bus. -/
def execDevnew (d b : Byte) (addr : Half) (name : Word) (s : State) : Result :=
  if s.devInRange d then
    if b = 0 ∨ (s.regBus? b).isSome then done .ok 0 (s.setDev d ⟨addr, b, name⟩) else raise .errOperand s
  else raise .errOperand s

/-- DEVATT (R152): the operand checks first (R94), then the usage error. -/
def execDevatt (d b : Byte) (s : State) : Result :=
  withDev d s fun v =>
    if (s.regBus? b).isSome then
      if v.bus ≠ 0 then raise .errUseAttached s else done .ok 0 (s.setDev d { v with bus := b })
    else raise .errOperand s

/-- DEVDET (R153). -/
def execDevdet (d : Byte) (s : State) : Result :=
  withDev d s fun v => done .ok 0 (s.setDev d { v with bus := 0 })

/-- DEVSUB (R154). -/
def execDevsub (d t : Byte) (s : State) : Result := deviceSubmit d t s

/-- DEVGET (R155). -/
def execDevget (d : Byte) (sel : BitVec 1) (s : State) : Result := withDev d s fun v => done .ok (v.view sel) s

end Sys2Proof.Machine
end

