-- ==== Sys2Proof/Machine/Events.lean ====
section
/-! DEFINITION. The events (`60_exceptions.md` rules R222 to R227): the routing of low-level interrupts, the completion
handler and the transfer-error handler. An event has no response. -/

namespace Sys2Proof.Machine

/-- An event for instance `b`: dropped where no Bus is registered (R223). -/
def onRegistered (b : Byte) (s : State) (f : BusCfg → Bus → Result) : Result :=
  match s.regBus? b with
  | none => .next s
  | some (c, q) => f c q

/-- Route a low-level interrupt to the backend (R222). -/
def routeIrq (b : Byte) (cls : IrqClass) (s : State) : Result :=
  onRegistered b s fun _ _ => .next (s.emit [.birq b cls])

/-- IRQ.EV (R222). -/
def execIrqEv (b : Byte) (s : State) : Result := routeIrq b .event s

/-- IRQ.ER (R222). -/
def execIrqEr (b : Byte) (s : State) : Result := routeIrq b .error s

/-- CPLT, the completion handler (R225): refuse a spurious one (R227); else dequeue the head, invoke its post-callback
and dispatch the new head, whose status is discarded. -/
def execCplt (b : Byte) (s : State) : Result :=
  onRegistered b s fun c q =>
    if q.busy = false then .next (latch b q .errHwSpurious .irq s)
    else
      andThen (qDequeue s.params.qcap q) fun r =>
        match r with
        | none => .next (latch b { q with busy := false, curValid := false } .errQEmpty .irq s)
        | some (x, q') =>
          let q' := { q' with busy := false, curValid := false }
          let s := cbInvoke .post x b .irq (s.setBus b q')
          andThen (dispatch b c q' .irq s) fun r => .next r.1

/-- XERR, the transfer-error handler (R226): refuse a spurious one (R227); else the transfer is over and its error is
latched. -/
def execXerr (b : Byte) (s : State) : Result :=
  onRegistered b s fun _ q =>
    if q.busy = false then .next (latch b q .errHwSpurious .irq s)
    else .next (latch b { q with busy := false } .errHwTransfer .irq s)

end Sys2Proof.Machine
end

