-- ==== Sys2Proof/Machine/QueueCommands.lean ====
section
/-! DEFINITION. The queue family (`40_queue.md` rules R115 to R119): pure queries. -/

namespace Sys2Proof.Machine

/-- QSIZE (R115). -/
def execQsize (b : Byte) (s : State) : Result := withBus b s fun _ q => done .ok (BitVec.ofNat 32 q.count) s

/-- QEMPTY (R116). -/
def execQempty (b : Byte) (s : State) : Result :=
  withBus b s fun _ q => done .ok (if q.count = 0 then 1 else 0) s

/-- QHASDATA (R117). -/
def execQhasdata (b : Byte) (s : State) : Result :=
  withBus b s fun _ q => done .ok (if 0 < q.count then 1 else 0) s

/-- QFULL (R118). -/
def execQfull (b : Byte) (s : State) : Result :=
  withBus b s fun _ q => done .ok (if q.count = s.params.qcap then 1 else 0) s

/-- QPEEK (R119): one word of the head descriptor; `NULL` when the queue is empty. -/
def execQpeek (b : Byte) (sel : BitVec 3) (s : State) : Result :=
  withBus b s fun _ q =>
    andThen (qPeek q) fun head =>
      match head with
      | none => done .null 0 s
      | some x => done .ok (x.view sel) s

end Sys2Proof.Machine
end

