-- ==== Sys2Proof/Machine/Dispatch.lean ====
section
/-! DEFINITION. One arm for each instruction (`opcode_table.json`). -/

namespace Sys2Proof.Machine

def exec (i : Instr) (s : State) : Host.Outcome State Fault Refusal :=
  match i with
  | .txnew t dir addr regaddr regw buf len => Sys2Proof.Machine.execTxnew t dir addr regaddr regw buf len s
  | .txrd t d regaddr regw buf len => Sys2Proof.Machine.execTxrd t d regaddr regw buf len s
  | .txwr t d regaddr regw buf len => Sys2Proof.Machine.execTxwr t d regaddr regw buf len s
  | .txpre t fn arg => Sys2Proof.Machine.execTxpre t fn arg s
  | .txpost t fn arg => Sys2Proof.Machine.execTxpost t fn arg s
  | .txsend t => Sys2Proof.Machine.execTxsend t s
  | .txcbpre t => Sys2Proof.Machine.execTxcbpre t s
  | .txcbpost t => Sys2Proof.Machine.execTxcbpost t s
  | .txget t sel => Sys2Proof.Machine.execTxget t sel s
  | .devnew d b addr name => Sys2Proof.Machine.execDevnew d b addr name s
  | .devatt d b => Sys2Proof.Machine.execDevatt d b s
  | .devdet d => Sys2Proof.Machine.execDevdet d s
  | .devsub d t => Sys2Proof.Machine.execDevsub d t s
  | .devget d sel => Sys2Proof.Machine.execDevget d sel s
  | .businit b name clk flags own1 own2 => Sys2Proof.Machine.execBusinit b name clk flags own1 own2 s
  | .bussub b t => Sys2Proof.Machine.execBussub b t s
  | .busnum b => Sys2Proof.Machine.execBusnum b s
  | .busstat b => Sys2Proof.Machine.execBusstat b s
  | .buserr b => Sys2Proof.Machine.execBuserr b s
  | .buscfg b sel => Sys2Proof.Machine.execBuscfg b sel s
  | .addrchk mode address => Sys2Proof.Machine.execAddrchk mode address s
  | .qsize b => Sys2Proof.Machine.execQsize b s
  | .qempty b => Sys2Proof.Machine.execQempty b s
  | .qhasdata b => Sys2Proof.Machine.execQhasdata b s
  | .qfull b => Sys2Proof.Machine.execQfull b s
  | .qpeek b sel => Sys2Proof.Machine.execQpeek b sel s
  | .irqEv b => Sys2Proof.Machine.execIrqEv b s
  | .irqEr b => Sys2Proof.Machine.execIrqEr b s
  | .cplt b => Sys2Proof.Machine.execCplt b s
  | .xerr b => Sys2Proof.Machine.execXerr b s

end Sys2Proof.Machine
end

