-- ==== Sys2Proof/Machine/Ports.lean ====
section
/-! DEFINITION. The inputs: the arrival of events, the pending bits and the choice of the next input
(`60_exceptions.md` rules R220, R221, R223, R224), and the reset input (`70_reset_and_hazards.md` rule R250). -/

namespace Sys2Proof.Machine

/-- An event word that arrives during a transition (R221): its pending bit is set, merging with one already pending.
It is dropped where it is no event (R96) or no Bus is registered for its instance (R223); the registry is the one from
before the transition, whose writes "take effect together at its end" (R10; log 4). -/
def latchEvent (s : State) (w : Half) : State :=
  match decodeEvent w with
  | .error _ => s
  | .ok (k, b) =>
    match s.regBus? b with
    | none => s
    | some (_, q) => s.setBus b (q.setPend k true)

/-- The events that arrive during the transition now begun (R221): the first list of `evDuring`. -/
def State.arrive (s : State) : State :=
  match s.evDuring with
  | [] => s
  | ws :: rest => ws.foldl latchEvent { s with evDuring := rest }

/-- The first pending event of a list of instances whose first identifier is `n`: lowest instance first (R224 (2)). -/
def firstPending (n : Nat) : List Bus → Option (EventKind × Byte)
  | [] => none
  | q :: qs =>
    match q.firstPend with
    | some k => some (k, BitVec.ofNat 8 n)
    | none => firstPending (n + 1) qs

/-- The pending event to be serviced next, if any is pending (R224 (2), (3)). -/
def State.pending? (s : State) : Option (EventKind × Byte) := firstPending 1 s.buses

/-- "A pending bit is cleared when its service begins" (R221). -/
def State.clearPend (s : State) (k : EventKind) (b : Byte) : State :=
  match s.bus? b with
  | none => s
  | some q => s.setBus b (q.setPend k false)

/-- No pending bit is set. -/
def Bus.noPend (q : Bus) : Bus :=
  { q with pendIrqEv := false, pendIrqEr := false, pendCplt := false, pendXerr := false }

/-- What the next step does. -/
inductive Selected where
  /-- The reset input (R250). -/
  | reset
  /-- The transition of an instruction, in the state in which it begins. -/
  | run (i : Instr) (s : State)
  /-- The transition of an illegal command (R93), in the state in which it begins. -/
  | illegal (s : State)
  /-- An event word that is no event (R96), and the state without it. -/
  | dropped (s : State)
  /-- No input waits. -/
  | idle

/-- The choice of the next input (R224): reset before all (R250); a pending event before any other input; then an event
arriving now, "serviced at once" (R221); then the command waiting on the command port. The events that arrive during
the chosen transition are latched as it begins. -/
def selectInput (s : State) : Selected :=
  if s.resetReq then .reset
  else
    match s.pending? with
    | some (k, b) => .run (k.instr b) (s.clearPend k b).arrive
    | none =>
      match s.evPort with
      | w :: ws =>
        match decodeEvent w with
        | .ok (k, b) => .run (k.instr b) ({ s with evPort := ws } : State).arrive
        | .error _ => .dropped ({ s with evPort := ws } : State).arrive
      | [] =>
        match decodeCommand s.cmdPort with
        | .instr i rest => .run i ({ s with cmdPort := rest } : State).arrive
        | .illegal _ rest => .illegal ({ s with cmdPort := rest } : State).arrive
        | .incomplete => .idle

/-- Reset (R250): every element of state at its value of R39, any command or event pending discarded. What has been put
out, and what the world will yet do, is not the scheduler's to reset (log 7). -/
def State.hardReset (s : State) : State :=
  { State.resetWith s.params with
    evDuring := s.evDuring, answers := s.answers, draws := s.draws, resp := s.resp, out := s.out }

/-- The state with a command or an event placed so that the next step takes it: a row of at most 16 bits on the event
port, a wider one on the command port with no event waiting (R224; log 14). -/
def placeInput (s : State) (nbits w : Nat) : State :=
  let s := { s with resetReq := false, buses := s.buses.map Bus.noPend }
  if nbits ≤ 16 then { s with evPort := BitVec.ofNat 16 w :: s.evPort }
  else { s with evPort := [], cmdPort := tableWords w ++ s.cmdPort }

end Sys2Proof.Machine
end

