-- ==== Sys2Proof/Machine/Step.lean ====
section
/-! DEFINITION. One step: one transition (`20_memory.md` rule R68), or nothing where no input waits. -/

namespace Sys2Proof.Machine

/-- Take the next input (R224) and make its transition. A command that is illegal is answered `(ERR_ILLEGAL, 0)` (R93);
an event word that is no event is dropped (R96); with no input waiting the scheduler waits. -/
def step (s : State) : Host.Outcome State Fault Refusal :=
  match selectInput s with
  | .reset => .next s.hardReset
  | .run i s' => exec i s'
  | .illegal s' => raise .errIllegal s'
  | .dropped s' => .next s'
  | .idle => .next s

/-- `s` with an instruction's bits where the next step takes its input (log 14). -/
def State.withFetchWord (s : State) (nbits w : Nat) : State := placeInput s nbits w

end Sys2Proof.Machine
end

