-- ==== Sys2Proof/Safety.lean ====
section
/-! DEFINITION. What counts as a legal state and a safe run, in the terms the statements use: the invariants of
`10_state.md` rule R37, the queue as a list (R33), usable handles (`30_encoding.md` rules R91, R94), submissions
(`43_bus.md` rules R168, R169) and the records of a run. -/

namespace Sys2Proof

/-! ## The opcode table -/

/-- The column `match` of `opcode_table.json` for the command rows. -/
def Opcode.tableMatch : Opcode → Word
  | .txnew => 0x10000000
  | .txrd => 0x11000000
  | .txwr => 0x12000000
  | .txpre => 0x13000000
  | .txpost => 0x14000000
  | .txsend => 0x15000000
  | .txcbpre => 0x16000000
  | .txcbpost => 0x17000000
  | .txget => 0x18000000
  | .devnew => 0x20000000
  | .devatt => 0x21000000
  | .devdet => 0x22000000
  | .devsub => 0x23000000
  | .devget => 0x24000000
  | .businit => 0x30000000
  | .bussub => 0x31000000
  | .busnum => 0x32000000
  | .busstat => 0x33000000
  | .buserr => 0x34000000
  | .buscfg => 0x35000000
  | .addrchk => 0x36000000
  | .qsize => 0x40000000
  | .qempty => 0x41000000
  | .qhasdata => 0x42000000
  | .qfull => 0x43000000
  | .qpeek => 0x44000000

/-- The column `mask` of `opcode_table.json` for the command rows: the header bits a row fixes. -/
def Opcode.tableMask : Opcode → Word
  | .txnew => 0xFF00FFF8
  | .txrd => 0xFF0000F9
  | .txwr => 0xFF0000F9
  | .txpre => 0xFF00FFFF
  | .txpost => 0xFF00FFFF
  | .txsend => 0xFF00FFFF
  | .txcbpre => 0xFF00FFFF
  | .txcbpost => 0xFF00FFFF
  | .txget => 0xFF00FFF8
  | .devnew => 0xFF0000FF
  | .devatt => 0xFF0000FF
  | .devdet => 0xFF00FFFF
  | .devsub => 0xFF0000FF
  | .devget => 0xFF00FFFE
  | .businit => 0xFF00FFC0
  | .bussub => 0xFF0000FF
  | .busnum => 0xFF00FFFF
  | .busstat => 0xFF00FFFF
  | .buserr => 0xFF00FFFF
  | .buscfg => 0xFF00FFFC
  | .addrchk => 0xFFFFFFFE
  | .qsize => 0xFF00FFFF
  | .qempty => 0xFF00FFFF
  | .qhasdata => 0xFF00FFFF
  | .qfull => 0xFF00FFFF
  | .qpeek => 0xFF00FFF8

/-- The operand errors of R93 for a header `h` and operand words `w1` and `w3`: `REGW = 3` or `W3[31:16]` not zero in
Format T, `W1[31:16]` not zero in TXRD, TXWR and DEVNEW. -/
def operandIllegal (o : Opcode) (h w1 w3 : Word) : Prop :=
  (o.format = .T ∧ (h.extractLsb' 1 2 = 3 ∨ w3.extractLsb' 16 16 ≠ 0)) ∨
  ((o = .txrd ∨ o = .txwr ∨ o = .devnew) ∧ w1.extractLsb' 16 16 ≠ 0)

end Sys2Proof

namespace Sys2Proof.Machine

/-! ## The invariants of R37 -/

/-- The descriptor invariant of R22. -/
structure Txn.Wf (p : Params) (x : Txn) : Prop where
  /-- `REGW = 3` is never stored. -/
  regw : x.regw ≠ 3
  /-- `REGW = 0` implies `REGADDR = 0`. -/
  regaddr : x.regw = 0 → x.regaddr = 0
  /-- `DEVID` is 0 unless `DEVP = 1`. -/
  devid : x.devp = false → x.devid = 0
  /-- `DEVID` is in range. -/
  devidRange : x.devid.toNat < p.nDev

/-- A configuration record as BUSINIT leaves it (R28, R29, R161, R162). -/
structure BusCfg.Wf (p : Params) (c : BusCfg) : Prop where
  /-- `FAST` is derived from `CLK` (R29). -/
  fast : c.fast = decide (p.fastThresholdHz < c.clk.toNat)
  /-- A master's slave-only fields are zero (R28, R162). -/
  master : c.flags.role = .master →
    c.own1 = 0 ∧ c.own2 = 0 ∧ c.flags.dual = false ∧ c.flags.nostretch = false ∧ c.flags.gencall = false
  /-- A slave's own addresses are valid (R161). -/
  slave : c.flags.role = .slave →
    addrValid p c.own1.toNat c.flags.addrMode = true ∧
    (c.flags.dual = true → addrValid p c.own2.toNat c.flags.addrMode = true)

/-- The content of the queue position `k` places after the head (R33). -/
def Bus.slotAt (q : Bus) (qcap k : Nat) : Option Txn := q.slots.getD ((q.head + k) % qcap) none

/-- The queue as a list, oldest first (R33). -/
def Bus.queue (q : Bus) (qcap : Nat) : List Txn := (List.range q.count).filterMap (q.slotAt qcap)

/-- R37 I1 to I7 for one instance. -/
structure Bus.Wf (p : Params) (q : Bus) : Prop where
  /-- The ring has `QCAP` slots (R33). -/
  slots : q.slots.length = p.qcap
  head : q.head < p.qcap
  /-- I1. -/
  count : q.count ≤ p.qcap
  /-- I2. -/
  tail : q.tail = (q.head + q.count) % p.qcap
  /-- The occupied slots hold values, with the descriptor invariant (R33, I5). -/
  occupied : ∀ k, k < q.count → ∃ x, q.slotAt p.qcap k = some x ∧ x.Wf p
  /-- The other slots hold no value (R33, R40). -/
  vacant : ∀ k, q.count ≤ k → k < p.qcap → q.slotAt p.qcap k = none
  /-- I3. -/
  busy : q.busy = true → q.curValid = true
  /-- I4. -/
  cur : q.curValid = true → 0 < q.count
  /-- I7. -/
  lost : q.errLost = true → q.errValid = true
  /-- I6. -/
  unregistered : q.cfg = none → q = Bus.atReset p.qcap
  /-- What BUSINIT guarantees of `CFG` (R28). -/
  config : ∀ c, q.cfg = some c → c.Wf p

/-- R37, with the sizes of the tables (R7, R20). -/
structure State.Inv (s : State) : Prop where
  params : s.params.wf
  txrLength : s.txr.length = s.params.nTxr
  devsLength : s.devs.length = s.params.nDev
  busesLength : s.buses.length = s.params.nBus
  /-- I1 to I7. -/
  buses : ∀ q ∈ s.buses, q.Wf s.params
  /-- I8. -/
  devs : ∀ d v, s.dev? d = some v → v.bus ≠ 0 → ∃ cq, s.regBus? v.bus = some cq
  /-- R22 of a staged Transaction. -/
  txrs : ∀ t x, s.txr? t = some x → x.Wf s.params
  /-- I9. -/
  txrDevs : ∀ t x, s.txr? t = some x → x.devp = true → ∃ v, s.dev? x.devid = some v

/-! ## States of a bus -/

/-- Bus `b` is Busy: registered with a transfer in flight (R24, R160). -/
def State.busyAt (s : State) (b : Byte) : Prop := ∃ c q, s.regBus? b = some (c, q) ∧ q.busy = true

/-- Bus `b` is stalled (R26). -/
def State.stalledAt (s : State) (b : Byte) : Prop := ∃ c q, s.regBus? b = some (c, q) ∧ q.stalled = true

/-- The queue of instance `b` as a list (R33); empty where there is no instance `b`. -/
def State.queueOf (s : State) (b : Byte) : List Txn :=
  match s.bus? b with
  | none => []
  | some q => q.queue s.params.qcap

/-- The queued transactions of bus `b` whose dispatch has not been tried: all but the current one (R34, R170). -/
def State.undispatched (s : State) (b : Byte) : List Txn :=
  match s.bus? b with
  | none => []
  | some q => if q.curValid then (q.queue s.params.qcap).tail else q.queue s.params.qcap

/-! ## What an instruction may write (R38) -/

/-- The rows of R38's table that `exec` can write: the pending bits are the arbiter's. -/
inductive StateGroup where
  | txr | dev | registry | queue | flags | err
  deriving DecidableEq, Repr

/-- The column "written by" of R38 (`registry` is `REGD` and `CFG`). -/
def writesOf : Instr → List StateGroup
  | .txnew _ _ _ _ _ _ _ => [.txr]
  | .txrd _ _ _ _ _ _ => [.txr]
  | .txwr _ _ _ _ _ _ => [.txr]
  | .txpre _ _ _ => [.txr]
  | .txpost _ _ _ => [.txr]
  | .txsend _ => [.queue, .flags, .err]
  | .txcbpre _ => []
  | .txcbpost _ => []
  | .txget _ _ => []
  | .devnew _ _ _ _ => [.dev]
  | .devatt _ _ => [.dev]
  | .devdet _ => [.dev]
  | .devsub _ _ => [.queue, .flags, .err]
  | .devget _ _ => []
  | .businit _ _ _ _ _ _ => [.registry]
  | .bussub _ _ => [.queue, .flags, .err]
  | .busnum _ => []
  | .busstat _ => []
  | .buserr _ => [.err]
  | .buscfg _ _ => []
  | .addrchk _ _ => []
  | .qsize _ => []
  | .qempty _ => []
  | .qhasdata _ => []
  | .qfull _ => []
  | .qpeek _ _ => []
  | .irqEv _ => []
  | .irqEr _ => []
  | .cplt _ => [.queue, .flags, .err]
  | .xerr _ => [.flags, .err]

/-! ## Records of a step or a run -/

/-- The record is an `INITIATE` of bus `b`. -/
def Record.isInitiateOf (b : Byte) : Record → Bool
  | .initiate b' _ _ _ _ _ _ => b' == b
  | .bind _ => false
  | .idleq _ => false
  | .birq _ _ => false
  | .cb _ _ _ _ _ => false
  | .errn _ _ _ => false

/-- The record is a `CB(POST)` of bus `b`. -/
def Record.isPostOf (b : Byte) : Record → Bool
  | .cb kind b' _ _ _ => kind == .post && b' == b
  | .initiate _ _ _ _ _ _ _ => false
  | .bind _ => false
  | .idleq _ => false
  | .birq _ _ => false
  | .errn _ _ _ => false

/-! ## Results -/

/-- The next state that is `s` with one more response. -/
def State.replies (s : State) (st : Status) (v : Word) : Result := .next { s with resp := s.resp ++ [⟨st, v⟩] }

/-- The next state that is `s` with bus `b` written, records put out and one more response. -/
def State.repliesWith (s : State) (b : Byte) (q : Bus) (rs : List Record) (st : Status) (v : Word) : Result :=
  .next { s.setBus b q with out := s.out ++ rs, resp := s.resp ++ [⟨st, v⟩] }

/-- The next state that is `s` with bus `b` written and records put out: the end of an event, which has no response. -/
def State.handles (s : State) (b : Byte) (q : Bus) (rs : List Record) : Result :=
  .next { s.setBus b q with out := s.out ++ rs }

/-- Bus `q` with an error of cause `cause` found in context `ctx`: the first is kept, a later one is only marked lost
(R206). -/
def Bus.withError (q : Bus) (cause : Status) (ctx : Ctx) : Bus :=
  { q with err := some (q.err.getD ⟨cause, ctx⟩), errLost := q.errLost || q.err.isSome }

/-! ## Handles -/

/-- Every handle of the command is in range, and every source handle names an object that exists (R91, R94). The
events, ADDRCHK and BUSINIT (whose range error is a configuration error) have no handle that this check refuses. -/
def handlesUsable (s : State) : Instr → Bool
  | .txnew t _ _ _ _ _ _ => s.txrInRange t
  | .txrd t d _ _ _ _ => s.txrInRange t && (s.dev? d).isSome
  | .txwr t d _ _ _ _ => s.txrInRange t && (s.dev? d).isSome
  | .txpre t _ _ => (s.txr? t).isSome
  | .txpost t _ _ => (s.txr? t).isSome
  | .txsend t => (s.txr? t).isSome
  | .txcbpre t => (s.txr? t).isSome
  | .txcbpost t => (s.txr? t).isSome
  | .txget t _ => (s.txr? t).isSome
  | .devnew d b _ _ => s.devInRange d && (b == 0 || (s.regBus? b).isSome)
  | .devatt d b => (s.dev? d).isSome && (s.regBus? b).isSome
  | .devdet d => (s.dev? d).isSome
  | .devsub d t => (s.dev? d).isSome && (s.txr? t).isSome
  | .devget d _ => (s.dev? d).isSome
  | .businit _ _ _ _ _ _ => true
  | .bussub b t => (s.regBus? b).isSome && (s.txr? t).isSome
  | .busnum b => (s.regBus? b).isSome
  | .busstat b => (s.regBus? b).isSome
  | .buserr b => (s.regBus? b).isSome
  | .buscfg b _ => (s.regBus? b).isSome
  | .addrchk _ _ => true
  | .qsize b => (s.regBus? b).isSome
  | .qempty b => (s.regBus? b).isSome
  | .qhasdata b => (s.regBus? b).isSome
  | .qfull b => (s.regBus? b).isSome
  | .qpeek b _ => (s.regBus? b).isSome
  | .irqEv _ => true
  | .irqEr _ => true
  | .cplt _ => true
  | .xerr _ => true

/-! ## Submissions -/

/-- The Transaction and the bus that a command submits, when it is a submission whose handles, device and bus are all
there: BUSSUB, DEVSUB and TXSEND (R169, R154, R139). -/
def submission (s : State) : Instr → Option (Byte × Txn)
  | .bussub b t =>
    match s.regBus? b, s.txr? t with
    | some _, some x => some (b, x)
    | _, _ => none
  | .devsub d t =>
    match s.dev? d, s.txr? t with
    | some v, some x => if (s.regBus? v.bus).isSome then some (v.bus, x) else none
    | _, _ => none
  | .txsend t =>
    match s.txr? t with
    | some x =>
      if x.devp then
        match s.dev? x.devid with
        | some v => if (s.regBus? v.bus).isSome then some (v.bus, x) else none
        | none => none
      else none
    | none => none
  | .txnew _ _ _ _ _ _ _ => none
  | .txrd _ _ _ _ _ _ => none
  | .txwr _ _ _ _ _ _ => none
  | .txpre _ _ _ => none
  | .txpost _ _ _ => none
  | .txcbpre _ => none
  | .txcbpost _ => none
  | .txget _ _ => none
  | .devnew _ _ _ _ => none
  | .devatt _ _ => none
  | .devdet _ => none
  | .devget _ _ => none
  | .businit _ _ _ _ _ _ => none
  | .busnum _ => none
  | .busstat _ => none
  | .buserr _ => none
  | .buscfg _ _ => none
  | .addrchk _ _ => none
  | .qsize _ => none
  | .qempty _ => none
  | .qhasdata _ => none
  | .qfull _ => none
  | .qpeek _ _ => none
  | .irqEv _ => none
  | .irqEr _ => none
  | .cplt _ => none
  | .xerr _ => none

/-- What the next step adds to the queue of bus `b`: the Transaction submitted, where the queue has room (R112). -/
def State.submitted (s : State) (b : Byte) : List Txn :=
  match selectInput s with
  | .run i s' =>
    match submission s' i, s.bus? b with
    | some (b', x), some q => if b' = b ∧ q.count ≠ s.params.qcap then [x] else []
    | _, _ => []
  | .reset => []
  | .illegal _ => []
  | .dropped _ => []
  | .idle => []

/-- What `n` steps add to the queue of bus `b`. -/
def State.submittedAlong (b : Byte) : Nat → State → List Txn
  | 0, _ => []
  | n + 1, s =>
    match step s with
    | .next s' => s.submitted b ++ State.submittedAlong b n s'
    | .fault _ => []
    | .refused _ => []

/-! ## Runs -/

/-- The next step services CPLT or XERR of bus `b` (R225, R226). -/
def State.endsTransfer (s : State) (b : Byte) : Prop :=
  ∃ s', selectInput s = .run (.cplt b) s' ∨ selectInput s = .run (.xerr b) s'

/-- In the next `n` steps no CPLT or XERR of bus `b` is serviced. -/
def State.undisturbed (b : Byte) : Nat → State → Prop
  | 0, _ => True
  | n + 1, s =>
    ¬ s.endsTransfer b ∧
    match step s with
    | .next s' => State.undisturbed b n s'
    | .fault _ => False
    | .refused _ => False

/-- The end of a run (R229): no reset is requested, no input waits and no event is pending. -/
def State.atEnd (s : State) : Prop :=
  s.resetReq = false ∧ s.pending? = none ∧ s.evPort = [] ∧ decodeCommand s.cmdPort = .incomplete

/-- The run has ended well (R229's example): every registered bus Idle, its queue empty and its error latch clear. -/
def State.endedWell (s : State) : Prop :=
  s.atEnd ∧ ∀ b c q, s.regBus? b = some (c, q) → q.busy = false ∧ q.count = 0 ∧ q.err = none

/-! ## Completions -/

/-- The backend accepts each of the next `n` queries put to it (R184's premise). -/
def State.accepts : Nat → State → Prop
  | 0, _ => True
  | n + 1, s => s.ask.1 = true ∧ State.accepts n s.ask.2

/-- Service `n` CPLT events of bus `b`, one after another. -/
def completeTimes (b : Byte) : Nat → State → Result
  | 0, s => .next s
  | n + 1, s => andThen (exec (.cplt b) s) (completeTimes b n)

/-- The records that complete one more transaction of bus `b` after its predecessor's completion: its pre-callback, its
`INITIATE`, and at its own completion its post-callback (R70, R172). -/
def Txn.lifeRecords (p : Params) (c : BusCfg) (b : Byte) (x : Txn) : List Record :=
  x.cbRecords .pre b .irq ++ [x.initiateRecord p c b] ++ x.cbRecords .post b .irq

end Sys2Proof.Machine
end

