-- ==== Sys2Proof/Certificates/Slice0/Obligations.lean ====
section
/-! DEFINITION. The statements about the scheduler, one for a rule or a group of rules of the spec. "Equal to the state"
in a result is the whole next state, so it says too what the instruction leaves unchanged. The ports `cmdPort`, `evPort`,
`evDuring`, `answers` and `resetReq` are the model's form of the inputs (log 3, 4, 5, 7), `resp` and `out` of the outputs
(log 6). -/

open Sys2Proof Sys2Proof.Machine

/-! ## Encoding -/

/-- The worked encodings of `30_encoding.md` section 9 (one of each format and each event), numbered as
`opcode_table.json` numbers the bits: the header is the least significant word. -/
def Obligations.WrittenOutWordsDecode : Prop :=
  decodeTableWord 128 0x00000002_20000100_00500010_10000002 =
    some (.txnew 0 .write 0x50 0x0010 1 0x20000100 2) ∧
  decodeTableWord 128 0x00000002_20000010_00000000_11010200 = some (.txrd 1 2 0 0 0x20000010 2) ∧
  decodeTableWord 96 0x00000001_08001001_14000000 = some (.txpost 0 0x08001001 1) ∧
  decodeTableWord 96 0x53454E53_00000050_20020100 = some (.devnew 2 1 0x50 0x53454E53) ∧
  decodeTableWord 128 0x00000000_000186A0_49324331_30010000 =
    some (.businit 1 0x49324331 100000 ⟨.bits7, false, .master, false, false, false⟩ 0 0) ∧
  decodeTableWord 64 0x00000400_36000001 = some (.addrchk .bits10 0x400) ∧
  decodeTableWord 32 0x31010000 = some (.bussub 1 0) ∧
  decodeTableWord 32 0x44010003 = some (.qpeek 1 3) ∧
  decodeTableWord 16 0x2001 = some (.cplt 1) ∧
  decodeTableWord 16 0x1001 = some (.irqEv 1) ∧
  decodeTableWord 16 0x1101 = some (.irqEr 1) ∧
  decodeTableWord 16 0x3001 = some (.xerr 1)

/-- Every well-formed command decodes from its own words to itself, whatever follows, and exactly its words are
taken (R98). -/
def Obligations.EncodedCommandDecodesToItself : Prop :=
  ∀ (i : Instr) (ws rest : List Word), i.wf = true → encode i = .command ws →
    decodeCommand (ws ++ rest) = .instr i rest

/-- Whatever decodes to a command is the encoding of that command followed by the words left: each word sequence has
one meaning and no bit of it is dropped. -/
def Obligations.DecodedCommandIsItsEncoding : Prop :=
  ∀ (ws : List Word) (i : Instr) (rest : List Word), decodeCommand ws = .instr i rest →
    i.wf = true ∧ ∃ us, encode i = .command us ∧ ws = us ++ rest

/-- Illegal commands (R93), with no reset, pending event or arriving event before them. An unknown `OP` makes a command
of one word; a whole command of a known `OP` is illegal when a header bit that its row of `opcode_table.json` fixes is
wrong or an operand is one of R93's, and otherwise it decodes. An illegal command is answered `(ERR_ILLEGAL, 0)`, changes
no state and emits no record. The model's choices: an illegal command of a known `OP` has the length of its `OP` and is
judged when it is whole (log 12, read from R93 and R98), its words are gone from the port (log 3), and the events that
arrive during it are latched as during any transition (log 4). -/
def Obligations.IllegalCommandsAreRefused : Prop :=
  ∀ (s : State) (h : Word) (tl : List Word), s.resetReq = false → s.pending? = none → s.evPort = [] →
    s.cmdPort = h :: tl →
    ((∀ o : Opcode, hdrOp h ≠ o.code) → step s = ({ s with cmdPort := tl } : State).arrive.replies .errIllegal 0) ∧
    (∀ o : Opcode, hdrOp h = o.code → o.operands ≤ tl.length →
      (h &&& o.tableMask ≠ o.tableMatch ∨ operandIllegal o h (tl.getD 0 0) (tl.getD 2 0) →
        step s = ({ s with cmdPort := tl.drop o.operands } : State).arrive.replies .errIllegal 0) ∧
      (h &&& o.tableMask = o.tableMatch → ¬ operandIllegal o h (tl.getD 0 0) (tl.getD 2 0) →
        ∃ i, decodeCommand s.cmdPort = .instr i (tl.drop o.operands)))

/-- An event is the word `{KIND, 0, CLASS, INST}` of one of the four events, and no other word decodes (R95, R96). -/
def Obligations.EventWordsRoundTrip : Prop :=
  (∀ b : Byte, encodeEvent .irqEv b = 0x1000 + b.setWidth 16 ∧ encodeEvent .irqEr b = 0x1100 + b.setWidth 16 ∧
    encodeEvent .cplt b = 0x2000 + b.setWidth 16 ∧ encodeEvent .xerr b = 0x3000 + b.setWidth 16) ∧
  (∀ (k : EventKind) (b : Byte), decodeEvent (encodeEvent k b) = .ok (k, b)) ∧
  (∀ (w : Half) (k : EventKind) (b : Byte), decodeEvent w = .ok (k, b) → w = encodeEvent k b) ∧
  (∀ w : Half, (∃ why, decodeEvent w = .error why) ↔
    ((w.extractLsb' 12 4).toNat < 1 ∨ 3 < (w.extractLsb' 12 4).toNat ∨ w.extractLsb' 9 3 ≠ 0 ∨
      (w.getLsbD 8 = true ∧ w.extractLsb' 12 4 ≠ 1)))

/-! ## The step -/

/-- With no reset, no pending event and no event arriving, the step runs the command that the words on the command port
decode to, in the state without those words and with the events latched that arrive during it (the ports are the model's
own, log 3 and log 4). Where they hold no whole command the scheduler waits (R80, log 3, log 12): the port is empty, or
the header's `OP` is known and fewer words follow it than its format has. -/
def Obligations.StepRunsDecodedCommand : Prop :=
  ∀ s : State, s.resetReq = false → s.pending? = none → s.evPort = [] →
    (∀ i rest, decodeCommand s.cmdPort = .instr i rest →
      step s = exec i ({ s with cmdPort := rest } : State).arrive) ∧
    (decodeCommand s.cmdPort = .incomplete → step s = .next s) ∧
    (s.cmdPort = [] → step s = .next s) ∧
    (∀ h tl (o : Opcode), s.cmdPort = h :: tl → hdrOp h = o.code → tl.length < o.operands → step s = .next s)

/-- An event that arrives while no transition is in progress is serviced at once (R221), and a word that is no event is
dropped (R96). The port `evPort`, the arrivals latched and the one step a dropped word takes are the model's choice (log 4,
log 19). -/
def Obligations.StepServicesArrivingEvent : Prop :=
  ∀ (s : State) (w : Half) (ws : List Half), s.resetReq = false → s.pending? = none → s.evPort = w :: ws →
    (∀ k b, decodeEvent w = .ok (k, b) → step s = exec (k.instr b) ({ s with evPort := ws } : State).arrive) ∧
    (∀ why, decodeEvent w = .error why → step s = .next ({ s with evPort := ws } : State).arrive)

/-- Priority: a pending event is serviced before the command that waits (R224 (1)), and its pending bit is cleared as its
service begins (R221); among pending events the one chosen is of the lowest instance, and of that instance the first in
the order IRQ.EV, IRQ.ER, CPLT, XERR (R224 (2), (3)); none is chosen only when none is pending. The model's choices: the
order is R224's and no other (log 8), a pending event goes before an event word on `evPort` too, and the events that
arrive during the service are latched as it begins (log 4). -/
def Obligations.PendingEventsAreServicedInOrder : Prop :=
  ∀ s : State, s.Inv →
    (∀ k b, s.pending? = some (k, b) →
      (∃ q, s.bus? b = some q ∧ q.pend k = true ∧
        (s.resetReq = false → step s = exec (k.instr b) (s.setBus b (q.setPend k false)).arrive) ∧
        (k = .irqEr → q.pendIrqEv = false) ∧
        (k = .cplt → q.pendIrqEv = false ∧ q.pendIrqEr = false) ∧
        (k = .xerr → q.pendIrqEv = false ∧ q.pendIrqEr = false ∧ q.pendCplt = false)) ∧
      (∀ b' q', b'.toNat < b.toNat → s.bus? b' = some q' → ∀ k', q'.pend k' = false)) ∧
    (s.pending? = none → ∀ b q, s.bus? b = some q → ∀ k, q.pend k = false)

/-- Events that arrive during a transition (R221, R223, R96; that they are the first list of `evDuring`, latched one after
another as the transition begins, is the model's choice, log 4). A word sets its pending bit and changes nothing else, so
that a second one is merged with it; it is dropped where it is no event or its instance has no Bus. -/
def Obligations.EventDuringTransitionPends : Prop :=
  ∀ (s : State) (w : Half),
    (∀ why, decodeEvent w = .error why → latchEvent s w = s) ∧
    (∀ k b, decodeEvent w = .ok (k, b) → s.regBus? b = none → latchEvent s w = s) ∧
    (∀ k b c q, decodeEvent w = .ok (k, b) → s.regBus? b = some (c, q) →
      (∃ q', (latchEvent s w).regBus? b = some (c, q') ∧ q'.pend k = true ∧
        (∀ k', k' ≠ k → q'.pend k' = q.pend k') ∧
        latchEvent s w = s.setBus b q' ∧ q'.slots = q.slots ∧ q'.head = q.head ∧ q'.tail = q.tail ∧
        q'.count = q.count ∧ q'.busy = q.busy ∧ q'.curValid = q.curValid ∧ q'.err = q.err ∧
        q'.errLost = q.errLost) ∧
      latchEvent (latchEvent s w) w = latchEvent s w) ∧
    (∀ ws rest, s.evDuring = ws :: rest → s.arrive = ws.foldl latchEvent { s with evDuring := rest }) ∧
    (s.evDuring = [] → s.arrive = s)

/-- An event that arrives during a transition is pending when that transition ends (R221), whatever the transition is: the
step that takes an input uses up the first list of `evDuring`, and each of its words that is an event of a registered bus
has its pending bit set in the next state. The list and the registry of the state before the step are the model's choice
(log 4). -/
def Obligations.ArrivalsArePendingAfterStep : Prop :=
  ∀ (s s' : State) (ws : List Half) (rest : List (List Half)), s.Inv → s.resetReq = false → s.evDuring = ws :: rest →
    (s.pending? ≠ none ∨ s.evPort ≠ [] ∨ decodeCommand s.cmdPort ≠ .incomplete) → step s = .next s' →
    s'.evDuring = rest ∧
    ∀ w k b c q, w ∈ ws → decodeEvent w = .ok (k, b) → s.regBus? b = some (c, q) →
      ∃ q', s'.regBus? b = some (c, q') ∧ q'.pend k = true

/-- The reset input puts every element of state at its value of R39 (R250). The model's choices: the words on `cmdPort` and
`evPort` are what R250 discards, the request is cleared, what has been put out and what the world will yet do stand (log
7), and the parameters do not change (log 1, log 7). -/
def Obligations.ResetInputClearsAllState : Prop :=
  ∀ s : State, s.resetReq = true →
    ∃ s', step s = .next s' ∧
      (∀ t, s'.txr? t = none) ∧ (∀ d, s'.dev? d = none) ∧
      (∀ b q, s'.bus? b = some q → q = Bus.atReset s.params.qcap) ∧
      s'.txr.length = s.params.nTxr ∧ s'.devs.length = s.params.nDev ∧ s'.buses.length = s.params.nBus ∧
      s'.cmdPort = [] ∧ s'.evPort = [] ∧ s'.resetReq = false ∧ s'.params = s.params ∧
      s'.evDuring = s.evDuring ∧ s'.answers = s.answers ∧ s'.draws = s.draws ∧ s'.resp = s.resp ∧ s'.out = s.out

/-- What reset leaves, for every choice of the parameters (R39): no staged Transaction, no Device, no registered Bus;
every bus Idle with an empty queue, nothing latched, nothing pending. -/
def Obligations.ResetValues : Prop :=
  ∀ (p : Params) (t d b : Byte),
    (State.resetWith p).txr? t = none ∧ (State.resetWith p).dev? d = none ∧ (State.resetWith p).regBus? b = none ∧
    ((State.resetWith p).bus? b ≠ none ↔ 1 ≤ b.toNat ∧ b.toNat ≤ p.nBus) ∧
    (∀ q, (State.resetWith p).bus? b = some q →
      q.busy = false ∧ q.curValid = false ∧ q.head = 0 ∧ q.tail = 0 ∧ q.count = 0 ∧ q.errValid = false ∧
      q.errLost = false ∧ ∀ k, q.pend k = false)

/-- The state after reset meets the invariants of R37, for every choice of the parameters that R7 allows. -/
def Obligations.ResetMeetsInvariants : Prop := ∀ p : Params, p.wf → (State.resetWith p).Inv

/-- Every step keeps the invariants of R37, from every state that has them. -/
def Obligations.StepKeepsInvariants : Prop := ∀ s s' : State, s.Inv → step s = .next s' → s'.Inv

/-- From a state that meets the invariants the scheduler never stops: every input ends in a next state (R72, R207). -/
def Obligations.StepNeverStops : Prop := ∀ s : State, s.Inv → ∃ s', step s = .next s'

/-- Without reset, a registered bus stays registered with the configuration BUSINIT gave it, a Device and a staged
Transaction are never destroyed (R28, R252), and the parameters do not change (the model's choice, log 1). -/
def Obligations.RegistrationIsPermanent : Prop :=
  ∀ s s' : State, s.Inv → s.resetReq = false → step s = .next s' →
    s'.params = s.params ∧
    (∀ b c q, s.regBus? b = some (c, q) → ∃ q', s'.regBus? b = some (c, q')) ∧
    (∀ d v, s.dev? d = some v → ∃ v', s'.dev? d = some v') ∧
    (∀ t x, s.txr? t = some x → ∃ x', s'.txr? t = some x')

/-! ## The transaction family -/

/-- TXNEW (R131, R130): `TXR[t]` is replaced whole, with no callbacks and no Device; a non-zero register address with
width "none" is a construction error and writes nothing. -/
def Obligations.TxnewWritesDescriptor : Prop :=
  ∀ (t : Byte) (dir : Dir) (addr regaddr : Half) (regw : BitVec 2) (buf : Word) (len : Half) (s : State), regw ≠ 3 →
    (s.params.nTxr ≤ t.toNat → exec (.txnew t dir addr regaddr regw buf len) s = s.replies .errOperand 0) ∧
    (t.toNat < s.params.nTxr → regw = 0 → regaddr ≠ 0 →
      exec (.txnew t dir addr regaddr regw buf len) s = s.replies .errConstruction 0) ∧
    (t.toNat < s.params.nTxr → (regw = 0 → regaddr = 0) →
      exec (.txnew t dir addr regaddr regw buf len) s =
        .next { s with
          txr := s.txr.set t.toNat (some ⟨dir, addr, regaddr, regw, buf, len, 0, 0, 0, 0, false, 0⟩),
          resp := s.resp ++ [⟨.ok, 0⟩] })

/-- TXRD and TXWR (R132, R133, R130): the address is the Device's, the direction that of the factory; the register
address is validated as TXNEW's. -/
def Obligations.TxrdTxwrWriteDescriptor : Prop :=
  ∀ (t d : Byte) (regaddr : Half) (regw : BitVec 2) (buf : Word) (len : Half) (s : State), regw ≠ 3 →
    (s.params.nTxr ≤ t.toNat ∨ s.dev? d = none →
      exec (.txrd t d regaddr regw buf len) s = s.replies .errOperand 0 ∧
      exec (.txwr t d regaddr regw buf len) s = s.replies .errOperand 0) ∧
    (∀ v, t.toNat < s.params.nTxr → s.dev? d = some v →
      (regw = 0 → regaddr ≠ 0 →
        exec (.txrd t d regaddr regw buf len) s = s.replies .errConstruction 0 ∧
        exec (.txwr t d regaddr regw buf len) s = s.replies .errConstruction 0) ∧
      ((regw = 0 → regaddr = 0) →
        exec (.txrd t d regaddr regw buf len) s =
          .next { s with
            txr := s.txr.set t.toNat (some ⟨.read, v.addr, regaddr, regw, buf, len, 0, 0, 0, 0, true, d⟩),
            resp := s.resp ++ [⟨.ok, 0⟩] } ∧
        exec (.txwr t d regaddr regw buf len) s =
          .next { s with
            txr := s.txr.set t.toNat (some ⟨.write, v.addr, regaddr, regw, buf, len, 0, 0, 0, 0, true, d⟩),
            resp := s.resp ++ [⟨.ok, 0⟩] }))

/-- TXPRE and TXPOST (R134, R135): only the two callback fields change. -/
def Obligations.CallbackSettersWriteHook : Prop :=
  ∀ (t : Byte) (fn arg : Word) (s : State),
    (s.txr? t = none →
      exec (.txpre t fn arg) s = s.replies .errOperand 0 ∧ exec (.txpost t fn arg) s = s.replies .errOperand 0) ∧
    (∀ x, s.txr? t = some x →
      exec (.txpre t fn arg) s =
        .next { s with
          txr := s.txr.set t.toNat (some { x with preFn := fn, preArg := arg }), resp := s.resp ++ [⟨.ok, 0⟩] } ∧
      exec (.txpost t fn arg) s =
        .next { s with
          txr := s.txr.set t.toNat (some { x with postFn := fn, postArg := arg }), resp := s.resp ++ [⟨.ok, 0⟩] })

/-- TXCBPRE and TXCBPOST (R137, R138, R136): one `CB` record of bus 0 in foreground context when the hook is present,
nothing when it is not, and no state changes. -/
def Obligations.HookCommandsEmitCallback : Prop :=
  ∀ (t : Byte) (s : State),
    (s.txr? t = none →
      exec (.txcbpre t) s = s.replies .errOperand 0 ∧ exec (.txcbpost t) s = s.replies .errOperand 0) ∧
    (∀ x, s.txr? t = some x →
      exec (.txcbpre t) s =
        .next { s with
          out := s.out ++ (if x.preFn ≠ 0 then [.cb .pre 0 .fg x.preFn x.preArg] else []),
          resp := s.resp ++ [⟨.ok, 0⟩] } ∧
      exec (.txcbpost t) s =
        .next { s with
          out := s.out ++ (if x.postFn ≠ 0 then [.cb .post 0 .fg x.postFn x.postArg] else []),
          resp := s.resp ++ [⟨.ok, 0⟩] })

/-- TXGET (R140, R41): the eight words of the descriptor view, field by field. -/
def Obligations.TxgetReadsDescriptorView : Prop :=
  ∀ (t : Byte) (sel : BitVec 3) (s : State),
    (s.txr? t = none → exec (.txget t sel) s = s.replies .errOperand 0) ∧
    (∀ x, s.txr? t = some x → ∃ w, exec (.txget t sel) s = s.replies .ok w ∧
      (sel = 0 → w.extractLsb' 16 16 = x.addr ∧ w.extractLsb' 0 16 = x.regaddr) ∧
      (sel = 1 → w = x.buf) ∧
      (sel = 2 → w.extractLsb' 16 16 = 0 ∧ w.extractLsb' 0 16 = x.len) ∧
      (sel = 3 → w.extractLsb' 16 16 = 0 ∧ w.extractLsb' 8 8 = x.devid ∧ w.extractLsb' 4 4 = 0 ∧
        w.getLsbD 3 = x.devp ∧ w.extractLsb' 1 2 = x.regw ∧ (w.getLsbD 0 = true ↔ x.dir = .read)) ∧
      (sel = 4 → w = x.preFn) ∧ (sel = 5 → w = x.preArg) ∧ (sel = 6 → w = x.postFn) ∧ (sel = 7 → w = x.postArg))

/-! ## The device family -/

/-- DEVNEW (R151): the slot is replaced whole; `b` is 0 or a registered bus, and a bus that is neither is refused. -/
def Obligations.DevnewWritesDevice : Prop :=
  ∀ (d b : Byte) (addr : Half) (name : Word) (s : State),
    (s.params.nDev ≤ d.toNat ∨ (b ≠ 0 ∧ s.regBus? b = none) →
      exec (.devnew d b addr name) s = s.replies .errOperand 0) ∧
    (d.toNat < s.params.nDev → (b = 0 ∨ ∃ cq, s.regBus? b = some cq) →
      exec (.devnew d b addr name) s =
        .next { s with devs := s.devs.set d.toNat (some ⟨addr, b, name⟩), resp := s.resp ++ [⟨.ok, 0⟩] })

/-- DEVATT (R152): operands first; an unattached Device is attached; an attached one is refused, whichever registered
bus is offered. -/
def Obligations.DevattAttachesOnce : Prop :=
  ∀ (d b : Byte) (s : State),
    (s.dev? d = none ∨ s.regBus? b = none → exec (.devatt d b) s = s.replies .errOperand 0) ∧
    (∀ v cq, s.dev? d = some v → s.regBus? b = some cq →
      (v.bus ≠ 0 → exec (.devatt d b) s = s.replies .errUseAttached 0) ∧
      (v.bus = 0 →
        exec (.devatt d b) s =
          .next { s with devs := s.devs.set d.toNat (some { v with bus := b }), resp := s.resp ++ [⟨.ok, 0⟩] }))

/-- DEVDET (R153): the reference is cleared unconditionally; on a Device already detached nothing changes. -/
def Obligations.DevdetClearsReference : Prop :=
  ∀ (d : Byte) (s : State),
    (s.dev? d = none → exec (.devdet d) s = s.replies .errOperand 0) ∧
    (∀ v, s.dev? d = some v →
      exec (.devdet d) s =
        .next { s with devs := s.devs.set d.toNat (some { v with bus := 0 }), resp := s.resp ++ [⟨.ok, 0⟩] } ∧
      (v.bus = 0 → exec (.devdet d) s = s.replies .ok 0))

/-- DEVGET (R155, R42): the two words of the device view. -/
def Obligations.DevgetReadsDeviceView : Prop :=
  ∀ (d : Byte) (s : State),
    (s.dev? d = none → ∀ sel, exec (.devget d sel) s = s.replies .errOperand 0) ∧
    (∀ v, s.dev? d = some v →
      (∃ w, exec (.devget d 0) s = s.replies .ok w ∧
        w.extractLsb' 24 8 = 0 ∧ w.extractLsb' 16 8 = v.bus ∧ w.extractLsb' 0 16 = v.addr) ∧
      exec (.devget d 1) s = s.replies .ok v.name)

/-- DEVSUB and TXSEND (R154, R139): a Transaction built without a Device, and a Device with no Bus, are usage errors
with nothing changed or emitted; otherwise the Transaction is forwarded, with the effects and the response of `BUSSUB`. -/
def Obligations.DeviceForwardsToItsBus : Prop :=
  ∀ (t d : Byte) (s : State),
    (s.dev? d = none ∨ s.txr? t = none → exec (.devsub d t) s = s.replies .errOperand 0) ∧
    (∀ v x, s.dev? d = some v → s.txr? t = some x →
      (v.bus = 0 → exec (.devsub d t) s = s.replies .errUseNobus 0) ∧
      (v.bus ≠ 0 → exec (.devsub d t) s = exec (.bussub v.bus t) s)) ∧
    (s.txr? t = none → exec (.txsend t) s = s.replies .errOperand 0) ∧
    (∀ x, s.txr? t = some x →
      (x.devp = false → exec (.txsend t) s = s.replies .errUseNodevice 0) ∧
      (x.devp = true → exec (.txsend t) s = exec (.devsub x.devid t) s))

/-! ## The bus family -/

/-- BUSINIT (R161, R162, R29): the configuration errors in their order (instance, duplicate, then the own addresses of a
slave); otherwise the instance becomes an Idle bus with an empty queue and an empty error latch, configured as given with
a master's slave-only fields forced to zero and `FAST` computed, and `BIND(b)` is emitted. -/
def Obligations.BusinitRegistersBus : Prop :=
  ∀ (b : Byte) (name clk : Word) (g : BusFlags) (own1 own2 : Half) (s : State), s.Inv →
    (b = 0 ∨ s.params.nBus < b.toNat → exec (.businit b name clk g own1 own2) s = s.replies .errCfgInstance 0) ∧
    (∀ cq, s.regBus? b = some cq → exec (.businit b name clk g own1 own2) s = s.replies .errCfgDuplicate 0) ∧
    (1 ≤ b.toNat → b.toNat ≤ s.params.nBus → s.regBus? b = none →
      (g.role = .master →
        exec (.businit b name clk g own1 own2) s =
          s.repliesWith b { Bus.atReset s.params.qcap with
            cfg := some ⟨name, clk, ⟨g.addrMode, g.duty, .master, false, false, false⟩, 0, 0,
              decide (s.params.fastThresholdHz < clk.toNat)⟩ } [.bind b] .ok 0) ∧
      (g.role = .slave →
        (addrValid s.params own1.toNat g.addrMode = false ∨
          (g.dual = true ∧ addrValid s.params own2.toNat g.addrMode = false) →
          exec (.businit b name clk g own1 own2) s = s.replies .errCfgAddress 0) ∧
        (addrValid s.params own1.toNat g.addrMode = true →
          (g.dual = true → addrValid s.params own2.toNat g.addrMode = true) →
          exec (.businit b name clk g own1 own2) s =
            s.repliesWith b { Bus.atReset s.params.qcap with
              cfg := some ⟨name, clk, g, own1, own2, decide (s.params.fastThresholdHz < clk.toNat)⟩ } [.bind b] .ok 0)))

/-- ADDRCHK (R163, R164): 1 exactly for a 7-bit address from `A7_LO` to `A7_HI` or a 10-bit address up to `A10_MAX`. -/
def Obligations.AddrchkAnswersValidity : Prop :=
  ∀ (a : Word) (s : State),
    exec (.addrchk .bits7 a) s = s.replies .ok (if s.params.a7Lo ≤ a.toNat ∧ a.toNat ≤ s.params.a7Hi then 1 else 0) ∧
    exec (.addrchk .bits10 a) s = s.replies .ok (if a.toNat ≤ s.params.a10Max then 1 else 0)

/-- BUSNUM (R165) answers the identifier, and BUSSTAT (R166, R30, R26) the status word, bit by bit. -/
def Obligations.BusnumBusstatAnswer : Prop :=
  ∀ (b : Byte) (s : State),
    (s.regBus? b = none →
      exec (.busnum b) s = s.replies .errOperand 0 ∧ exec (.busstat b) s = s.replies .errOperand 0) ∧
    (∀ c q, s.Inv → s.regBus? b = some (c, q) →
      (∃ w, exec (.busnum b) s = s.replies .ok w ∧ w.toNat = b.toNat) ∧
      ∃ w, exec (.busstat b) s = s.replies .ok w ∧
        w.getLsbD 0 = q.busy ∧ w.getLsbD 1 = q.curValid ∧ w.getLsbD 2 = q.errValid ∧ w.getLsbD 3 = q.errLost ∧
        (w.getLsbD 4 = true ↔ q.busy = false ∧ 0 < q.count) ∧ w.extractLsb' 5 11 = 0 ∧
        (w.extractLsb' 16 16).toNat = q.count)

/-- BUSERR (R167, R31): the error word, bit by bit, and the latch drained; `NULL` where nothing is latched. -/
def Obligations.BuserrDrainsLatch : Prop :=
  ∀ (b : Byte) (s : State),
    (s.regBus? b = none → exec (.buserr b) s = s.replies .errOperand 0) ∧
    (∀ c q, s.regBus? b = some (c, q) →
      (q.err = none → exec (.buserr b) s = s.replies .null 0) ∧
      (∀ e, q.err = some e →
        ∃ w, exec (.buserr b) s = s.repliesWith b { q with err := none, errLost := false } [] .ok w ∧
          w.extractLsb' 0 8 = e.cause.code ∧ (w.getLsbD 8 = true ↔ e.ctx = .irq) ∧ w.getLsbD 9 = q.errLost ∧
          w.extractLsb' 10 22 = 0))

/-- BUSCFG (R173, R32): the four configuration words. -/
def Obligations.BuscfgReadsConfiguration : Prop :=
  ∀ (b : Byte) (s : State),
    (s.regBus? b = none → ∀ sel, exec (.buscfg b sel) s = s.replies .errOperand 0) ∧
    (∀ c q, s.regBus? b = some (c, q) →
      (∃ w, exec (.buscfg b 0) s = s.replies .ok w ∧
        (w.getLsbD 0 = true ↔ c.flags.addrMode = .bits10) ∧ w.getLsbD 1 = c.flags.duty ∧
        (w.getLsbD 2 = true ↔ c.flags.role = .slave) ∧ w.getLsbD 3 = c.flags.dual ∧
        w.getLsbD 4 = c.flags.nostretch ∧ w.getLsbD 5 = c.flags.gencall ∧ w.getLsbD 6 = c.fast ∧
        w.extractLsb' 7 25 = 0) ∧
      exec (.buscfg b 1) s = s.replies .ok c.clk ∧
      (∃ w, exec (.buscfg b 2) s = s.replies .ok w ∧ w.extractLsb' 16 16 = c.own2 ∧ w.extractLsb' 0 16 = c.own1) ∧
      exec (.buscfg b 3) s = s.replies .ok c.name)

/-! ## The queue family -/

/-- QSIZE, QEMPTY, QHASDATA, QFULL (R115 to R118): answered from `COUNT` alone, and nothing changes. -/
def Obligations.QueueQueriesAnswerCount : Prop :=
  ∀ (b : Byte) (s : State),
    (s.regBus? b = none →
      exec (.qsize b) s = s.replies .errOperand 0 ∧ exec (.qempty b) s = s.replies .errOperand 0 ∧
      exec (.qhasdata b) s = s.replies .errOperand 0 ∧ exec (.qfull b) s = s.replies .errOperand 0) ∧
    (∀ c q, s.regBus? b = some (c, q) →
      exec (.qsize b) s = s.replies .ok (BitVec.ofNat 32 q.count) ∧
      exec (.qempty b) s = s.replies .ok (if q.count = 0 then 1 else 0) ∧
      exec (.qhasdata b) s = s.replies .ok (if q.count = 0 then 0 else 1) ∧
      exec (.qfull b) s = s.replies .ok (if q.count = s.params.qcap then 1 else 0))

/-- QPEEK (R119): `NULL` on an empty queue, else the selected word of the oldest descriptor, the word TXGET would give
of it. -/
def Obligations.QpeekReadsHead : Prop :=
  ∀ (b : Byte) (sel : BitVec 3) (s : State),
    (s.regBus? b = none → exec (.qpeek b sel) s = s.replies .errOperand 0) ∧
    (∀ c q, s.Inv → s.regBus? b = some (c, q) →
      (q.queue s.params.qcap = [] → exec (.qpeek b sel) s = s.replies .null 0) ∧
      (∀ x xs, q.queue s.params.qcap = x :: xs → exec (.qpeek b sel) s = s.replies .ok (x.view sel)))

/-- Under the ring's invariant the ring of R33 is a queue of at most `QCAP` elements: enqueue appends at the tail and
is refused exactly when full, peek reads the head, dequeue removes it and is refused exactly when empty (R110, R112 to
R114), and both updates keep the ring's indices in order. -/
def Obligations.RingIsBoundedFifo : Prop :=
  ∀ (p : Params) (q : Bus), q.Wf p →
    (q.queue p.qcap).length = q.count ∧
    (∀ x, (qEnqueue p.qcap q x = none ↔ (q.queue p.qcap).length = p.qcap) ∧
      ∀ q', qEnqueue p.qcap q x = some q' →
        q'.queue p.qcap = q.queue p.qcap ++ [x] ∧ q'.tail = (q'.head + q'.count) % p.qcap ∧ q'.head = q.head) ∧
    qPeek q = .next (q.queue p.qcap).head? ∧
    (q.queue p.qcap = [] → qDequeue p.qcap q = .next none) ∧
    (∀ y ys, q.queue p.qcap = y :: ys →
      ∃ q', qDequeue p.qcap q = .next (some (y, q')) ∧ q'.queue p.qcap = ys ∧
        q'.tail = (q'.head + q'.count) % p.qcap ∧ q'.tail = q.tail)

/-! ## Submission: BUSSUB, DEVSUB and TXSEND (R168, R169, R154, R139) -/

/-- A submission that finds the queue not empty, or a transfer in flight: refused with nothing changed when the queue is
full, else it only joins the queue. No record is emitted (R183, R112, R168). -/
def Obligations.SubmissionJoinsQueue : Prop :=
  ∀ (i : Instr) (s : State) (b : Byte) (x : Txn) (c : BusCfg) (q : Bus),
    submission s i = some (b, x) → s.regBus? b = some (c, q) → (q.count ≠ 0 ∨ q.busy = true) →
    (q.count = s.params.qcap → exec i s = s.replies .errQFull 0) ∧
    (q.count ≠ s.params.qcap →
      exec i s = s.repliesWith b { q with
        slots := q.slots.set q.tail (some x), tail := (q.tail + 1) % s.params.qcap, count := q.count + 1 } [] .ok 0)

/-- A submission to an empty, idle bus whose backend answers idle and accepts: `IDLEQ`, the pre-callback if there is
one, `INITIATE`; the bus is Busy and the response value 1 (R168, R170). -/
def Obligations.SubmissionDispatches : Prop :=
  ∀ (i : Instr) (s : State) (b : Byte) (x : Txn) (c : BusCfg) (q : Bus), s.Inv →
    submission s i = some (b, x) → s.regBus? b = some (c, q) → q.count = 0 →
    s.ask.1 = true → s.ask.2.ask.1 = true →
    exec i s =
      s.ask.2.ask.2.repliesWith b
        { q with
          slots := q.slots.set q.tail (some x), tail := (q.tail + 1) % s.params.qcap, count := 1,
          busy := true, curValid := true }
        ([.idleq b] ++ (if x.preFn ≠ 0 then [.cb .pre b .fg x.preFn x.preArg] else []) ++
          [.initiate b x.dir (wireAddr s.params c x.addr) x.regaddr x.regw x.buf x.len]) .ok 1

/-- The same with the initiate refused: the transaction stays queued and current, the bus stays Idle, the error is
latched and returned (R170, R206, R207, R208). -/
def Obligations.SubmissionInitiateFails : Prop :=
  ∀ (i : Instr) (s : State) (b : Byte) (x : Txn) (c : BusCfg) (q : Bus), s.Inv →
    submission s i = some (b, x) → s.regBus? b = some (c, q) → q.count = 0 →
    s.ask.1 = true → s.ask.2.ask.1 = false →
    exec i s =
      s.ask.2.ask.2.repliesWith b
        (Bus.withError { q with
          slots := q.slots.set q.tail (some x), tail := (q.tail + 1) % s.params.qcap, count := 1,
          busy := false, curValid := true } .errHwInitiate .fg)
        ([.idleq b] ++ (if x.preFn ≠ 0 then [.cb .pre b .fg x.preFn x.preArg] else []) ++
          [.initiate b x.dir (wireAddr s.params c x.addr) x.regaddr x.regw x.buf x.len] ++
          [.errn b .errHwInitiate .fg]) .errHwInitiate 0

/-- A first dispatch refused because the peripheral is not idle: the transaction stays queued, no error is latched, the
response is `(OK, 0)` and the bus is stalled (R168, R265). -/
def Obligations.SubmissionFindsPeripheralBusy : Prop :=
  ∀ (i : Instr) (s : State) (b : Byte) (x : Txn) (c : BusCfg) (q : Bus), s.Inv →
    submission s i = some (b, x) → s.regBus? b = some (c, q) → q.count = 0 → s.ask.1 = false →
    exec i s =
      s.ask.2.repliesWith b { q with
        slots := q.slots.set q.tail (some x), tail := (q.tail + 1) % s.params.qcap, count := 1 } [.idleq b] .ok 0 ∧
    ∀ s', exec i s = .next s' → s'.stalledAt b

/-- The wire address (R171): the stored address shifted left in 16 bits by the amount of the bus's addressing width. -/
def Obligations.WireAddressIsShifted : Prop :=
  ∀ (p : Params) (c : BusCfg) (a : Half),
    (c.flags.addrMode = .bits7 → (wireAddr p c a).toNat = a.toNat * 2 ^ p.addrShift7 % 2 ^ 16) ∧
    (c.flags.addrMode = .bits10 → (wireAddr p c a).toNat = a.toNat * 2 ^ p.addrShift10 % 2 ^ 16)

/-! ## Events -/

/-- IRQ.EV and IRQ.ER (R222): a `BIRQ` record and no state change at all; dropped where no Bus is registered. -/
def Obligations.LowLevelInterruptsAreRouted : Prop :=
  ∀ (b : Byte) (s : State),
    (s.regBus? b = none → exec (.irqEv b) s = .next s ∧ exec (.irqEr b) s = .next s) ∧
    (∀ cq, s.regBus? b = some cq →
      exec (.irqEv b) s = .next { s with out := s.out ++ [.birq b .event] } ∧
      exec (.irqEr b) s = .next { s with out := s.out ++ [.birq b .error] })

/-- An event for an instance with no Bus is dropped: no state change, no record (R223). -/
def Obligations.EventsWithoutBusAreDropped : Prop :=
  ∀ (b : Byte) (s : State) (k : EventKind), s.regBus? b = none → exec (k.instr b) s = .next s

/-- CPLT of the only queued transaction (R225): dequeue, post-callback, Idle with an empty queue. -/
def Obligations.CompletionOfLastGoesIdle : Prop :=
  ∀ (b : Byte) (s : State) (c : BusCfg) (q : Bus) (x : Txn), s.Inv → s.regBus? b = some (c, q) → q.busy = true →
    q.queue s.params.qcap = [x] →
    exec (.cplt b) s =
      s.handles b
        { q with
          slots := q.slots.set q.head none, head := (q.head + 1) % s.params.qcap, count := 0,
          busy := false, curValid := false }
        (if x.postFn ≠ 0 then [.cb .post b .irq x.postFn x.postArg] else [])

/-- CPLT with a successor queued whose initiate is accepted (R225, R170, R70): post-callback of the finished
transaction, pre-callback and `INITIATE` of the next, which is in flight afterwards. -/
def Obligations.CompletionDispatchesNext : Prop :=
  ∀ (b : Byte) (s : State) (c : BusCfg) (q : Bus) (x y : Txn) (ys : List Txn), s.Inv →
    s.regBus? b = some (c, q) → q.busy = true → q.queue s.params.qcap = x :: y :: ys → s.ask.1 = true →
    exec (.cplt b) s =
      s.ask.2.handles b
        { q with
          slots := q.slots.set q.head none, head := (q.head + 1) % s.params.qcap, count := q.count - 1,
          busy := true, curValid := true }
        ((if x.postFn ≠ 0 then [.cb .post b .irq x.postFn x.postArg] else []) ++
          (if y.preFn ≠ 0 then [.cb .pre b .irq y.preFn y.preArg] else []) ++
          [.initiate b y.dir (wireAddr s.params c y.addr) y.regaddr y.regw y.buf y.len])

/-- The same with the initiate refused (R225, R170, R206): the error is latched in interrupt context and the bus is
stalled with the successor current. -/
def Obligations.CompletionInitiateFails : Prop :=
  ∀ (b : Byte) (s : State) (c : BusCfg) (q : Bus) (x y : Txn) (ys : List Txn), s.Inv →
    s.regBus? b = some (c, q) → q.busy = true → q.queue s.params.qcap = x :: y :: ys → s.ask.1 = false →
    exec (.cplt b) s =
      s.ask.2.handles b
        (Bus.withError { q with
          slots := q.slots.set q.head none, head := (q.head + 1) % s.params.qcap, count := q.count - 1,
          busy := false, curValid := true } .errHwInitiate .irq)
        ((if x.postFn ≠ 0 then [.cb .post b .irq x.postFn x.postArg] else []) ++
          (if y.preFn ≠ 0 then [.cb .pre b .irq y.preFn y.preArg] else []) ++
          [.initiate b y.dir (wireAddr s.params c y.addr) y.regaddr y.regw y.buf y.len] ++
          [.errn b .errHwInitiate .irq]) ∧
    ∀ s', exec (.cplt b) s = .next s' → s'.stalledAt b

/-- XERR (R226): dropped with no Bus, spurious with nothing in flight; else the transfer is over and its error is
latched, and nothing is dequeued, called back or dispatched. -/
def Obligations.TransferErrorIsLatched : Prop :=
  ∀ (b : Byte) (s : State),
    (s.regBus? b = none → exec (.xerr b) s = .next s) ∧
    (∀ c q, s.regBus? b = some (c, q) →
      (q.busy = false →
        exec (.xerr b) s = s.handles b (q.withError .errHwSpurious .irq) [.errn b .errHwSpurious .irq]) ∧
      (q.busy = true →
        exec (.xerr b) s =
          s.handles b (Bus.withError { q with busy := false } .errHwTransfer .irq) [.errn b .errHwTransfer .irq]))

/-- A CPLT or XERR with nothing in flight (R227): `ERR_HW_SPURIOUS` is latched, and nothing is dequeued, called back or
dispatched. -/
def Obligations.SpuriousNotificationsAreLatched : Prop :=
  ∀ (b : Byte) (s : State) (c : BusCfg) (q : Bus), s.regBus? b = some (c, q) → q.busy = false →
    exec (.cplt b) s = s.handles b (q.withError .errHwSpurious .irq) [.errn b .errHwSpurious .irq] ∧
    exec (.xerr b) s = s.handles b (q.withError .errHwSpurious .irq) [.errn b .errHwSpurious .irq]

/-- LATCH (R206): an `ERRN` record, always; the first error is kept, with its cause and context, and a later one only
sets `ERR_LOST`. No step but BUSERR of that bus and reset takes a latched error away or changes it. -/
def Obligations.LatchKeepsFirstError : Prop :=
  (∀ (b : Byte) (q : Bus) (cause : Status) (ctx : Ctx) (s : State),
    (q.err = none →
      latch b q cause ctx s =
        { s.setBus b { q with err := some ⟨cause, ctx⟩ } with out := s.out ++ [.errn b cause ctx] }) ∧
    (q.err ≠ none →
      latch b q cause ctx s = { s.setBus b { q with errLost := true } with out := s.out ++ [.errn b cause ctx] })) ∧
  ∀ (s s' : State) (b : Byte) (c : BusCfg) (q : Bus), s.Inv → s.regBus? b = some (c, q) → q.err ≠ none →
    step s = .next s' →
    selectInput s = .reset ∨ (∃ s1, selectInput s = .run (.buserr b) s1) ∨
    ∃ q', s'.regBus? b = some (c, q') ∧ q'.err = q.err ∧ (q.errLost = true → q'.errLost = true)

/-! ## Rules of the whole machine -/

/-- Illegal before operand (R94): an instruction with `REGW = 3` is answered `ERR_ILLEGAL`, and one whose handles are not
all usable is answered `ERR_OPERAND`; neither changes state or emits a record. The decoder never yields `REGW = 3`: that
`exec` answers it so is the model's choice (log 11, read from R93). -/
def Obligations.UnusableHandlesRefused : Prop :=
  ∀ (i : Instr) (s : State),
    (i.wf = false → exec i s = s.replies .errIllegal 0) ∧
    (i.wf = true → handlesUsable s i = false → exec i s = s.replies .errOperand 0)

/-- A command answers exactly one response, with value zero when the status is an error or `NULL`; an event answers
none (R80, R88). -/
def Obligations.OneResponsePerCommand : Prop :=
  ∀ (i : Instr) (s s' : State), s.Inv → exec i s = .next s' →
    (i.isCommand = true → ∃ st v, s'.resp = s.resp ++ [⟨st, v⟩] ∧ (st.isError = true ∨ st = .null → v = 0)) ∧
    (i.isCommand = false → s'.resp = s.resp)

/-- State after an error (R208): a command that answers an error status has changed no state and emitted no record, but
for `ERR_HW_INITIATE`, after which the submitted Transaction is in the queue and current, the error is latched, and
`IDLEQ`, the pre-callback, `INITIATE` and `ERRN` have been emitted. -/
def Obligations.ErrorLeavesStateUnchanged : Prop :=
  ∀ (i : Instr) (s s' : State) (st : Status) (v : Word), s.Inv → exec i s = .next s' →
    s'.resp = s.resp ++ [⟨st, v⟩] → st.isError = true →
    (st ≠ .errHwInitiate → s' = { s with resp := s.resp ++ [⟨st, v⟩] }) ∧
    (st = .errHwInitiate →
      ∃ b x c q q', submission s i = some (b, x) ∧ s.regBus? b = some (c, q) ∧ s'.regBus? b = some (c, q') ∧
        q'.queue s.params.qcap = q.queue s.params.qcap ++ [x] ∧ q'.curValid = true ∧ q'.busy = false ∧
        q'.errValid = true ∧
        s'.out = s.out ++ [.idleq b] ++ (if x.preFn ≠ 0 then [.cb .pre b .fg x.preFn x.preArg] else []) ++
          [.initiate b x.dir (wireAddr s.params c x.addr) x.regaddr x.regw x.buf x.len] ++
          [.errn b .errHwInitiate .fg])

/-- R38's table: an instruction writes only the state the table lists for it, and never a pending bit. -/
def Obligations.InstructionsWriteOnlyListedState : Prop :=
  ∀ (i : Instr) (s s' : State), s.Inv → exec i s = .next s' →
    (.txr ∉ writesOf i → s'.txr = s.txr) ∧ (.dev ∉ writesOf i → s'.devs = s.devs) ∧
    ∀ b q q', s.bus? b = some q → s'.bus? b = some q' →
      (.registry ∉ writesOf i → q'.cfg = q.cfg) ∧
      (.queue ∉ writesOf i → q'.slots = q.slots ∧ q'.head = q.head ∧ q'.tail = q.tail ∧ q'.count = q.count) ∧
      (.flags ∉ writesOf i → q'.busy = q.busy ∧ q'.curValid = q.curValid) ∧
      (.err ∉ writesOf i → q'.err = q.err ∧ q'.errLost = q.errLost) ∧
      ∀ k, q'.pend k = q.pend k

/-- Buses are independent (R69, R232): an instruction changes only the bus it names, or the one it submits to. -/
def Obligations.OtherBusesAreUntouched : Prop :=
  ∀ (i : Instr) (s s' : State) (b : Byte), s.Inv → exec i s = .next s' → s'.bus? b ≠ s.bus? b →
    (∃ name clk g own1 own2, i = .businit b name clk g own1 own2) ∨ i = .buserr b ∨ i = .cplt b ∨ i = .xerr b ∨
    ∃ x, submission s i = some (b, x)

/-- At most one in flight (R180): while bus `b` is Busy and no CPLT or XERR of `b` is serviced, no `INITIATE` of `b` is
emitted, however many steps are made. -/
def Obligations.AtMostOneTransferInFlight : Prop :=
  ∀ (n : Nat) (s s' : State) (b : Byte), s.Inv → s.resetReq = false → s.busyAt b → s.undisturbed b n →
    core.run n s = .next s' →
    s'.busyAt b ∧ ∃ new, s'.out = s.out ++ new ∧ ∀ r ∈ new, r.isInitiateOf b = false

/-- FIFO (R181): along every run the `INITIATE` records of bus `b` carry, in order and without gaps, first the
transactions that were queued and not yet dispatched, then those submitted during the run; what has not been dispatched
is still in the queue, in order. -/
def Obligations.InitiatesFollowSubmissionOrder : Prop :=
  ∀ (n : Nat) (s s' : State) (b : Byte) (c : BusCfg) (q : Bus), s.Inv → s.resetReq = false →
    s.regBus? b = some (c, q) → core.run n s = .next s' →
    ∃ new inits, s'.out = s.out ++ new ∧
      new.filter (Record.isInitiateOf b) =
        inits.map (fun x => .initiate b x.dir (wireAddr s.params c x.addr) x.regaddr x.regw x.buf x.len) ∧
      s.undispatched b ++ s.submittedAlong b n = inits ++ s'.undispatched b

/-- Completion before post-callback (R182): a `CB(POST)` of a bus is emitted only by the step that services a CPLT of
that bus while it is Busy, and it is that of the transaction at the head. -/
def Obligations.PostCallbackOnlyAfterCompletion : Prop :=
  ∀ (s s' : State) (b : Byte) (new : List Record) (r : Record), s.Inv → b ≠ 0 → step s = .next s' →
    s'.out = s.out ++ new → r ∈ new → r.isPostOf b = true →
    ∃ s1 c q x xs, selectInput s = .run (.cplt b) s1 ∧ s1.regBus? b = some (c, q) ∧ q.busy = true ∧
      q.queue s.params.qcap = x :: xs ∧ r = .cb .post b .irq x.postFn x.postArg

/-- The stalled state is permanent (R266): without reset, however many steps are made, a stalled bus stays stalled, no
transaction of it is initiated or completed, and its queue only grows by what is submitted to it. -/
def Obligations.StalledBusStaysStalled : Prop :=
  ∀ (n : Nat) (s s' : State) (b : Byte), s.Inv → s.resetReq = false → s.stalledAt b → core.run n s = .next s' →
    s'.stalledAt b ∧ s'.queueOf b = s.queueOf b ++ s.submittedAlong b n ∧
    ∃ new, s'.out = s.out ++ new ∧ ∀ r ∈ new, r.isInitiateOf b = false ∧ r.isPostOf b = false

/-- No lost transaction (R184): if the backend accepts every initiate and signals one completion for each, every queued
transaction of a Busy bus is initiated once and its post-callback is emitted once, in queue order, and after the last
completion the bus is Idle with an empty queue. -/
def Obligations.EveryQueuedTransactionCompletes : Prop :=
  ∀ (s : State) (b : Byte) (c : BusCfg) (q : Bus) (x : Txn) (xs : List Txn), s.Inv →
    s.regBus? b = some (c, q) → q.busy = true → q.queue s.params.qcap = x :: xs → s.accepts xs.length →
    ∃ s' q', completeTimes b (xs.length + 1) s = .next s' ∧ s'.regBus? b = some (c, q') ∧
      q'.busy = false ∧ q'.curValid = false ∧ q'.count = 0 ∧ q'.queue s.params.qcap = [] ∧
      s'.out = s.out ++ x.cbRecords .post b .irq ++ xs.flatMap (Txn.lifeRecords s.params c b)
end

