-- ==== Sys2Proof/Laws/State.lean ====
section
/-! SUPPORT. What each update of State leaves of each field, and how the lookups read after the writes. -/

namespace Sys2Proof.Machine

variable (s : State) (t d b : Byte) (x : Txn) (v : Dev) (q : Bus) (st : Status) (w : Word) (rs : List Record)

/-! ## Fields of the updates -/

@[simp] theorem State.respond_params : (s.respond st w).params = s.params := rfl
@[simp] theorem State.respond_txr : (s.respond st w).txr = s.txr := rfl
@[simp] theorem State.respond_devs : (s.respond st w).devs = s.devs := rfl
@[simp] theorem State.respond_buses : (s.respond st w).buses = s.buses := rfl
@[simp] theorem State.respond_cmdPort : (s.respond st w).cmdPort = s.cmdPort := rfl
@[simp] theorem State.respond_evPort : (s.respond st w).evPort = s.evPort := rfl
@[simp] theorem State.respond_evDuring : (s.respond st w).evDuring = s.evDuring := rfl
@[simp] theorem State.respond_answers : (s.respond st w).answers = s.answers := rfl
@[simp] theorem State.respond_draws : (s.respond st w).draws = s.draws := rfl
@[simp] theorem State.respond_resetReq : (s.respond st w).resetReq = s.resetReq := rfl
@[simp] theorem State.respond_resp : (s.respond st w).resp = s.resp ++ [⟨st, w⟩] := rfl
@[simp] theorem State.respond_out : (s.respond st w).out = s.out := rfl

@[simp] theorem State.emit_params : (s.emit rs).params = s.params := rfl
@[simp] theorem State.emit_txr : (s.emit rs).txr = s.txr := rfl
@[simp] theorem State.emit_devs : (s.emit rs).devs = s.devs := rfl
@[simp] theorem State.emit_buses : (s.emit rs).buses = s.buses := rfl
@[simp] theorem State.emit_cmdPort : (s.emit rs).cmdPort = s.cmdPort := rfl
@[simp] theorem State.emit_evPort : (s.emit rs).evPort = s.evPort := rfl
@[simp] theorem State.emit_evDuring : (s.emit rs).evDuring = s.evDuring := rfl
@[simp] theorem State.emit_answers : (s.emit rs).answers = s.answers := rfl
@[simp] theorem State.emit_draws : (s.emit rs).draws = s.draws := rfl
@[simp] theorem State.emit_resetReq : (s.emit rs).resetReq = s.resetReq := rfl
@[simp] theorem State.emit_resp : (s.emit rs).resp = s.resp := rfl
@[simp] theorem State.emit_out : (s.emit rs).out = s.out ++ rs := rfl

@[simp] theorem State.setTxr_params : (s.setTxr t x).params = s.params := rfl
@[simp] theorem State.setTxr_txr : (s.setTxr t x).txr = s.txr.set t.toNat (some x) := rfl
@[simp] theorem State.setTxr_devs : (s.setTxr t x).devs = s.devs := rfl
@[simp] theorem State.setTxr_buses : (s.setTxr t x).buses = s.buses := rfl
@[simp] theorem State.setTxr_cmdPort : (s.setTxr t x).cmdPort = s.cmdPort := rfl
@[simp] theorem State.setTxr_evPort : (s.setTxr t x).evPort = s.evPort := rfl
@[simp] theorem State.setTxr_evDuring : (s.setTxr t x).evDuring = s.evDuring := rfl
@[simp] theorem State.setTxr_answers : (s.setTxr t x).answers = s.answers := rfl
@[simp] theorem State.setTxr_draws : (s.setTxr t x).draws = s.draws := rfl
@[simp] theorem State.setTxr_resetReq : (s.setTxr t x).resetReq = s.resetReq := rfl
@[simp] theorem State.setTxr_resp : (s.setTxr t x).resp = s.resp := rfl
@[simp] theorem State.setTxr_out : (s.setTxr t x).out = s.out := rfl

@[simp] theorem State.setDev_params : (s.setDev d v).params = s.params := rfl
@[simp] theorem State.setDev_txr : (s.setDev d v).txr = s.txr := rfl
@[simp] theorem State.setDev_devs : (s.setDev d v).devs = s.devs.set d.toNat (some v) := rfl
@[simp] theorem State.setDev_buses : (s.setDev d v).buses = s.buses := rfl
@[simp] theorem State.setDev_cmdPort : (s.setDev d v).cmdPort = s.cmdPort := rfl
@[simp] theorem State.setDev_evPort : (s.setDev d v).evPort = s.evPort := rfl
@[simp] theorem State.setDev_evDuring : (s.setDev d v).evDuring = s.evDuring := rfl
@[simp] theorem State.setDev_answers : (s.setDev d v).answers = s.answers := rfl
@[simp] theorem State.setDev_draws : (s.setDev d v).draws = s.draws := rfl
@[simp] theorem State.setDev_resetReq : (s.setDev d v).resetReq = s.resetReq := rfl
@[simp] theorem State.setDev_resp : (s.setDev d v).resp = s.resp := rfl
@[simp] theorem State.setDev_out : (s.setDev d v).out = s.out := rfl

@[simp] theorem State.setBus_params : (s.setBus b q).params = s.params := rfl
@[simp] theorem State.setBus_txr : (s.setBus b q).txr = s.txr := rfl
@[simp] theorem State.setBus_devs : (s.setBus b q).devs = s.devs := rfl
@[simp] theorem State.setBus_cmdPort : (s.setBus b q).cmdPort = s.cmdPort := rfl
@[simp] theorem State.setBus_evPort : (s.setBus b q).evPort = s.evPort := rfl
@[simp] theorem State.setBus_evDuring : (s.setBus b q).evDuring = s.evDuring := rfl
@[simp] theorem State.setBus_answers : (s.setBus b q).answers = s.answers := rfl
@[simp] theorem State.setBus_draws : (s.setBus b q).draws = s.draws := rfl
@[simp] theorem State.setBus_resetReq : (s.setBus b q).resetReq = s.resetReq := rfl
@[simp] theorem State.setBus_resp : (s.setBus b q).resp = s.resp := rfl
@[simp] theorem State.setBus_out : (s.setBus b q).out = s.out := rfl

@[simp] theorem State.afterAnswer_params : s.afterAnswer.params = s.params := rfl
@[simp] theorem State.afterAnswer_txr : s.afterAnswer.txr = s.txr := rfl
@[simp] theorem State.afterAnswer_devs : s.afterAnswer.devs = s.devs := rfl
@[simp] theorem State.afterAnswer_buses : s.afterAnswer.buses = s.buses := rfl
@[simp] theorem State.afterAnswer_cmdPort : s.afterAnswer.cmdPort = s.cmdPort := rfl
@[simp] theorem State.afterAnswer_evPort : s.afterAnswer.evPort = s.evPort := rfl
@[simp] theorem State.afterAnswer_evDuring : s.afterAnswer.evDuring = s.evDuring := rfl
@[simp] theorem State.afterAnswer_resetReq : s.afterAnswer.resetReq = s.resetReq := rfl
@[simp] theorem State.afterAnswer_resp : s.afterAnswer.resp = s.resp := rfl
@[simp] theorem State.afterAnswer_out : s.afterAnswer.out = s.out := rfl

@[simp] theorem State.ask_fst : s.ask.1 = s.nextAnswer := rfl
@[simp] theorem State.ask_snd : s.ask.2 = s.afterAnswer := rfl

/-! ## The updates commute with reading and spending answers, which see other fields -/

@[simp] theorem State.nextAnswer_emit : (s.emit rs).nextAnswer = s.nextAnswer := rfl
@[simp] theorem State.nextAnswer_setBus : (s.setBus b q).nextAnswer = s.nextAnswer := rfl
@[simp] theorem State.nextAnswer_setTxr : (s.setTxr t x).nextAnswer = s.nextAnswer := rfl
@[simp] theorem State.nextAnswer_setDev : (s.setDev d v).nextAnswer = s.nextAnswer := rfl
@[simp] theorem State.nextAnswer_respond : (s.respond st w).nextAnswer = s.nextAnswer := rfl
@[simp] theorem State.afterAnswer_emit : (s.emit rs).afterAnswer = s.afterAnswer.emit rs := rfl
@[simp] theorem State.afterAnswer_setBus : (s.setBus b q).afterAnswer = s.afterAnswer.setBus b q := rfl
@[simp] theorem State.emit_setBus : (s.emit rs).setBus b q = (s.setBus b q).emit rs := rfl
@[simp] theorem State.emit_emit (rs' : List Record) : (s.emit rs).emit rs' = s.emit (rs ++ rs') := by
  simp [State.emit]

/-! ## Ranges and lookups see the tables only -/

theorem State.busInRange_congr {s s' : State} (h : s.params = s'.params) (b : Byte) :
    s.busInRange b = s'.busInRange b := by
  simp [State.busInRange, h]

theorem State.txr?_congr {s s' : State} (h : s.params = s'.params) (ht : s.txr = s'.txr) (t : Byte) :
    s.txr? t = s'.txr? t := by
  simp [State.txr?, State.txrInRange, h, ht]

theorem State.dev?_congr {s s' : State} (h : s.params = s'.params) (hd : s.devs = s'.devs) (d : Byte) :
    s.dev? d = s'.dev? d := by
  simp [State.dev?, State.devInRange, h, hd]

theorem State.bus?_congr {s s' : State} (h : s.params = s'.params) (hb : s.buses = s'.buses) (b : Byte) :
    s.bus? b = s'.bus? b := by
  simp [State.bus?, State.busInRange, h, hb]

theorem State.regBus?_congr {s s' : State} (h : s.params = s'.params) (hb : s.buses = s'.buses) (b : Byte) :
    s.regBus? b = s'.regBus? b := by
  simp [State.regBus?, State.bus?_congr h hb]

@[simp] theorem State.busInRange_setBus (b' : Byte) : (s.setBus b q).busInRange b' = s.busInRange b' := rfl
@[simp] theorem State.busInRange_emit : (s.emit rs).busInRange b = s.busInRange b := rfl
@[simp] theorem State.busInRange_respond : (s.respond st w).busInRange b = s.busInRange b := rfl
@[simp] theorem State.busInRange_afterAnswer : s.afterAnswer.busInRange b = s.busInRange b := rfl

@[simp] theorem State.bus?_emit : (s.emit rs).bus? b = s.bus? b := rfl
@[simp] theorem State.bus?_respond : (s.respond st w).bus? b = s.bus? b := rfl
@[simp] theorem State.bus?_afterAnswer : s.afterAnswer.bus? b = s.bus? b := rfl
@[simp] theorem State.bus?_setTxr : (s.setTxr t x).bus? b = s.bus? b := rfl
@[simp] theorem State.bus?_setDev : (s.setDev d v).bus? b = s.bus? b := rfl
@[simp] theorem State.regBus?_emit : (s.emit rs).regBus? b = s.regBus? b := rfl
@[simp] theorem State.regBus?_respond : (s.respond st w).regBus? b = s.regBus? b := rfl
@[simp] theorem State.regBus?_afterAnswer : s.afterAnswer.regBus? b = s.regBus? b := rfl
@[simp] theorem State.regBus?_setTxr : (s.setTxr t x).regBus? b = s.regBus? b := rfl
@[simp] theorem State.regBus?_setDev : (s.setDev d v).regBus? b = s.regBus? b := rfl
@[simp] theorem State.txr?_emit : (s.emit rs).txr? t = s.txr? t := rfl
@[simp] theorem State.txr?_respond : (s.respond st w).txr? t = s.txr? t := rfl
@[simp] theorem State.txr?_afterAnswer : s.afterAnswer.txr? t = s.txr? t := rfl
@[simp] theorem State.txr?_setBus : (s.setBus b q).txr? t = s.txr? t := rfl
@[simp] theorem State.txr?_setDev : (s.setDev d v).txr? t = s.txr? t := rfl
@[simp] theorem State.dev?_emit : (s.emit rs).dev? d = s.dev? d := rfl
@[simp] theorem State.dev?_respond : (s.respond st w).dev? d = s.dev? d := rfl
@[simp] theorem State.dev?_afterAnswer : s.afterAnswer.dev? d = s.dev? d := rfl
@[simp] theorem State.dev?_setBus : (s.setBus b q).dev? d = s.dev? d := rfl
@[simp] theorem State.dev?_setTxr : (s.setTxr t x).dev? d = s.dev? d := rfl

/-! ## Read after write -/

/-- A lookup that finds an instance says where it stands. -/
theorem State.bus?_eq_some {s : State} {b : Byte} {q : Bus} :
    s.bus? b = some q ↔ (1 ≤ b.toNat ∧ b.toNat ≤ s.params.nBus) ∧ s.buses[b.toNat - 1]? = some q := by
  simp [State.bus?, State.busInRange]

theorem State.regBus?_eq_some {s : State} {b : Byte} {c : BusCfg} {q : Bus} :
    s.regBus? b = some (c, q) ↔ s.bus? b = some q ∧ q.cfg = some c := by
  unfold State.regBus?
  constructor
  · intro h
    split at h
    · cases h
    · split at h
      · cases h
      · cases h
        exact ⟨by assumption, by assumption⟩
  · rintro ⟨h, hc⟩
    simp [h, hc]

theorem State.bus?_setBus_self {s : State} {b : Byte} {q' : Bus} (h : s.bus? b = some q') (q : Bus) :
    (s.setBus b q).bus? b = some q := by
  have hq := State.bus?_eq_some.mp h
  have hlt : b.toNat - 1 < s.buses.length := by
    have := hq.2
    rw [List.getElem?_eq_some_iff] at this
    exact this.1
  refine State.bus?_eq_some.mpr ⟨hq.1, ?_⟩
  have hr : s.busInRange b = true := by simp [State.busInRange, hq.1]
  simp [State.setBus, hr, List.getElem?_set_self hlt]

theorem State.bus?_setBus_ne {s : State} {b b' : Byte} (h : b' ≠ b) (q : Bus) :
    (s.setBus b q).bus? b' = s.bus? b' := by
  unfold State.bus? State.setBus
  by_cases hr' : s.busInRange b' = true
  · by_cases hr : s.busInRange b = true
    · have h1 : (1 ≤ b.toNat ∧ b.toNat ≤ s.params.nBus) := by simpa [State.busInRange] using hr
      have h2 : (1 ≤ b'.toNat ∧ b'.toNat ≤ s.params.nBus) := by simpa [State.busInRange] using hr'
      have hne : b.toNat - 1 ≠ b'.toNat - 1 := by
        intro he
        exact h (BitVec.eq_of_toNat_eq (by omega))
      have hr2 : ({ s with buses := s.buses.set (b.toNat - 1) q } : State).busInRange b' = true := hr'
      simp [hr, hr', hr2, List.getElem?_set_ne hne]
    · simp [hr, hr']
  · have hr2 : ({ s with buses := if s.busInRange b then s.buses.set (b.toNat - 1) q else s.buses } : State).busInRange b'
        = false := by simpa [State.busInRange] using hr'
    simp [hr', hr2]

theorem State.regBus?_setBus_ne {s : State} {b b' : Byte} (h : b' ≠ b) (q : Bus) :
    (s.setBus b q).regBus? b' = s.regBus? b' := by
  simp [State.regBus?, State.bus?_setBus_ne h]

theorem State.regBus?_setBus_self {s : State} {b : Byte} {q' q : Bus} {c : BusCfg} (h : s.bus? b = some q')
    (hc : q.cfg = some c) : (s.setBus b q).regBus? b = some (c, q) :=
  State.regBus?_eq_some.mpr ⟨State.bus?_setBus_self h q, hc⟩

/-- The second of two writes to one instance stands. -/
@[simp] theorem State.setBus_setBus (q' : Bus) : (s.setBus b q).setBus b q' = s.setBus b q' := by
  unfold State.setBus
  have h : ∀ l, ({ s with buses := l } : State).busInRange b = s.busInRange b := fun _ => rfl
  simp only [h]
  by_cases hr : s.busInRange b = true <;> simp [hr]

theorem State.txr?_setTxr_self {s : State} {t : Byte} (hr : t.toNat < s.params.nTxr) (hl : s.txr.length = s.params.nTxr)
    (x : Txn) : (s.setTxr t x).txr? t = some x := by
  have h : t.toNat < s.txr.length := by omega
  simp [State.txr?, State.txrInRange, State.setTxr, hr, List.getD_eq_getElem?_getD, List.getElem?_set_self h]

theorem State.txr?_setTxr_ne {s : State} {t t' : Byte} (h : t' ≠ t) (x : Txn) :
    (s.setTxr t x).txr? t' = s.txr? t' := by
  have hne : t.toNat ≠ t'.toNat := fun he => h (BitVec.eq_of_toNat_eq he.symm)
  have hr : (s.setTxr t x).txrInRange t' = s.txrInRange t' := rfl
  simp only [State.txr?, hr, State.setTxr_txr, List.getD_eq_getElem?_getD, List.getElem?_set_ne hne]

theorem State.dev?_setDev_self {s : State} {d : Byte} (hr : d.toNat < s.params.nDev) (hl : s.devs.length = s.params.nDev)
    (v : Dev) : (s.setDev d v).dev? d = some v := by
  have h : d.toNat < s.devs.length := by omega
  simp [State.dev?, State.devInRange, State.setDev, hr, List.getD_eq_getElem?_getD, List.getElem?_set_self h]

theorem State.dev?_setDev_ne {s : State} {d d' : Byte} (h : d' ≠ d) (v : Dev) :
    (s.setDev d v).dev? d' = s.dev? d' := by
  have hne : d.toNat ≠ d'.toNat := fun he => h (BitVec.eq_of_toNat_eq he.symm)
  have hr : (s.setDev d v).devInRange d' = s.devInRange d' := rfl
  simp only [State.dev?, hr, State.setDev_devs, List.getD_eq_getElem?_getD, List.getElem?_set_ne hne]

theorem State.txrInRange_of_txr? {s : State} {t : Byte} {x : Txn} (h : s.txr? t = some x) : t.toNat < s.params.nTxr := by
  by_contra hn
  simp [State.txr?, State.txrInRange, hn] at h

theorem State.devInRange_of_dev? {s : State} {d : Byte} {v : Dev} (h : s.dev? d = some v) : d.toNat < s.params.nDev := by
  by_contra hn
  simp [State.dev?, State.devInRange, hn] at h

/-! ## The state after reset -/

variable (p : Params)

@[simp] theorem State.txr?_resetWith (t : Byte) : (State.resetWith p).txr? t = none := by
  simp [State.txr?, State.resetWith]

@[simp] theorem State.dev?_resetWith (d : Byte) : (State.resetWith p).dev? d = none := by
  simp [State.dev?, State.resetWith]

/-- An instance after reset meets R37. -/
theorem Bus.atReset_wf {p : Params} (h : 0 < p.qcap) : (Bus.atReset p.qcap).Wf p where
  slots := by simp [Bus.atReset]
  head := h
  count := Nat.zero_le _
  tail := by simp [Bus.atReset]
  occupied := fun k hk => absurd hk (Nat.not_lt_zero k)
  vacant := fun k _ _ => by
    simp only [Bus.slotAt, Bus.atReset, List.getD_eq_getElem?_getD, List.getElem?_replicate]
    split <;> rfl
  busy := by simp [Bus.atReset]
  cur := by simp [Bus.atReset]
  lost := by simp [Bus.atReset]
  unregistered := fun _ => rfl
  config := by simp [Bus.atReset]

end Sys2Proof.Machine
end

