-- ==== Sys2Proof/Laws/Ops.lean ====
section
/-! SUPPORT. What each shared operation can do, once: the ring of a well-formed bus, and `DISPATCH`,
`BUS_SET_TRANSACTION` and `LATCH` on it. -/

namespace Sys2Proof.Machine

variable {p : Params} {q : Bus} {x : Txn} {s : State} {b : Byte} {c : BusCfg} {ctx : Ctx}

/-! ## The ring -/

/-- Two positions at most a round apart are the same slot only when they are the same position. -/
theorem ring_inj {n h i k : Nat} (hi : i < n) (hk : k < n) (e : (h + i) % n = (h + k) % n) : i = k := by
  have h1 : (h + i) ≡ (h + k) [MOD n] := e
  have h2 : i ≡ k [MOD n] := Nat.ModEq.add_left_cancel' h h1
  rw [Nat.ModEq, Nat.mod_eq_of_lt hi, Nat.mod_eq_of_lt hk] at h2
  exact h2

theorem Bus.slotAt_zero (hh : q.head < p.qcap) : q.slotAt p.qcap 0 = q.slots.getD q.head none := by
  simp [Bus.slotAt, Nat.mod_eq_of_lt hh]

/-- `Q_PEEK` of an empty queue is the null result. -/
theorem qPeek_empty (h : q.count = 0) : qPeek q = .next none := by simp [qPeek, h]

/-- `Q_PEEK` of a queue that is not empty reads the head slot. -/
theorem qPeek_head (h : q.count ≠ 0) (hx : q.slots.getD q.head none = some x) : qPeek q = .next (some x) := by
  simp only [qPeek, h, if_false, hx]

theorem qDequeue_empty (n : Nat) (h : q.count = 0) : qDequeue n q = .next none := by simp [qDequeue, h]

theorem qDequeue_head (n : Nat) (h : q.count ≠ 0) (hx : q.slots.getD q.head none = some x) :
    qDequeue n q = .next (some (x, { q with
      slots := q.slots.set q.head none, head := nextIndex n q.head, count := q.count - 1 })) := by
  simp only [qDequeue, h, if_false, hx]

/-- The head slot of a well-formed bus whose queue is not empty holds a well-formed descriptor. -/
theorem Bus.Wf.head_slot (hw : q.Wf p) (h : q.count ≠ 0) : ∃ x, q.slots.getD q.head none = some x ∧ x.Wf p := by
  obtain ⟨x, hx, hxw⟩ := hw.occupied 0 (by omega)
  exact ⟨x, by rw [← Bus.slotAt_zero hw.head]; exact hx, hxw⟩

theorem Bus.Wf.qcap_pos (hw : q.Wf p) : 0 < p.qcap := by have := hw.head; omega

theorem Bus.Wf.tail_lt (hw : q.Wf p) : q.tail < p.qcap := by
  rw [hw.tail]; exact Nat.mod_lt _ hw.qcap_pos

/-- An idle bus with an empty queue has no current transaction and nothing in flight. -/
theorem Bus.Wf.idle_of_empty (hw : q.Wf p) (h : q.count = 0) : q.busy = false ∧ q.curValid = false := by
  have hc : q.curValid = false := by
    by_contra hn
    have := hw.cur (by simpa using hn)
    omega
  refine ⟨?_, hc⟩
  by_contra hn
  have := hw.busy (by simpa using hn)
  simp [hc] at this

/-- An update of a registered bus that leaves its ring and configuration alone keeps it well formed when the flags and
the latch stay consistent (I3, I4, I7). -/
theorem Bus.Wf.of_ring (hw : q.Wf p) {q' : Bus} (hs : q'.slots = q.slots) (hh : q'.head = q.head)
    (ht : q'.tail = q.tail) (hn : q'.count = q.count) (hc : q'.cfg = q.cfg) (hreg : q.cfg ≠ none)
    (hb : q'.busy = true → q'.curValid = true) (hv : q'.curValid = true → 0 < q'.count)
    (hl : q'.errLost = true → q'.err.isSome = true) : q'.Wf p := by
  have hat : ∀ k, q'.slotAt p.qcap k = q.slotAt p.qcap k := fun k => by simp [Bus.slotAt, hs, hh]
  exact
    { slots := by rw [hs]; exact hw.slots
      head := by rw [hh]; exact hw.head
      count := by rw [hn]; exact hw.count
      tail := by rw [ht, hh, hn]; exact hw.tail
      occupied := fun k hk => by rw [hat]; exact hw.occupied k (by omega)
      vacant := fun k hk hk' => by rw [hat]; exact hw.vacant k (by omega) hk'
      busy := hb
      cur := hv
      lost := hl
      unregistered := fun h => absurd (hc ▸ h) hreg
      config := fun c h => hw.config c (hc ▸ h) }

theorem Bus.Wf.setPend (hw : q.Wf p) (hreg : q.cfg ≠ none) (k : EventKind) (v : Bool) : (q.setPend k v).Wf p := by
  cases k <;> exact hw.of_ring rfl rfl rfl rfl rfl hreg hw.busy hw.cur hw.lost

theorem Bus.Wf.latch (hw : q.Wf p) (hreg : q.cfg ≠ none) (cause : Status) (ctx : Ctx) : (q.latch cause ctx).Wf p := by
  unfold Bus.latch
  split
  · exact hw.of_ring rfl rfl rfl rfl rfl hreg hw.busy hw.cur (fun _ => rfl)
  · rename_i e he
    exact hw.of_ring rfl rfl rfl rfl rfl hreg hw.busy hw.cur (fun _ => by simp [he])

/-- Where the slots of the queue stand after `Q_ENQUEUE`. -/
theorem Bus.Wf.slotAt_enqueue (hw : q.Wf p) (hn : q.count ≠ p.qcap) (x : Txn) {k : Nat} (hk : k < p.qcap) :
    ({ q with slots := q.slots.set q.tail (some x), tail := nextIndex p.qcap q.tail, count := q.count + 1 } : Bus).slotAt
      p.qcap k = if k = q.count then some x else q.slotAt p.qcap k := by
  have hlt : q.tail < q.slots.length := by rw [hw.slots]; exact hw.tail_lt
  have hcnt := hw.count
  simp only [Bus.slotAt, List.getD_eq_getElem?_getD]
  by_cases h : k = q.count
  · subst h
    rw [← hw.tail]
    simp [List.getElem?_set_self hlt]
  · rw [if_neg h, List.getElem?_set_ne]
    rw [hw.tail]
    exact fun e => h (ring_inj hk (by omega) e.symm)

/-- Where the slots of the queue stand after `Q_DEQUEUE`: each moves one place towards the head, and the vacated slot
is the last. -/
theorem Bus.Wf.slotAt_dequeue (hw : q.Wf p) {k : Nat} (hk : k < p.qcap) :
    ({ q with slots := q.slots.set q.head none, head := nextIndex p.qcap q.head, count := q.count - 1 } : Bus).slotAt
      p.qcap k = if k + 1 = p.qcap then none else q.slotAt p.qcap (k + 1) := by
  have hlt : q.head < q.slots.length := by rw [hw.slots]; exact hw.head
  have hidx : (nextIndex p.qcap q.head + k) % p.qcap = (q.head + (k + 1)) % p.qcap := by
    rw [nextIndex, Nat.mod_add_mod]; congr 1; omega
  simp only [Bus.slotAt, List.getD_eq_getElem?_getD, hidx]
  by_cases h : k + 1 = p.qcap
  · have : (q.head + (k + 1)) % p.qcap = q.head := by rw [h, Nat.add_mod_right, Nat.mod_eq_of_lt hw.head]
    rw [this, List.getElem?_set_self hlt]
    simp [h]
  · rw [if_neg h, List.getElem?_set_ne]
    intro e
    have e' : (q.head + 0) % p.qcap = (q.head + (k + 1)) % p.qcap := by rw [← e, Nat.add_zero, Nat.mod_eq_of_lt hw.head]
    have := ring_inj hw.qcap_pos (by omega) e'
    omega

theorem Bus.Wf.enqueue (hw : q.Wf p) (hreg : q.cfg ≠ none) (hn : q.count ≠ p.qcap) (hx : x.Wf p) :
    ({ q with slots := q.slots.set q.tail (some x), tail := nextIndex p.qcap q.tail, count := q.count + 1 } : Bus).Wf
      p := by
  have hcnt := hw.count
  refine
    { slots := by simpa using hw.slots
      head := hw.head
      count := by simp only; omega
      tail := ?_
      occupied := fun k hk => ?_
      vacant := fun k hk hk' => ?_
      busy := hw.busy
      cur := fun _ => Nat.succ_pos _
      lost := hw.lost
      unregistered := fun h => absurd h hreg
      config := hw.config }
  · simp only [nextIndex, hw.tail, Nat.mod_add_mod, Nat.add_assoc]
  · rw [hw.slotAt_enqueue hn x (by simp only at hk; omega)]
    split_ifs with h
    · exact ⟨x, rfl, hx⟩
    · exact hw.occupied k (by simp only at hk; omega)
  · simp only at hk
    rw [hw.slotAt_enqueue hn x hk', if_neg (by omega)]
    exact hw.vacant k (by omega) hk'

/-- `Q_DEQUEUE` and the handler's clearing of the flags keep a registered bus well formed. -/
theorem Bus.Wf.dequeue (hw : q.Wf p) (hreg : q.cfg ≠ none) (hn : q.count ≠ 0) :
    ({ q with
        slots := q.slots.set q.head none, head := nextIndex p.qcap q.head, count := q.count - 1, busy := false,
        curValid := false } : Bus).Wf p := by
  have hcnt := hw.count
  have hat : ∀ {k}, k < p.qcap →
      ({ q with
          slots := q.slots.set q.head none, head := nextIndex p.qcap q.head, count := q.count - 1,
          busy := false, curValid := false } : Bus).slotAt p.qcap k =
        if k + 1 = p.qcap then none else q.slotAt p.qcap (k + 1) := fun hk => hw.slotAt_dequeue hk
  refine
    { slots := by simpa using hw.slots
      head := Nat.mod_lt _ hw.qcap_pos
      count := by simp only; omega
      tail := ?_
      occupied := fun k hk => ?_
      vacant := fun k hk hk' => ?_
      busy := by simp
      cur := by simp
      lost := hw.lost
      unregistered := fun h => absurd h hreg
      config := hw.config }
  · simp only [nextIndex, hw.tail, Nat.mod_add_mod]
    congr 1; omega
  · simp only at hk
    rw [hat (by omega), if_neg (by omega)]
    exact hw.occupied (k + 1) (by omega)
  · simp only at hk
    rw [hat hk']
    split_ifs with h
    · rfl
    · exact hw.vacant (k + 1) (by omega) (by omega)

/-! ## The queue as a list -/

theorem Bus.Wf.queue_eq_nil (hw : q.Wf p) : q.queue p.qcap = [] ↔ q.count = 0 := by
  constructor
  · intro h
    by_contra hn
    obtain ⟨x, hx, -⟩ := hw.occupied 0 (by omega)
    have : x ∈ q.queue p.qcap := by
      rw [Bus.queue, List.mem_filterMap]
      exact ⟨0, List.mem_range.mpr (by omega), hx⟩
    simp [h] at this
  · intro h; simp [Bus.queue, h]

/-- The queue of a bus with entries: the head slot, then the rest. -/
theorem Bus.Wf.queue_eq_cons (hw : q.Wf p) (hn : q.count ≠ 0) (hx : q.slots.getD q.head none = some x) :
    q.queue p.qcap = x :: (List.range (q.count - 1)).filterMap fun k => q.slotAt p.qcap (k + 1) := by
  obtain ⟨m, hm⟩ : ∃ m, q.count = m + 1 := ⟨q.count - 1, by omega⟩
  rw [Bus.queue, hm, List.range_succ_eq_map, List.filterMap_cons, Bus.slotAt_zero hw.head, hx, List.filterMap_map]
  rfl

/-! ## The invariant under writes -/

/-- The invariant sees the parameters and the tables only. -/
theorem State.Inv.congr {s s' : State} (hI : s.Inv) (hp : s'.params = s.params) (ht : s'.txr = s.txr)
    (hd : s'.devs = s.devs) (hb : s'.buses = s.buses) : s'.Inv := by
  have htx : ∀ t, s'.txr? t = s.txr? t := State.txr?_congr hp ht
  have hdv : ∀ d, s'.dev? d = s.dev? d := State.dev?_congr hp hd
  have hrb : ∀ b, s'.regBus? b = s.regBus? b := State.regBus?_congr hp hb
  exact
    { params := hp ▸ hI.params
      txrLength := by rw [ht, hp]; exact hI.txrLength
      devsLength := by rw [hd, hp]; exact hI.devsLength
      busesLength := by rw [hb, hp]; exact hI.busesLength
      buses := by rw [hb, hp]; exact hI.buses
      devs := fun d v h hv => by rw [hrb]; exact hI.devs d v (hdv d ▸ h) hv
      txrs := fun t x h => by rw [hp]; exact hI.txrs t x (htx t ▸ h)
      txrDevs := fun t x h hx => by rw [hdv]; exact hI.txrDevs t x (htx t ▸ h) hx }

theorem State.mem_of_bus? (h : s.bus? b = some q) : q ∈ s.buses := List.mem_of_getElem? (State.bus?_eq_some.mp h).2

theorem State.Inv.bus (hI : s.Inv) (h : s.bus? b = some q) : q.Wf s.params := hI.buses q (State.mem_of_bus? h)

theorem State.Inv.setBus (hI : s.Inv) (h : s.bus? b = some q) {q' : Bus} (hw : q'.Wf s.params)
    (hreg : q.cfg ≠ none → q'.cfg ≠ none) : (s.setBus b q').Inv := by
  refine
    { params := hI.params, txrLength := hI.txrLength, devsLength := hI.devsLength
      busesLength := ?_, buses := ?_, devs := ?_, txrs := hI.txrs, txrDevs := hI.txrDevs }
  · have := hI.busesLength
    by_cases hr : s.busInRange b <;> simp [State.setBus, hr, this]
  · intro r hr
    have : r ∈ s.buses ∨ r = q' := by
      by_cases hin : s.busInRange b
      · simp only [State.setBus, hin, if_true] at hr
        exact (List.mem_or_eq_of_mem_set hr)
      · simp [State.setBus, hin] at hr
        exact .inl hr
    rcases this with hr | rfl
    · exact hI.buses r hr
    · exact hw
  · intro d v hd hv
    obtain ⟨⟨c, r⟩, hcr⟩ := hI.devs d v hd hv
    by_cases hb : v.bus = b
    · rw [hb] at hcr ⊢
      have hrq := State.regBus?_eq_some.mp hcr
      rw [h] at hrq
      cases hrq.1
      obtain ⟨c', hc'⟩ := Option.ne_none_iff_exists'.mp (hreg (by simp [hrq.2]))
      exact ⟨_, State.regBus?_setBus_self h hc'⟩
    · exact ⟨_, (State.regBus?_setBus_ne hb q').trans hcr⟩

theorem State.Inv.setTxr (hI : s.Inv) {t : Byte} (hr : t.toNat < s.params.nTxr) (hx : x.Wf s.params)
    (hd : x.devp = true → ∃ v, s.dev? x.devid = some v) : (s.setTxr t x).Inv := by
  have hcase : ∀ t' x', (s.setTxr t x).txr? t' = some x' → x' = x ∨ s.txr? t' = some x' := by
    intro t' x' h
    by_cases ht : t' = t
    · subst ht
      rw [State.txr?_setTxr_self hr hI.txrLength] at h
      cases h
      exact .inl rfl
    · rw [State.txr?_setTxr_ne ht] at h
      exact .inr h
  refine
    { params := hI.params, txrLength := by simpa using hI.txrLength, devsLength := hI.devsLength
      busesLength := hI.busesLength, buses := hI.buses, devs := hI.devs, txrs := ?_, txrDevs := ?_ }
  · intro t' x' h
    rcases hcase t' x' h with rfl | h
    · exact hx
    · exact hI.txrs t' x' h
  · intro t' x' h hv
    rcases hcase t' x' h with rfl | h
    · exact hd hv
    · exact hI.txrDevs t' x' h hv

theorem State.Inv.setDev (hI : s.Inv) {d : Byte} {v : Dev} (hr : d.toNat < s.params.nDev)
    (hb : v.bus ≠ 0 → ∃ cq, s.regBus? v.bus = some cq) : (s.setDev d v).Inv := by
  refine
    { params := hI.params, txrLength := hI.txrLength, devsLength := by simpa using hI.devsLength
      busesLength := hI.busesLength, buses := hI.buses, devs := ?_, txrs := hI.txrs, txrDevs := ?_ }
  · intro d' v' h hv
    by_cases hd : d' = d
    · subst hd
      rw [State.dev?_setDev_self hr hI.devsLength] at h
      cases h
      exact hb hv
    · rw [State.dev?_setDev_ne hd] at h
      exact hI.devs d' v' h hv
  · intro t x h hx
    obtain ⟨v', hv'⟩ := hI.txrDevs t x h hx
    by_cases hd : x.devid = d
    · rw [hd]; exact ⟨v, State.dev?_setDev_self hr hI.devsLength v⟩
    · exact ⟨v', (State.dev?_setDev_ne hd v).trans hv'⟩

/-! ## DISPATCH and BUS_SET_TRANSACTION -/

/-- `DISPATCH` with nothing queued: Idle, with no current transaction (R170). -/
theorem dispatch_empty (h : q.count = 0) :
    dispatch b c q ctx s = .next (s.setBus b { q with curValid := false, busy := false }, .ok) := by
  simp [dispatch, qPeek_empty h, andThen]

/-- `DISPATCH` of the head `x`: its pre-callback and its `INITIATE` are emitted and it is current; by the backend's
answer it is in flight, or the error is latched (R170). -/
theorem dispatch_head (h : q.count ≠ 0) (hx : q.slots.getD q.head none = some x) :
    dispatch b c q ctx s = .next (
      if s.nextAnswer then
        ((s.afterAnswer.setBus b { q with curValid := true, busy := true }).emit
          (x.cbRecords .pre b ctx ++ [x.initiateRecord s.params c b]), .ok)
      else
        ((s.afterAnswer.setBus b (Bus.latch { q with curValid := true, busy := false } .errHwInitiate ctx)).emit
          (x.cbRecords .pre b ctx ++ [x.initiateRecord s.params c b, .errn b .errHwInitiate ctx]), .errHwInitiate)) := by
  simp only [dispatch, qPeek_head h hx, andThen, cbInvoke, State.ask_fst, State.ask_snd, State.nextAnswer_emit,
    State.nextAnswer_setBus, State.afterAnswer_emit, State.afterAnswer_setBus, State.emit_setBus, State.emit_emit,
    State.setBus_setBus, State.emit_params, State.setBus_params, latch, List.append_assoc, List.cons_append,
    List.nil_append]
  split <;> rfl

theorem busSetTransaction_full (hr : s.regBus? b = some (c, q)) (hn : q.count = s.params.qcap) :
    busSetTransaction b x ctx s = .next (s.respond .errQFull 0) := by
  simp [busSetTransaction, hr, qEnqueue, hn, raise, done]

/-- A submission that does not find the bus idle with an empty queue only joins the queue. -/
theorem busSetTransaction_join (hr : s.regBus? b = some (c, q)) (hn : q.count ≠ s.params.qcap)
    (h : ¬ (q.count = 0 ∧ q.busy = false)) :
    busSetTransaction b x ctx s =
      .next ((s.setBus b { q with
        slots := q.slots.set q.tail (some x), tail := nextIndex s.params.qcap q.tail, count := q.count + 1 }).respond .ok 0) := by
  simp only [busSetTransaction, hr, qEnqueue, hn, if_false, h, done]

/-- The first submission of an idle, empty bus whose peripheral is not idle joins the queue after one `IDLEQ`. -/
theorem busSetTransaction_notIdle (hr : s.regBus? b = some (c, q)) (hn : q.count ≠ s.params.qcap)
    (h : q.count = 0 ∧ q.busy = false) (ha : s.nextAnswer = false) :
    busSetTransaction b x ctx s =
      .next (((s.afterAnswer.setBus b { q with
        slots := q.slots.set q.tail (some x), tail := nextIndex s.params.qcap q.tail, count := q.count + 1 }).emit [.idleq b]).respond .ok 0) := by
  obtain ⟨h0, hb⟩ := h
  rw [h0] at hn
  simp only [busSetTransaction, hr, qEnqueue, hn, if_false, h0, hb, and_self, if_true, done, State.ask_fst,
    State.ask_snd, State.nextAnswer_emit, State.nextAnswer_setBus, ha, State.afterAnswer_emit,
    State.afterAnswer_setBus, Bool.false_eq_true]

/-- The first submission of an idle, empty bus whose peripheral is idle is dispatched, by the backend's next answer
into flight or into the latch. -/
theorem busSetTransaction_dispatch (hr : s.regBus? b = some (c, q)) (hw : q.Wf s.params)
    (h0 : q.count = 0) (ha : s.nextAnswer = true) :
    busSetTransaction b x ctx s = .next (
      if s.afterAnswer.nextAnswer then
        ((s.afterAnswer.afterAnswer.setBus b { q with
          slots := q.slots.set q.tail (some x), tail := nextIndex s.params.qcap q.tail, count := 1, curValid := true, busy := true }).emit
          ([.idleq b] ++ x.cbRecords .pre b ctx ++ [x.initiateRecord s.params c b])).respond .ok 1
      else
        ((s.afterAnswer.afterAnswer.setBus b (Bus.latch { q with
          slots := q.slots.set q.tail (some x), tail := nextIndex s.params.qcap q.tail, count := 1, curValid := true, busy := false } .errHwInitiate ctx)).emit
          ([.idleq b] ++ x.cbRecords .pre b ctx ++ [x.initiateRecord s.params c b, .errn b .errHwInitiate ctx])).respond
          .errHwInitiate 0) := by
  have hpos := hw.qcap_pos
  have hb := (hw.idle_of_empty h0).1
  have hht : q.tail = q.head := by rw [hw.tail, h0, Nat.add_zero, Nat.mod_eq_of_lt hw.head]
  have hlt : q.head < q.slots.length := by rw [hw.slots]; exact hw.head
  have hx : ({ q with
      slots := q.slots.set q.tail (some x), tail := nextIndex s.params.qcap q.tail, count := 1,
      busy := false } : Bus).slots.getD q.head none = some x := by
    simp [hht, List.getD_eq_getElem?_getD, List.getElem?_set_self hlt]
  have hne : ¬ 0 = s.params.qcap := by omega
  simp only [busSetTransaction, hr, qEnqueue, h0, hb, hne, if_false, and_self, if_true, State.ask_fst, State.ask_snd,
    State.nextAnswer_emit, State.nextAnswer_setBus, ha, State.afterAnswer_emit, State.afterAnswer_setBus, Nat.zero_add]
  rw [dispatch_head (by simp) hx]
  simp only [State.nextAnswer_emit, State.nextAnswer_setBus, State.afterAnswer_emit, State.afterAnswer_setBus,
    State.emit_setBus, State.setBus_setBus, State.emit_emit, State.emit_params, State.setBus_params,
    State.afterAnswer_params, andThen, done, List.append_assoc]
  split <;> rfl

end Sys2Proof.Machine
end

