-- ==== Sys2Proof/Laws/Exec.lean ====
section
/-! SUPPORT. Everything an instruction can do in a state that meets the invariant, said once: the next state of `exec`
is one of the effects listed here. -/

namespace Sys2Proof.Machine

/-- Bus `q` with `x` put at the tail of its queue (R112). -/
def Bus.pushed (q : Bus) (qcap : Nat) (x : Txn) : Bus :=
  { q with slots := q.slots.set q.tail (some x), tail := nextIndex qcap q.tail, count := q.count + 1 }

/-- Bus `q` with the head of its queue taken away and its flags cleared (R113, R225). -/
def Bus.popped (q : Bus) (qcap : Nat) : Bus :=
  { q with
    slots := q.slots.set q.head none, head := nextIndex qcap q.head, count := q.count - 1, busy := false,
    curValid := false }

/-- Bus `q` with its head dispatched: current, and in flight by the backend's answer (R170). -/
def Bus.dispatched (q : Bus) (accepted : Bool) (ctx : Ctx) : Bus :=
  if accepted then { q with curValid := true, busy := true }
  else Bus.latch { q with curValid := true, busy := false } .errHwInitiate ctx

/-- The records of a dispatch of `x` (R170). -/
def Txn.dispatchRecords (x : Txn) (p : Params) (c : BusCfg) (b : Byte) (ctx : Ctx) (accepted : Bool) : List Record :=
  x.cbRecords .pre b ctx ++ [x.initiateRecord p c b] ++ (if accepted then [] else [.errn b .errHwInitiate ctx])

/-- What instruction `i` does in state `s`, by what it writes. -/
inductive Effect (i : Instr) (s : State) : State → Prop
  /-- A response only. -/
  | answer (st : Status) (v : Word) (hi : i.isCommand = true) (hv : st.isError = true ∨ st = .null → v = 0)
      (hst : st ≠ .errHwInitiate) : Effect i s (s.respond st v)
  /-- TXCBPRE and TXCBPOST: at most a `CB` record of bus 0. -/
  | hook (x : Txn) (kind : CbKind) (hi : i.isCommand = true) :
      Effect i s ((s.emit (x.cbRecords kind 0 .fg)).respond .ok 0)
  /-- A staging register written. -/
  | stage (t : Byte) (x : Txn) (hi : i.isCommand = true) (hw : writesOf i = [.txr]) (hr : t.toNat < s.params.nTxr)
      (hx : x.Wf s.params) (hd : x.devp = true → ∃ v, s.dev? x.devid = some v) :
      Effect i s ((s.setTxr t x).respond .ok 0)
  /-- A device slot written. -/
  | device (d : Byte) (v : Dev) (hi : i.isCommand = true) (hw : writesOf i = [.dev]) (hr : d.toNat < s.params.nDev)
      (hb : v.bus ≠ 0 → ∃ cq, s.regBus? v.bus = some cq) : Effect i s ((s.setDev d v).respond .ok 0)
  /-- A bus registered. -/
  | register (b : Byte) (q : Bus) (c : BusCfg) (hi : ∃ name clk g own1 own2, i = .businit b name clk g own1 own2)
      (hq : s.bus? b = some q) (hn : q.cfg = none) (hc : c.Wf s.params) :
      Effect i s (((s.setBus b { Bus.atReset s.params.qcap with cfg := some c }).emit [.bind b]).respond .ok 0)
  /-- An error latch drained. -/
  | drain (b : Byte) (c : BusCfg) (q : Bus) (v : Word) (hi : i = .buserr b) (hr : s.regBus? b = some (c, q)) :
      Effect i s ((s.setBus b { q with err := none, errLost := false }).respond .ok v)
  /-- A submission that only joins the queue. -/
  | join (b : Byte) (x : Txn) (c : BusCfg) (q : Bus) (hi : submission s i = some (b, x))
      (hr : s.regBus? b = some (c, q)) (hn : q.count ≠ s.params.qcap) (hx : x.Wf s.params)
      (h : ¬ (q.count = 0 ∧ q.busy = false)) : Effect i s ((s.setBus b (q.pushed s.params.qcap x)).respond .ok 0)
  /-- A first submission that finds the peripheral not idle. -/
  | notIdle (b : Byte) (x : Txn) (c : BusCfg) (q : Bus) (hi : submission s i = some (b, x))
      (hr : s.regBus? b = some (c, q)) (hx : x.Wf s.params) (h : q.count = 0) (ha : s.nextAnswer = false) :
      Effect i s (((s.afterAnswer.setBus b (q.pushed s.params.qcap x)).emit [.idleq b]).respond .ok 0)
  /-- A first submission dispatched. -/
  | start (b : Byte) (x : Txn) (c : BusCfg) (q : Bus) (st : Status) (v : Word) (hi : submission s i = some (b, x))
      (hr : s.regBus? b = some (c, q)) (hx : x.Wf s.params) (h : q.count = 0) (ha : s.nextAnswer = true)
      (hst : if s.afterAnswer.nextAnswer then st = .ok ∧ v = 1 else st = .errHwInitiate ∧ v = 0) :
      Effect i s (((s.afterAnswer.afterAnswer.setBus b
        ((q.pushed s.params.qcap x).dispatched s.afterAnswer.nextAnswer .fg)).emit
          ([.idleq b] ++ x.dispatchRecords s.params c b .fg s.afterAnswer.nextAnswer)).respond st v)
  /-- An event for an instance with no Bus. -/
  | ignored (hi : i.isCommand = false) : Effect i s s
  /-- A low-level interrupt routed to the backend. -/
  | route (b : Byte) (cls : IrqClass) (hi : i = .irqEv b ∨ i = .irqEr b) : Effect i s (s.emit [.birq b cls])
  /-- A CPLT or XERR with nothing in flight. -/
  | spurious (b : Byte) (c : BusCfg) (q : Bus) (hi : i = .cplt b ∨ i = .xerr b) (hr : s.regBus? b = some (c, q))
      (hb : q.busy = false) :
      Effect i s ((s.setBus b (q.latch .errHwSpurious .irq)).emit [.errn b .errHwSpurious .irq])
  /-- A transfer error. -/
  | transferError (b : Byte) (c : BusCfg) (q : Bus) (hi : i = .xerr b) (hr : s.regBus? b = some (c, q))
      (hb : q.busy = true) :
      Effect i s ((s.setBus b (Bus.latch { q with busy := false } .errHwTransfer .irq)).emit
        [.errn b .errHwTransfer .irq])
  /-- The completion of the only queued transaction. -/
  | completeLast (b : Byte) (c : BusCfg) (q : Bus) (x : Txn) (hi : i = .cplt b) (hr : s.regBus? b = some (c, q))
      (hb : q.busy = true) (hx : q.slots.getD q.head none = some x) (hn : q.count = 1) :
      Effect i s ((s.setBus b (q.popped s.params.qcap)).emit (x.cbRecords .post b .irq))
  /-- A completion with a successor queued, which is dispatched. -/
  | completeNext (b : Byte) (c : BusCfg) (q : Bus) (x y : Txn) (hi : i = .cplt b) (hr : s.regBus? b = some (c, q))
      (hb : q.busy = true) (hx : q.slots.getD q.head none = some x) (hn : 1 < q.count)
      (hy : (q.popped s.params.qcap).slots.getD (q.popped s.params.qcap).head none = some y) :
      Effect i s ((s.afterAnswer.setBus b ((q.popped s.params.qcap).dispatched s.nextAnswer .irq)).emit
        (x.cbRecords .post b .irq ++ y.dispatchRecords s.params c b .irq s.nextAnswer))

variable {s : State} {i : Instr}

theorem Bus.Wf.pushed {p : Params} {q : Bus} {x : Txn} (hw : q.Wf p) (hreg : q.cfg ≠ none) (hn : q.count ≠ p.qcap)
    (hx : x.Wf p) : (q.pushed p.qcap x).Wf p := hw.enqueue hreg hn hx

theorem Bus.Wf.popped {p : Params} {q : Bus} (hw : q.Wf p) (hreg : q.cfg ≠ none) (hn : q.count ≠ 0) :
    (q.popped p.qcap).Wf p := hw.dequeue hreg hn

theorem Bus.Wf.dispatched {p : Params} {q : Bus} (hw : q.Wf p) (hreg : q.cfg ≠ none) (hn : q.count ≠ 0)
    (accepted : Bool) (ctx : Ctx) : (q.dispatched accepted ctx).Wf p := by
  cases accepted
  · have h : ({ q with curValid := true, busy := false } : Bus).Wf p :=
      hw.of_ring rfl rfl rfl rfl rfl hreg (by simp) (fun _ => Nat.pos_of_ne_zero hn) hw.lost
    exact h.latch hreg _ _
  · exact hw.of_ring rfl rfl rfl rfl rfl hreg (fun _ => rfl) (fun _ => Nat.pos_of_ne_zero hn) hw.lost

/-- A submission's Transaction is a staged one, and its bus is registered. -/
theorem submission_spec {b : Byte} {x : Txn} (h : submission s i = some (b, x)) :
    (∃ t, s.txr? t = some x) ∧ ∃ cq, s.regBus? b = some cq := by
  cases i <;> first | cases h | dsimp only [submission] at h
  · split at h
    · rename_i y hy
      split at h
      · split at h
        · split at h
          · rename_i hb
            cases h
            exact ⟨⟨_, hy⟩, Option.isSome_iff_exists.mp hb⟩
          · cases h
        · cases h
      · cases h
    · cases h
  · split at h
    · rename_i y hv hy
      split at h
      · rename_i hb
        cases h
        exact ⟨⟨_, hy⟩, Option.isSome_iff_exists.mp hb⟩
      · cases h
    · cases h
  · split at h
    · rename_i hb hy
      cases h
      exact ⟨⟨_, hy⟩, _, hb⟩
    · cases h

/-- What `BUS_SET_TRANSACTION` does for a submission of instruction `i`. -/
theorem busSetTransaction_effect (hI : s.Inv) (hi : i.isCommand = true) {b : Byte} {x : Txn}
    (h : submission s i = some (b, x)) :
    ∃ s', busSetTransaction b x .fg s = .next s' ∧ Effect i s s' := by
  obtain ⟨⟨t, ht⟩, ⟨c, q⟩, hr⟩ := submission_spec h
  have hx := hI.txrs t x ht
  have hw := hI.bus (State.regBus?_eq_some.mp hr).1
  by_cases hn : q.count = s.params.qcap
  · exact ⟨_, busSetTransaction_full hr hn, .answer _ _ hi (by simp) (by simp)⟩
  by_cases h0 : q.count = 0
  · cases ha : s.nextAnswer
    · exact ⟨_, busSetTransaction_notIdle hr hn ⟨h0, (hw.idle_of_empty h0).1⟩ ha, .notIdle b x c q h hr hx h0 ha⟩
    · refine ⟨_, busSetTransaction_dispatch hr hw h0 ha, ?_⟩
      have := fun st v => Effect.start (i := i) b x c q st v h hr hx h0 ha
      cases ha' : s.afterAnswer.nextAnswer
      · simpa [ha', Bus.pushed, Bus.dispatched, Txn.dispatchRecords, h0] using this .errHwInitiate 0
      · simpa [ha', Bus.pushed, Bus.dispatched, Txn.dispatchRecords, h0] using this .ok 1
  · exact ⟨_, busSetTransaction_join hr hn (fun e => h0 e.1), .join b x c q h hr hn hx (fun e => h0 e.1)⟩

theorem raise_effect (hi : i.isCommand = true) {st : Status} (hst : st ≠ .errHwInitiate) :
    ∃ s', raise st s = .next s' ∧ Effect i s s' := ⟨_, rfl, .answer _ _ hi (by simp) hst⟩

theorem done_effect (hi : i.isCommand = true) (v : Word) : ∃ s', done .ok v s = .next s' ∧ Effect i s s' :=
  ⟨_, rfl, .answer _ _ hi (by simp [Status.isError, Status.cls]) (by simp)⟩

theorem withTxr_effect (hi : i.isCommand = true) {t : Byte} {f : Txn → Result}
    (hf : ∀ x, s.txr? t = some x → ∃ s', f x = .next s' ∧ Effect i s s') :
    ∃ s', withTxr t s f = .next s' ∧ Effect i s s' := by
  unfold withTxr
  split
  · exact raise_effect hi (by simp)
  · exact hf _ (by assumption)

theorem withDev_effect (hi : i.isCommand = true) {d : Byte} {f : Dev → Result}
    (hf : ∀ v, s.dev? d = some v → ∃ s', f v = .next s' ∧ Effect i s s') :
    ∃ s', withDev d s f = .next s' ∧ Effect i s s' := by
  unfold withDev
  split
  · exact raise_effect hi (by simp)
  · exact hf _ (by assumption)

theorem withBus_effect (hi : i.isCommand = true) {b : Byte} {f : BusCfg → Bus → Result}
    (hf : ∀ c q, s.regBus? b = some (c, q) → ∃ s', f c q = .next s' ∧ Effect i s s') :
    ∃ s', withBus b s f = .next s' ∧ Effect i s s' := by
  unfold withBus
  split
  · exact raise_effect hi (by simp)
  · exact hf _ _ (by assumption)

theorem onRegistered_effect (hi : i.isCommand = false) {b : Byte} {f : BusCfg → Bus → Result}
    (hf : ∀ c q, s.regBus? b = some (c, q) → ∃ s', f c q = .next s' ∧ Effect i s s') :
    ∃ s', onRegistered b s f = .next s' ∧ Effect i s s' := by
  unfold onRegistered
  split
  · exact ⟨_, rfl, .ignored hi⟩
  · exact hf _ _ (by assumption)

theorem storeTxn_effect (hi : i.isCommand = true) (hw : writesOf i = [.txr]) {t : Byte} {x : Txn}
    (hr : s.txrInRange t = true) (h3 : x.regw ≠ 3) (hd0 : x.devp = false → x.devid = 0)
    (hdr : x.devid.toNat < s.params.nDev) (hd : x.devp = true → ∃ v, s.dev? x.devid = some v) :
    ∃ s', storeTxn t x s = .next s' ∧ Effect i s s' := by
  unfold storeTxn
  split
  · rename_i hv
    refine ⟨_, rfl, .stage t x hi hw (by simpa [State.txrInRange] using hr) ⟨h3, ?_, hd0, hdr⟩ hd⟩
    intro h0
    simpa [validateTx, h0] using hv
  · exact raise_effect hi (by simp)

theorem constructForDevice_effect (hi : i.isCommand = true) (hw : writesOf i = [.txr]) (dir : Dir) (t d : Byte)
    (regaddr : Half) (regw : BitVec 2) (buf : Word) (len : Half) :
    ∃ s', constructForDevice dir t d regaddr regw buf len s = .next s' ∧ Effect i s s' := by
  unfold constructForDevice
  split
  · rename_i h3
    split
    · rename_i hr
      split
      · exact raise_effect hi (by simp)
      · rename_i v hv
        exact storeTxn_effect hi hw hr (by simpa [newTxn, regwOk] using h3) (by simp [newTxn])
          (State.devInRange_of_dev? hv) (fun _ => ⟨v, hv⟩)
    · exact raise_effect hi (by simp)
  · exact raise_effect hi (by simp)

theorem deviceSubmit_effect (hI : s.Inv) (hi : i.isCommand = true) {d t : Byte}
    (h : ∀ v x, s.dev? d = some v → s.txr? t = some x → v.bus ≠ 0 → submission s i = some (v.bus, x)) :
    ∃ s', deviceSubmit d t s = .next s' ∧ Effect i s s' := by
  unfold deviceSubmit
  split
  · exact raise_effect hi (by simp)
  · rename_i v hv
    refine withTxr_effect hi fun x hx => ?_
    split
    · exact raise_effect hi (by simp)
    · rename_i hb
      exact busSetTransaction_effect hI hi (h v x hv hx hb)

/-- A registered bus is instance 1 at least. -/
theorem State.ne_zero_of_bus? {b : Byte} {q : Bus} (h : s.bus? b = some q) : b ≠ 0 := by
  rintro rfl
  have := (State.bus?_eq_some.mp h).1.1
  simp at this

theorem dequeue_then_dispatch (hI : s.Inv) {b : Byte} {c : BusCfg} {q : Bus} (hr : s.regBus? b = some (c, q))
    (hb : q.busy = true) :
    ∃ s', execCplt b s = .next s' ∧ Effect (.cplt b) s s' := by
  obtain ⟨hq, hc⟩ := State.regBus?_eq_some.mp hr
  have hw := hI.bus hq
  have hreg : q.cfg ≠ none := by simp [hc]
  have hpos := hw.cur (hw.busy hb)
  have h0 : q.count ≠ 0 := by omega
  obtain ⟨x, hx, -⟩ := hw.head_slot h0
  have hwp := hw.popped hreg h0
  have hstep : execCplt b s =
      andThen (dispatch b c (q.popped s.params.qcap) .irq
        (cbInvoke .post x b .irq (s.setBus b (q.popped s.params.qcap)))) fun r => .next r.1 := by
    simp only [execCplt, onRegistered, hr, hb, Bool.true_eq_false, if_false, qDequeue_head _ h0 hx, andThen]
    rfl
  rw [hstep]
  by_cases h1 : q.count = 1
  · refine ⟨_, ?_, .completeLast b c q x rfl hr hb hx h1⟩
    rw [dispatch_empty (by simp [Bus.popped, h1])]
    simp only [andThen, cbInvoke, State.emit_setBus, State.setBus_setBus]
    rfl
  · obtain ⟨y, hy, -⟩ := hwp.head_slot (by simp only [Bus.popped]; omega)
    refine ⟨_, ?_, .completeNext b c q x y rfl hr hb hx (by omega) hy⟩
    rw [dispatch_head (by simp only [Bus.popped]; omega) hy]
    simp only [andThen, cbInvoke, State.nextAnswer_emit, State.nextAnswer_setBus, State.afterAnswer_emit,
      State.afterAnswer_setBus, State.emit_setBus, State.emit_emit, State.setBus_setBus, State.emit_params,
      State.setBus_params]
    cases s.nextAnswer <;> simp [Bus.dispatched, Txn.dispatchRecords]

/-- EVERYTHING AN INSTRUCTION CAN DO: from a state that meets the invariant it has a next state, by one of the effects. -/
theorem exec_effect (hI : s.Inv) (i : Instr) : ∃ s', exec i s = .next s' ∧ Effect i s s' := by
  cases i with
  | txnew t dir addr regaddr regw buf len =>
    simp only [exec, execTxnew]
    split
    · rename_i h3
      split
      · rename_i hr
        exact storeTxn_effect rfl rfl hr (by simpa [newTxn, regwOk] using h3) (by simp [newTxn])
          (by have := hI.params.2.2.1; simp [newTxn]; omega) (by simp [newTxn])
      · exact raise_effect rfl (by simp)
    · exact raise_effect rfl (by simp)
  | txrd t d regaddr regw buf len => exact constructForDevice_effect rfl rfl ..
  | txwr t d regaddr regw buf len => exact constructForDevice_effect rfl rfl ..
  | txpre t fn arg =>
    refine withTxr_effect rfl fun x hx => ⟨_, rfl, .stage t _ rfl rfl (State.txrInRange_of_txr? hx) ?_ ?_⟩
    · have := hI.txrs t x hx
      exact ⟨this.regw, this.regaddr, this.devid, this.devidRange⟩
    · exact hI.txrDevs t x hx
  | txpost t fn arg =>
    refine withTxr_effect rfl fun x hx => ⟨_, rfl, .stage t _ rfl rfl (State.txrInRange_of_txr? hx) ?_ ?_⟩
    · have := hI.txrs t x hx
      exact ⟨this.regw, this.regaddr, this.devid, this.devidRange⟩
    · exact hI.txrDevs t x hx
  | txsend t =>
    refine withTxr_effect rfl fun x hx => ?_
    split
    · rename_i hp
      refine deviceSubmit_effect hI rfl fun v x' hv hx' hb => ?_
      obtain ⟨cq, hcq⟩ := hI.devs _ v hv hb
      rw [hx] at hx'
      cases hx'
      simp [submission, hx, hp, hv, hcq]
    · exact raise_effect rfl (by simp)
  | txcbpre t => exact withTxr_effect rfl fun x _ => ⟨_, rfl, .hook x .pre rfl⟩
  | txcbpost t => exact withTxr_effect rfl fun x _ => ⟨_, rfl, .hook x .post rfl⟩
  | txget t sel => exact withTxr_effect rfl fun x _ => done_effect rfl _
  | devnew d b addr name =>
    simp only [exec, execDevnew]
    split
    · rename_i hr
      split
      · rename_i hb
        refine ⟨_, rfl, .device d _ rfl rfl (by simpa [State.devInRange] using hr) fun h => ?_⟩
        exact Option.isSome_iff_exists.mp (hb.resolve_left h)
      · exact raise_effect rfl (by simp)
    · exact raise_effect rfl (by simp)
  | devatt d b =>
    refine withDev_effect rfl fun v hv => ?_
    split
    · rename_i hb
      split
      · exact raise_effect rfl (by simp)
      · exact ⟨_, rfl, .device d _ rfl rfl (State.devInRange_of_dev? hv) fun _ => Option.isSome_iff_exists.mp hb⟩
    · exact raise_effect rfl (by simp)
  | devdet d =>
    exact withDev_effect rfl fun v hv =>
      ⟨_, rfl, .device d _ rfl rfl (State.devInRange_of_dev? hv) fun h => absurd rfl h⟩
  | devsub d t =>
    refine deviceSubmit_effect hI rfl fun v x hv hx hb => ?_
    obtain ⟨cq, hcq⟩ := hI.devs _ v hv hb
    simp [submission, hx, hv, hcq]
  | devget d sel => exact withDev_effect rfl fun v _ => done_effect rfl _
  | businit b name clk g own1 own2 =>
    simp only [exec, execBusinit]
    split
    · exact raise_effect rfl (by simp)
    · rename_i q hq
      split
      · exact raise_effect rfl (by simp)
      · rename_i hn
        have hq0 := (hI.bus hq).unregistered hn
        have hreg : ∀ c, c.Wf s.params →
            ∃ s', registerBus b q c s = .next s' ∧ Effect (.businit b name clk g own1 own2) s s' := by
          intro c hc
          refine ⟨_, ?_, .register b q c ⟨name, clk, g, own1, own2, rfl⟩ hq hn hc⟩
          rw [registerBus, hq0]
          rfl
        split
        · rename_i hm
          exact hreg _ ⟨rfl, fun _ => ⟨rfl, rfl, rfl, rfl, rfl⟩, fun h => by simp [masterOnlyFlags, hm] at h⟩
        · rename_i hm
          split
          · exact raise_effect rfl (by simp)
          · rename_i h1
            split
            · exact raise_effect rfl (by simp)
            · rename_i h2
              refine hreg _ ⟨rfl, fun h => by simp [hm] at h, fun _ => ⟨by simpa using h1, fun hd => ?_⟩⟩
              have h2' : g.dual = true → addrValid s.params own2.toNat g.addrMode = true := by simpa using h2
              exact h2' hd
  | bussub b t =>
    refine withBus_effect rfl fun c q hr => withTxr_effect rfl fun x hx => ?_
    exact busSetTransaction_effect hI rfl (by simp [submission, hr, hx])
  | busnum b => exact withBus_effect rfl fun _ _ _ => done_effect rfl _
  | busstat b => exact withBus_effect rfl fun _ _ _ => done_effect rfl _
  | buserr b =>
    refine withBus_effect rfl fun c q hr => ?_
    split
    · exact ⟨_, rfl, .answer _ _ rfl (by simp) (by simp)⟩
    · exact ⟨_, rfl, .drain b c q _ rfl hr⟩
  | buscfg b sel => exact withBus_effect rfl fun _ _ _ => done_effect rfl _
  | addrchk mode a => exact done_effect rfl _
  | qsize b => exact withBus_effect rfl fun _ _ _ => done_effect rfl _
  | qempty b => exact withBus_effect rfl fun _ _ _ => done_effect rfl _
  | qhasdata b => exact withBus_effect rfl fun _ _ _ => done_effect rfl _
  | qfull b => exact withBus_effect rfl fun _ _ _ => done_effect rfl _
  | qpeek b sel =>
    refine withBus_effect rfl fun c q hr => ?_
    have hw := hI.bus (State.regBus?_eq_some.mp hr).1
    by_cases h0 : q.count = 0
    · rw [qPeek_empty h0]
      exact ⟨_, rfl, .answer _ _ rfl (by simp) (by simp)⟩
    · obtain ⟨x, hx, -⟩ := hw.head_slot h0
      rw [qPeek_head h0 hx]
      exact done_effect rfl _
  | irqEv b => exact onRegistered_effect rfl fun _ _ _ => ⟨_, rfl, .route b .event (.inl rfl)⟩
  | irqEr b => exact onRegistered_effect rfl fun _ _ _ => ⟨_, rfl, .route b .error (.inr rfl)⟩
  | cplt b =>
    cases hr : s.regBus? b with
    | none => exact ⟨s, by simp [exec, execCplt, onRegistered, hr], .ignored rfl⟩
    | some cq =>
      obtain ⟨c, q⟩ := cq
      cases hb : q.busy
      · refine ⟨_, ?_, .spurious b c q (.inl rfl) hr hb⟩
        simp [exec, execCplt, onRegistered, hr, hb, latch]
      · exact dequeue_then_dispatch hI hr hb
  | xerr b =>
    refine onRegistered_effect rfl fun c q hr => ?_
    split
    · exact ⟨_, rfl, .spurious b c q (.inr rfl) hr (by assumption)⟩
    · rename_i hb
      exact ⟨_, rfl, .transferError b c q rfl hr (by simpa using hb)⟩

/-- The effect of an instruction that answers a next state. -/
theorem effect_of_exec (hI : s.Inv) {s' : State} (h : exec i s = .next s') : Effect i s s' := by
  obtain ⟨s1, h1, he⟩ := exec_effect hI i
  rw [h1] at h
  cases h
  exact he

/-! ## The invariant under an instruction -/

theorem Bus.cfg_latch (q : Bus) (cause : Status) (ctx : Ctx) : (q.latch cause ctx).cfg = q.cfg := by
  unfold Bus.latch
  split <;> rfl

theorem Bus.cfg_dispatched (q : Bus) (a : Bool) (ctx : Ctx) : (q.dispatched a ctx).cfg = q.cfg := by
  cases a
  · exact Bus.cfg_latch _ _ _
  · rfl

/-- An instruction's effect keeps the invariant. -/
theorem Effect.inv {s' : State} (hI : s.Inv) (h : Effect i s s') : s'.Inv := by
  have ho : ∀ {s1 : State} (rs : List Record) (st : Status) (v : Word), s1.Inv → ((s1.emit rs).respond st v).Inv :=
    fun _ _ _ h => h.congr rfl rfl rfl rfl
  have he : ∀ {s1 : State} (rs : List Record), s1.Inv → (s1.emit rs).Inv := fun _ h => h.congr rfl rfl rfl rfl
  have hr' : ∀ {s1 : State} (st : Status) (v : Word), s1.Inv → (s1.respond st v).Inv :=
    fun _ _ h => h.congr rfl rfl rfl rfl
  have ha : s.afterAnswer.Inv := hI.congr rfl rfl rfl rfl
  have haa : s.afterAnswer.afterAnswer.Inv := ha.congr rfl rfl rfl rfl
  have hbus : ∀ {b : Byte} {c : BusCfg} {q : Bus}, s.regBus? b = some (c, q) →
      s.bus? b = some q ∧ q.Wf s.params ∧ q.cfg ≠ none := fun h => by
    obtain ⟨hq, hc⟩ := State.regBus?_eq_some.mp h
    exact ⟨hq, hI.bus hq, by simp [hc]⟩
  cases h with
  | answer st v => exact hr' _ _ hI
  | hook => exact ho _ _ _ hI
  | stage t x hi hw hr hx hd => exact hr' _ _ (hI.setTxr hr hx hd)
  | device d v hi hw hr hb => exact hr' _ _ (hI.setDev hr hb)
  | register b q c hi hq hn hc =>
    have hw := hI.bus hq
    rw [hw.unregistered hn] at hw
    refine ho _ _ _ (hI.setBus hq ?_ (by simp))
    exact
      { slots := hw.slots, head := hw.head, count := hw.count, tail := hw.tail, occupied := hw.occupied
        vacant := hw.vacant, busy := hw.busy, cur := hw.cur, lost := hw.lost, unregistered := by simp
        config := fun _ h => by cases h; exact hc }
  | drain b c q v hi hr =>
    obtain ⟨hq, hw, hc⟩ := hbus hr
    exact hr' _ _ (hI.setBus hq (hw.of_ring rfl rfl rfl rfl rfl hc hw.busy hw.cur (by simp)) id)
  | join b x c q hi hr hn hx h =>
    obtain ⟨hq, hw, hc⟩ := hbus hr
    exact hr' _ _ (hI.setBus hq (hw.pushed hc hn hx) id)
  | notIdle b x c q hi hr hx h _ =>
    obtain ⟨hq, hw, hc⟩ := hbus hr
    exact ho _ _ _ (ha.setBus (b := b) hq (hw.pushed hc (by have := hw.qcap_pos; omega) hx) id)
  | start b x c q st v hi hr hx h _ hst =>
    obtain ⟨hq, hw, hc⟩ := hbus hr
    have hw' := hw.pushed hc (by have := hw.qcap_pos; omega) hx
    exact ho _ _ _ (haa.setBus (b := b) hq (hw'.dispatched hc (by simp [Bus.pushed]) _ _) fun h => by
      rw [Bus.cfg_dispatched]; exact h)
  | ignored => exact hI
  | route => exact he _ hI
  | spurious b c q hi hr hb =>
    obtain ⟨hq, hw, hc⟩ := hbus hr
    exact he _ (hI.setBus hq (hw.latch hc _ _) fun h => by rw [Bus.cfg_latch]; exact h)
  | transferError b c q hi hr hb =>
    obtain ⟨hq, hw, hc⟩ := hbus hr
    have hw' : ({ q with busy := false } : Bus).Wf s.params :=
      hw.of_ring rfl rfl rfl rfl rfl hc (by simp) hw.cur hw.lost
    exact he _ (hI.setBus hq (hw'.latch hc _ _) fun h => by rw [Bus.cfg_latch]; exact h)
  | completeLast b c q x hi hr hb hx hn =>
    obtain ⟨hq, hw, hc⟩ := hbus hr
    exact he _ (hI.setBus hq (hw.popped hc (by omega)) id)
  | completeNext b c q x y hi hr hb hx hn hy =>
    obtain ⟨hq, hw, hc⟩ := hbus hr
    have hw' := hw.popped hc (by omega)
    exact he _ (ha.setBus (b := b) hq (hw'.dispatched hc (by simp only [Bus.popped]; omega) _ _) fun h => by
      rw [Bus.cfg_dispatched]; exact h)

end Sys2Proof.Machine
end

