-- ==== Sys2Proof/Laws/Ports.lean ====
section
/-! SUPPORT. What taking an input changes before the transition runs: the ports and the pending bits only. And what a
step can do, said once. -/

namespace Sys2Proof.Machine

/-- `s1` is `s` but for the words on the ports, the arrivals still to come and the pending bits. -/
structure OnlyPend (s s1 : State) : Prop where
  params : s1.params = s.params
  txr : s1.txr = s.txr
  devs : s1.devs = s.devs
  answers : s1.answers = s.answers
  draws : s1.draws = s.draws
  resetReq : s1.resetReq = s.resetReq
  resp : s1.resp = s.resp
  out : s1.out = s.out
  bus : ∀ b, (s1.bus? b).map Bus.noPend = (s.bus? b).map Bus.noPend
  inv : s.Inv → s1.Inv

variable {s s1 s2 : State} {b : Byte} {c : BusCfg} {q : Bus}

theorem OnlyPend.trans (h : OnlyPend s s1) (h' : OnlyPend s1 s2) : OnlyPend s s2 where
  params := h'.params.trans h.params
  txr := h'.txr.trans h.txr
  devs := h'.devs.trans h.devs
  answers := h'.answers.trans h.answers
  draws := h'.draws.trans h.draws
  resetReq := h'.resetReq.trans h.resetReq
  resp := h'.resp.trans h.resp
  out := h'.out.trans h.out
  bus := fun b => (h'.bus b).trans (h.bus b)
  inv := fun hI => h'.inv (h.inv hI)

/-- Two states with the same tables and outputs differ on the ports only. -/
theorem OnlyPend.of_ports (hp : s1.params = s.params) (ht : s1.txr = s.txr) (hd : s1.devs = s.devs)
    (hb : s1.buses = s.buses) (ha : s1.answers = s.answers) (hw : s1.draws = s.draws) (hr : s1.resetReq = s.resetReq)
    (he : s1.resp = s.resp) (ho : s1.out = s.out) : OnlyPend s s1 :=
  ⟨hp, ht, hd, ha, hw, hr, he, ho, fun b => by rw [State.bus?_congr hp hb], fun hI => hI.congr hp ht hd hb⟩

theorem OnlyPend.refl (s : State) : OnlyPend s s := .of_ports rfl rfl rfl rfl rfl rfl rfl rfl rfl

@[simp] theorem Bus.noPend_setPend (q : Bus) (k : EventKind) (v : Bool) : (q.setPend k v).noPend = q.noPend := by
  cases k <;> rfl

theorem Bus.setPend_false_atReset (n : Nat) (k : EventKind) : (Bus.atReset n).setPend k false = Bus.atReset n := by
  cases k <;> rfl

/-- Writing a pending bit of an instance, set only where a Bus is registered. -/
theorem OnlyPend.setPend (hq : s.bus? b = some q) (k : EventKind) (v : Bool) (hv : v = true → q.cfg ≠ none) :
    OnlyPend s (s.setBus b (q.setPend k v)) := by
  refine ⟨rfl, rfl, rfl, rfl, rfl, rfl, rfl, rfl, fun b' => ?_, fun hI => ?_⟩
  · by_cases hb : b' = b
    · subst hb
      simp [State.bus?_setBus_self hq, hq]
    · rw [State.bus?_setBus_ne hb]
  · have hw := hI.bus hq
    refine hI.setBus hq ?_ fun h => by cases k <;> exact h
    by_cases hn : q.cfg = none
    · have hv' : v = false := by
        by_contra h
        exact hv (by simpa using h) hn
      rw [hv', hw.unregistered hn, Bus.setPend_false_atReset, ← hw.unregistered hn]
      exact hw
    · exact hw.setPend hn k v

theorem OnlyPend.latchEvent (s : State) (w : Half) : OnlyPend s (latchEvent s w) := by
  unfold Machine.latchEvent
  split
  · exact .refl s
  · split
    · exact .refl s
    · rename_i c q hr
      have := State.regBus?_eq_some.mp hr
      exact .setPend this.1 _ _ fun _ => by simp [this.2]

theorem OnlyPend.foldl (ws : List Half) : ∀ s, OnlyPend s (ws.foldl Machine.latchEvent s) := by
  induction ws with
  | nil => exact .refl
  | cons w ws ih => exact fun s => (OnlyPend.latchEvent s w).trans (ih _)

theorem OnlyPend.arrive (s : State) : OnlyPend s s.arrive := by
  unfold State.arrive
  split
  · exact .refl s
  · rename_i ws rest _
    exact (OnlyPend.of_ports (s := s) (s1 := { s with evDuring := rest }) rfl rfl rfl rfl rfl rfl rfl rfl rfl).trans (.foldl ws _)

theorem OnlyPend.clearPend (s : State) (k : EventKind) (b : Byte) : OnlyPend s (s.clearPend k b) := by
  unfold State.clearPend
  split
  · exact .refl s
  · exact .setPend (by assumption) _ _ (by simp)

theorem OnlyPend.arrive_of_ports (h : OnlyPend s s1) : OnlyPend s s1.arrive := h.trans (.arrive s1)

/-- An instance found before is found after, with the same content but for its pending bits. -/
theorem OnlyPend.bus_some (h : OnlyPend s s1) (hq : s.bus? b = some q) :
    ∃ q1, s1.bus? b = some q1 ∧ q1.noPend = q.noPend := by
  have := h.bus b
  rw [hq] at this
  cases h1 : s1.bus? b with
  | none => simp [h1] at this
  | some q1 => exact ⟨q1, rfl, by simpa [h1] using this⟩

theorem OnlyPend.symm_bus (h : OnlyPend s s1) (hq : s1.bus? b = some q) :
    ∃ q0, s.bus? b = some q0 ∧ q0.noPend = q.noPend := by
  have := h.bus b
  rw [hq] at this
  cases h1 : s.bus? b with
  | none => simp [h1] at this
  | some q1 => exact ⟨q1, rfl, by simpa [h1] using this.symm⟩

theorem OnlyPend.regBus_some (h : OnlyPend s s1) (hr : s.regBus? b = some (c, q)) :
    ∃ q1, s1.regBus? b = some (c, q1) ∧ q1.noPend = q.noPend := by
  obtain ⟨hq, hc⟩ := State.regBus?_eq_some.mp hr
  obtain ⟨q1, h1, he⟩ := h.bus_some hq
  exact ⟨q1, State.regBus?_eq_some.mpr ⟨h1, (congrArg Bus.cfg he).trans hc⟩, he⟩

theorem OnlyPend.symm_regBus (h : OnlyPend s s1) (hr : s1.regBus? b = some (c, q)) :
    ∃ q0, s.regBus? b = some (c, q0) ∧ q0.noPend = q.noPend := by
  obtain ⟨hq, hc⟩ := State.regBus?_eq_some.mp hr
  obtain ⟨q1, h1, he⟩ := h.symm_bus hq
  exact ⟨q1, State.regBus?_eq_some.mpr ⟨h1, (congrArg Bus.cfg he).trans hc⟩, he⟩

/-! ## What arrives is pending -/

/-- The registered buses of `s` are registered in `s1` as they were, with every pending bit that was set still set. -/
def PendKept (s s1 : State) : Prop :=
  ∀ b c q, s.regBus? b = some (c, q) → ∃ q1, s1.regBus? b = some (c, q1) ∧ ∀ k, q.pend k = true → q1.pend k = true

theorem PendKept.refl (s : State) : PendKept s s := fun _ _ q h => ⟨q, h, fun _ h => h⟩

theorem PendKept.trans (h : PendKept s s1) (h' : PendKept s1 s2) : PendKept s s2 := fun b c q hr => by
  obtain ⟨q1, h1, k1⟩ := h b c q hr
  obtain ⟨q2, h2, k2⟩ := h' b c q1 h1
  exact ⟨q2, h2, fun k hk => k2 k (k1 k hk)⟩

theorem Bus.pend_setPend_true (q : Bus) (k k' : EventKind) (h : q.pend k' = true ∨ k' = k) :
    (q.setPend k true).pend k' = true := by
  cases k <;> cases k' <;> simp_all [Bus.pend, Bus.setPend]

/-- An event of a registered bus sets its pending bit. -/
theorem latchEvent_pends {w : Half} {k : EventKind} (hd : decodeEvent w = .ok (k, b)) (hr : s.regBus? b = some (c, q)) :
    ∃ q1, (latchEvent s w).regBus? b = some (c, q1) ∧ q1.pend k = true := by
  obtain ⟨hq, hc⟩ := State.regBus?_eq_some.mp hr
  refine ⟨q.setPend k true, ?_, q.pend_setPend_true k k (.inr rfl)⟩
  simp only [latchEvent, hd, hr]
  exact State.regBus?_setBus_self hq (by cases k <;> exact hc)

theorem PendKept.latchEvent (s : State) (w : Half) : PendKept s (latchEvent s w) := by
  unfold Machine.latchEvent
  split
  · exact .refl s
  · rename_i k b _
    split
    · exact .refl s
    · rename_i c0 r hr
      intro b' c q hr'
      by_cases e : b' = b
      · subst e
        rw [hr] at hr'
        cases hr'
        obtain ⟨hq, hc⟩ := State.regBus?_eq_some.mp hr
        exact ⟨r.setPend k true, State.regBus?_setBus_self hq (by cases k <;> exact hc),
          fun k' h => r.pend_setPend_true k k' (.inl h)⟩
      · exact ⟨q, (State.regBus?_setBus_ne e _).trans hr', fun _ h => h⟩

theorem PendKept.foldl (ws : List Half) : ∀ s, PendKept s (ws.foldl Machine.latchEvent s) := by
  induction ws with
  | nil => exact fun s => .refl s
  | cons w ws ih => exact fun s => .trans (.latchEvent s w) (ih _)

/-- Every event of a registered bus among the words latched is pending after all of them. -/
theorem foldl_latchEvent_pends (ws : List Half) : ∀ {s : State} {w : Half} {k : EventKind} {b : Byte} {c : BusCfg}
    {q : Bus}, w ∈ ws → decodeEvent w = .ok (k, b) → s.regBus? b = some (c, q) →
    ∃ q1, (ws.foldl latchEvent s).regBus? b = some (c, q1) ∧ q1.pend k = true := by
  induction ws with
  | nil => exact fun h => absurd h List.not_mem_nil
  | cons w0 ws ih =>
    intro s w k b c q hm hd hr
    rcases List.mem_cons.mp hm with rfl | hm
    · obtain ⟨q1, h1, k1⟩ := latchEvent_pends hd hr
      obtain ⟨q2, h2, k2⟩ := PendKept.foldl ws _ b c q1 h1
      exact ⟨q2, h2, k2 k k1⟩
    · obtain ⟨q1, h1, -⟩ := PendKept.latchEvent s w0 b c q hr
      exact ih hm hd h1

theorem latchEvent_evDuring (s : State) (w : Half) : (latchEvent s w).evDuring = s.evDuring := by
  unfold latchEvent
  split
  · rfl
  · split <;> rfl

theorem foldl_latchEvent_evDuring (ws : List Half) : ∀ s, (ws.foldl latchEvent s).evDuring = s.evDuring := by
  induction ws with
  | nil => exact fun _ => rfl
  | cons w ws ih => exact fun s => (ih _).trans (latchEvent_evDuring s w)

/-- No instruction reads or writes the arrivals still to come. -/
theorem Effect.evDuring {i : Instr} {s' : State} (h : Effect i s s') : s'.evDuring = s.evDuring := by
  cases h <;> rfl

/-! ## The step -/

/-- What a chosen input leaves of the state. -/
def Selected.Ok (s : State) : Selected → Prop
  | .reset => s.resetReq = true
  | .run _ s1 => s.resetReq = false ∧ OnlyPend s s1
  | .illegal s1 => s.resetReq = false ∧ OnlyPend s s1
  | .dropped s1 => s.resetReq = false ∧ OnlyPend s s1
  | .idle => s.resetReq = false

theorem selectInput_ok (s : State) : (selectInput s).Ok s := by
  have hp : ∀ ws, OnlyPend s ({ s with evPort := ws } : State).arrive := fun ws =>
    .arrive_of_ports (.of_ports rfl rfl rfl rfl rfl rfl rfl rfl rfl)
  have hc : ∀ ws, OnlyPend s ({ s with cmdPort := ws } : State).arrive := fun ws =>
    .arrive_of_ports (.of_ports rfl rfl rfl rfl rfl rfl rfl rfl rfl)
  unfold selectInput
  split
  · assumption
  · rename_i hr
    have hr : s.resetReq = false := by simpa using hr
    split
    · exact ⟨hr, .arrive_of_ports (.clearPend ..)⟩
    · split
      · split
        · exact ⟨hr, hp _⟩
        · exact ⟨hr, hp _⟩
      · split
        · exact ⟨hr, hc _⟩
        · exact ⟨hr, hc _⟩
        · exact hr

/-- The state in which a chosen transition begins is one with the input taken and then the arrivals latched. -/
def Selected.Arrives (s : State) : Selected → Prop
  | .run _ s1 => ∃ s0, OnlyPend s s0 ∧ s0.evDuring = s.evDuring ∧ s1 = s0.arrive
  | .illegal s1 => ∃ s0, OnlyPend s s0 ∧ s0.evDuring = s.evDuring ∧ s1 = s0.arrive
  | .dropped s1 => ∃ s0, OnlyPend s s0 ∧ s0.evDuring = s.evDuring ∧ s1 = s0.arrive
  | .reset => True
  | .idle => s.pending? = none ∧ s.evPort = [] ∧ decodeCommand s.cmdPort = .incomplete

theorem selectInput_arrives (s : State) : (selectInput s).Arrives s := by
  have hp : ∀ ws, OnlyPend s ({ s with evPort := ws } : State) := fun ws => .of_ports rfl rfl rfl rfl rfl rfl rfl rfl rfl
  have hc : ∀ ws, OnlyPend s ({ s with cmdPort := ws } : State) := fun ws => .of_ports rfl rfl rfl rfl rfl rfl rfl rfl rfl
  unfold selectInput
  split
  · trivial
  · split
    · refine ⟨_, .clearPend .., ?_, rfl⟩
      unfold State.clearPend
      split <;> rfl
    · split
      · split
        · exact ⟨_, hp _, by rfl, rfl⟩
        · exact ⟨_, hp _, by rfl, rfl⟩
      · split
        · exact ⟨_, hc _, by rfl, rfl⟩
        · exact ⟨_, hc _, by rfl, rfl⟩
        · exact ⟨by assumption, by assumption, by assumption⟩

/-- EVERYTHING A STEP CAN DO from a state that meets the invariant. -/
inductive StepEffect (s : State) : State → Prop
  /-- The reset input. -/
  | reset (h : selectInput s = .reset) (hr : s.resetReq = true) : StepEffect s s.hardReset
  /-- The transition of an instruction. -/
  | run (i : Instr) (s1 s' : State) (h : selectInput s = .run i s1) (hr : s.resetReq = false) (hp : OnlyPend s s1)
      (hx : exec i s1 = .next s') (he : Effect i s1 s') : StepEffect s s'
  /-- An illegal command answered. -/
  | illegal (s1 : State) (h : selectInput s = .illegal s1) (hr : s.resetReq = false) (hp : OnlyPend s s1) :
      StepEffect s (s1.respond .errIllegal 0)
  /-- A word that is no event dropped. -/
  | dropped (s1 : State) (h : selectInput s = .dropped s1) (hr : s.resetReq = false) (hp : OnlyPend s s1) :
      StepEffect s s1
  /-- Nothing to do. -/
  | idle (h : selectInput s = .idle) (hr : s.resetReq = false) : StepEffect s s

theorem step_effect (hI : s.Inv) : ∃ s', step s = .next s' ∧ StepEffect s s' := by
  have hp := selectInput_ok s
  cases h : selectInput s with
  | reset => rw [h] at hp; exact ⟨_, by simp only [step, h], .reset h hp⟩
  | run i s1 =>
    rw [h] at hp
    obtain ⟨s', hx, he⟩ := exec_effect (hp.2.inv hI) i
    exact ⟨s', by simp only [step, h, hx], .run i s1 s' h hp.1 hp.2 hx he⟩
  | illegal s1 => rw [h] at hp; exact ⟨_, by simp only [step, h]; rfl, .illegal s1 h hp.1 hp.2⟩
  | dropped s1 => rw [h] at hp; exact ⟨_, by simp only [step, h], .dropped s1 h hp.1 hp.2⟩
  | idle => rw [h] at hp; exact ⟨_, by simp only [step, h], .idle h hp⟩

theorem effect_of_step (hI : s.Inv) {s' : State} (h : step s = .next s') : StepEffect s s' := by
  obtain ⟨s2, h2, he⟩ := step_effect hI
  rw [h2] at h
  cases h
  exact he

end Sys2Proof.Machine
end

