-- ==== Sys2Proof/Laws/Bus.lean ====
section
/-! SUPPORT. What one step can do to one registered bus, said once: its queue, its flags and the records put out. -/

namespace Sys2Proof.Machine

/-- The two buses have the same queue and the same flags; the latch and the pending bits may differ. -/
structure Bus.SameQueue (q q' : Bus) : Prop where
  slots : q'.slots = q.slots
  head : q'.head = q.head
  tail : q'.tail = q.tail
  count : q'.count = q.count
  busy : q'.busy = q.busy
  curValid : q'.curValid = q.curValid

variable {s s' s1 : State} {i : Instr} {b : Byte} {c : BusCfg} {q q' q1 : Bus} {x : Txn}

theorem Bus.SameQueue.refl (q : Bus) : q.SameQueue q := ⟨rfl, rfl, rfl, rfl, rfl, rfl⟩

theorem Bus.SameQueue.trans (h : q.SameQueue q1) (h' : q1.SameQueue q') : q.SameQueue q' :=
  ⟨h'.slots.trans h.slots, h'.head.trans h.head, h'.tail.trans h.tail, h'.count.trans h.count, h'.busy.trans h.busy,
    h'.curValid.trans h.curValid⟩

theorem Bus.SameQueue.of_noPend (h : q'.noPend = q.noPend) : q.SameQueue q' :=
  have h := fun {α : Type} (f : Bus → α) => congrArg f h
  ⟨h Bus.slots, h Bus.head, h Bus.tail, h Bus.count, h Bus.busy, h Bus.curValid⟩

theorem Bus.SameQueue.latch (q : Bus) (cause : Status) (ctx : Ctx) : q.SameQueue (q.latch cause ctx) := by
  unfold Bus.latch
  split <;> exact ⟨rfl, rfl, rfl, rfl, rfl, rfl⟩

theorem Bus.SameQueue.pushed (h : q.SameQueue q') (n : Nat) (x : Txn) : (q.pushed n x).SameQueue (q'.pushed n x) := by
  simp only [Bus.pushed, h.slots, h.tail, h.count]
  exact ⟨rfl, h.head, rfl, rfl, h.busy, h.curValid⟩

theorem Bus.SameQueue.popped (h : q.SameQueue q') (n : Nat) : (q.popped n).SameQueue (q'.popped n) := by
  simp only [Bus.popped, h.slots, h.head, h.count]
  exact ⟨rfl, rfl, h.tail, rfl, rfl, rfl⟩

theorem Bus.SameQueue.dispatched (h : q.SameQueue q') (a : Bool) (ctx : Ctx) :
    Bus.SameQueue { q with curValid := true, busy := a } (q'.dispatched a ctx) := by
  cases a
  · exact Bus.SameQueue.trans (q1 := { q' with curValid := true, busy := false })
      ⟨h.slots, h.head, h.tail, h.count, rfl, rfl⟩ (.latch _ _ _)
  · exact ⟨h.slots, h.head, h.tail, h.count, rfl, rfl⟩

/-- A submission runs `BUS_SET_TRANSACTION` of its bus (R169, R154, R139). -/
theorem exec_of_submission (h : submission s i = some (b, x)) : exec i s = busSetTransaction b x .fg s := by
  have hne : ∀ {b : Byte} {cq : BusCfg × Bus}, s.regBus? b = some cq → b ≠ 0 := fun h =>
    State.ne_zero_of_bus? (State.regBus?_eq_some.mp h).1
  cases i <;> first | cases h | dsimp only [submission] at h
  · split at h
    · rename_i y hy
      split at h
      · rename_i hp
        split at h
        · rename_i v hv
          split at h
          · rename_i hb
            cases h
            obtain ⟨cq, hcq⟩ := Option.isSome_iff_exists.mp hb
            have h0 := hne hcq
            simp only [exec, execTxsend, withTxr, deviceSubmit, hy, hp, hv, if_true, h0, if_false]
          · cases h
        · cases h
      · cases h
    · cases h
  · split at h
    · rename_i v y hv hy
      split at h
      · rename_i hb
        cases h
        obtain ⟨cq, hcq⟩ := Option.isSome_iff_exists.mp hb
        have h0 := hne hcq
        simp only [exec, execDevsub, withTxr, deviceSubmit, hy, hv, h0, if_false]
      · cases h
    · cases h
  · split at h
    · rename_i hb hy
      cases h
      simp only [exec, execBussub, withBus, withTxr, hb, hy]
    · cases h

/-- The records say nothing of a transfer of bus `b`. -/
def Quiet (b : Byte) (rs : List Record) : Prop := ∀ r ∈ rs, r.isInitiateOf b = false ∧ r.isPostOf b = false

theorem Quiet.nil (b : Byte) : Quiet b [] := by simp [Quiet]

theorem Quiet.append {b : Byte} {rs rs' : List Record} (h : Quiet b rs) (h' : Quiet b rs') : Quiet b (rs ++ rs') :=
  fun r hr => (List.mem_append.mp hr).elim (h r) (h' r)

theorem Quiet.one {b : Byte} {r : Record} (h : r.isInitiateOf b = false ∧ r.isPostOf b = false) : Quiet b [r] := by
  simpa [Quiet] using h

theorem Quiet.cbRecords_pre (x : Txn) (b b' : Byte) (ctx : Ctx) : Quiet b (x.cbRecords .pre b' ctx) := by
  unfold Txn.cbRecords
  split
  · exact .one ⟨rfl, rfl⟩
  · exact .nil b

theorem Quiet.cbRecords_ne {b b' : Byte} (h : b' ≠ b) (x : Txn) (kind : CbKind) (ctx : Ctx) :
    Quiet b (x.cbRecords kind b' ctx) := by
  unfold Txn.cbRecords
  split
  · exact .one ⟨rfl, by simp [Record.isPostOf, h]⟩
  · exact .nil b

theorem Quiet.dispatchRecords_ne {b b' : Byte} (h : b' ≠ b) (x : Txn) (p : Params) (c : BusCfg) (ctx : Ctx) (a : Bool) :
    Quiet b (x.dispatchRecords p c b' ctx a) := by
  refine .append (.append (.cbRecords_pre _ _ _ _) (.one ⟨by simp [Txn.initiateRecord, Record.isInitiateOf, h], rfl⟩)) ?_
  cases a
  · exact .one ⟨rfl, rfl⟩
  · exact .nil b

/-- What one step does to a registered bus `b` whose storage is `q`: the storage after, and the records put out. -/
inductive BusMove (s : State) (b : Byte) (c : BusCfg) (q : Bus) : Bus → List Record → Prop
  /-- Nothing of its queue or flags. -/
  | quiet (q' : Bus) (new : List Record) (hq : q.SameQueue q') (hn : Quiet b new) (hs : s.submitted b = []) :
      BusMove s b c q q' new
  /-- A submission joins the queue. -/
  | join (x : Txn) (q' : Bus) (hq : (q.pushed s.params.qcap x).SameQueue q') (hn : q.count ≠ s.params.qcap)
      (hx : x.Wf s.params) (h : ¬ (q.count = 0 ∧ q.busy = false)) (hs : s.submitted b = [x]) : BusMove s b c q q' []
  /-- A first submission finds the peripheral not idle. -/
  | notIdle (x : Txn) (q' : Bus) (hq : (q.pushed s.params.qcap x).SameQueue q') (hx : x.Wf s.params) (h : q.count = 0)
      (hs : s.submitted b = [x]) : BusMove s b c q q' [.idleq b]
  /-- A first submission is dispatched. -/
  | start (x : Txn) (a : Bool) (q' : Bus)
      (hq : Bus.SameQueue { q.pushed s.params.qcap x with curValid := true, busy := a } q') (hx : x.Wf s.params)
      (h : q.count = 0) (hs : s.submitted b = [x]) :
      BusMove s b c q q' ([.idleq b] ++ x.dispatchRecords s.params c b .fg a)
  /-- The transfer in flight has failed. -/
  | failed (q' : Bus) (he : s.endsTransfer b) (hb : q.busy = true) (hq : Bus.SameQueue { q with busy := false } q')
      (hs : s.submitted b = []) : BusMove s b c q q' [.errn b .errHwTransfer .irq]
  /-- The only queued transaction has completed. -/
  | completeLast (x : Txn) (q' : Bus) (s1 : State) (he : selectInput s = .run (.cplt b) s1) (hb : q.busy = true)
      (hx : q.slots.getD q.head none = some x) (hn : q.count = 1) (hq : (q.popped s.params.qcap).SameQueue q')
      (hs : s.submitted b = []) : BusMove s b c q q' (x.cbRecords .post b .irq)
  /-- A transaction has completed and its successor is dispatched. -/
  | completeNext (x y : Txn) (a : Bool) (q' : Bus) (s1 : State) (he : selectInput s = .run (.cplt b) s1)
      (hb : q.busy = true) (hx : q.slots.getD q.head none = some x) (hn : 1 < q.count)
      (hy : (q.popped s.params.qcap).slots.getD (q.popped s.params.qcap).head none = some y)
      (hq : Bus.SameQueue { q.popped s.params.qcap with curValid := true, busy := a } q') (hs : s.submitted b = []) :
      BusMove s b c q q' (x.cbRecords .post b .irq ++ y.dispatchRecords s.params c b .irq a)

/-- A write of an instance, read back at a registered bus. -/
theorem regBus?_after_setBus {b' : Byte} {r r0 : Bus} (hr : s.regBus? b = some (c, q)) (h0 : s.bus? b' = some r0)
    (hc : r.cfg = r0.cfg) (hp : s'.params = s.params) (hb : s'.buses = (s.setBus b' r).buses) :
    ∃ q', s'.regBus? b = some (c, q') ∧ (b' = b → q' = r ∧ r0 = q) ∧ (b' ≠ b → q' = q) := by
  have hs : s'.regBus? b = (s.setBus b' r).regBus? b := State.regBus?_congr (s := s') (s' := s.setBus b' r) hp hb b
  obtain ⟨hq, hqc⟩ := State.regBus?_eq_some.mp hr
  by_cases e : b' = b
  · subst e
    rw [hq] at h0
    cases h0
    exact ⟨r, hs.trans (State.regBus?_setBus_self hq (hc.trans hqc)), fun _ => ⟨rfl, rfl⟩, fun h => absurd rfl h⟩
  · exact ⟨q, by rw [hs, State.regBus?_setBus_ne (Ne.symm e)]; exact hr, fun h => absurd h e, fun _ => rfl⟩

/-- Without reset, what a step from a state that meets the invariant does to a registered bus. -/
theorem busMove_of_step (hI : s.Inv) (hr0 : s.resetReq = false) (h : step s = .next s')
    (hr : s.regBus? b = some (c, q)) :
    s'.params = s.params ∧ s'.resetReq = false ∧
      ∃ q' new, s'.regBus? b = some (c, q') ∧ s'.out = s.out ++ new ∧ BusMove s b c q q' new := by
  have hb0 : b ≠ 0 := State.ne_zero_of_bus? (State.regBus?_eq_some.mp hr).1
  cases effect_of_step hI h with
  | reset _ hrr => rw [hr0] at hrr; cases hrr
  | idle hsel => exact ⟨rfl, hr0, q, [], hr, by simp, .quiet q [] (.refl q) (.nil b) (by simp [State.submitted, hsel])⟩
  | dropped s1 hsel _ hp =>
    obtain ⟨q1, h1, he⟩ := hp.regBus_some hr
    exact ⟨hp.params, hp.resetReq.trans hr0, q1, [], h1, by simp [hp.out],
      .quiet q1 [] (.of_noPend he) (.nil b) (by simp [State.submitted, hsel])⟩
  | illegal s1 hsel _ hp =>
    obtain ⟨q1, h1, he⟩ := hp.regBus_some hr
    exact ⟨hp.params, hp.resetReq.trans hr0, q1, [], h1, by simp [hp.out],
      .quiet q1 [] (.of_noPend he) (.nil b) (by simp [State.submitted, hsel])⟩
  | run i s1 s' hsel _ hp hx he =>
    have hpp := hp.params
    have hpr := hp.resetReq.trans hr0
    have hI1 := hp.inv hI
    obtain ⟨q1, hr1, hnp⟩ := hp.regBus_some hr
    have hsq : q.SameQueue q1 := .of_noPend hnp
    have hq0 := (State.regBus?_eq_some.mp hr).1
    obtain ⟨hq1, hc1⟩ := State.regBus?_eq_some.mp hr1
    cases hsub : submission s1 i with
    | some bx =>
      obtain ⟨b', x⟩ := bx
      obtain ⟨⟨t, ht⟩, ⟨c', r⟩, hrr⟩ := submission_spec hsub
      obtain ⟨hr', hcr⟩ := State.regBus?_eq_some.mp hrr
      have hxw : x.Wf s.params := hpp ▸ hI1.txrs t x ht
      have hw := hI1.bus hr'
      have hsubm : s.submitted b = if b' = b ∧ q.count ≠ s.params.qcap then [x] else [] := by
        simp only [State.submitted, hsel, hsub, hq0]
      rw [exec_of_submission hsub] at hx
      by_cases hn : r.count = s1.params.qcap
      · rw [busSetTransaction_full hrr hn] at hx
        cases hx
        refine ⟨hpp, hpr, q1, [], hr1, by simp [hp.out], .quiet q1 [] hsq (.nil b) ?_⟩
        rw [hsubm, if_neg]
        rintro ⟨rfl, hne⟩
        rw [hq1] at hr'
        cases hr'
        exact hne (by rw [← hsq.count, hn, hpp])
      by_cases h0 : r.count = 0
      · cases ha : s1.nextAnswer
        · rw [busSetTransaction_notIdle hrr hn ⟨h0, (hw.idle_of_empty h0).1⟩ ha] at hx
          cases hx
          obtain ⟨q', hq', hself, hother⟩ := regBus?_after_setBus (s := s1.afterAnswer) (r := r.pushed s1.params.qcap x)
            (s' := ((s1.afterAnswer.setBus b' (r.pushed s1.params.qcap x)).emit [.idleq b']).respond .ok 0)
            hr1 hr' rfl rfl rfl
          refine ⟨hpp, hpr, q', [.idleq b'], hq', by simp [hp.out], ?_⟩
          by_cases e : b' = b
          · subst e
            obtain ⟨rfl, rfl⟩ := hself rfl
            refine .notIdle x _ (hpp ▸ hsq.pushed _ x) hxw (hsq.count ▸ h0) ?_
            rw [hsubm, if_pos ⟨rfl, by rw [← hsq.count, ← hpp]; exact hn⟩]
          · exact .quiet q' _ (hother e ▸ hsq) (.one ⟨rfl, rfl⟩) (by rw [hsubm, if_neg fun h => e h.1])
        · have hd := busSetTransaction_dispatch (x := x) (ctx := .fg) hrr hw h0 ha
          obtain ⟨s2, st, v, hs2, hd'⟩ : ∃ s2 st v, s2 = ((s1.afterAnswer.afterAnswer.setBus b'
              ((r.pushed s1.params.qcap x).dispatched s1.afterAnswer.nextAnswer .fg)).emit
                ([.idleq b'] ++ x.dispatchRecords s1.params c' b' .fg s1.afterAnswer.nextAnswer)).respond st v ∧
              busSetTransaction b' x .fg s1 = .next s2 := by
            cases ha' : s1.afterAnswer.nextAnswer
            · exact ⟨_, .errHwInitiate, 0, rfl, by
                simpa [ha', Bus.pushed, Bus.dispatched, Txn.dispatchRecords, h0] using hd⟩
            · exact ⟨_, .ok, 1, rfl, by simpa [ha', Bus.pushed, Bus.dispatched, Txn.dispatchRecords, h0] using hd⟩
          rw [hd'] at hx
          injection hx with hx
          subst hx
          obtain ⟨q', hq', hself, hother⟩ := regBus?_after_setBus (s := s1.afterAnswer.afterAnswer)
            (r := (r.pushed s1.params.qcap x).dispatched s1.afterAnswer.nextAnswer .fg) (s' := s2)
            hr1 hr' (Bus.cfg_dispatched _ _ _) (by rw [hs2]; rfl) (by rw [hs2]; rfl)
          refine ⟨by rw [hs2]; exact hpp, by rw [hs2]; exact hpr, q',
            [.idleq b'] ++ x.dispatchRecords s1.params c' b' .fg s1.afterAnswer.nextAnswer, hq',
            by rw [hs2]; simp [hp.out], ?_⟩
          by_cases e : b' = b
          · subst e
            obtain ⟨rfl, rfl⟩ := hself rfl
            rw [hr1] at hrr
            cases hrr
            rw [hpp]
            refine .start x s1.afterAnswer.nextAnswer _ ((hsq.pushed _ x).dispatched _ _) hxw (hsq.count ▸ h0) ?_
            rw [hsubm, if_pos ⟨rfl, by rw [← hsq.count, ← hpp]; exact hn⟩]
          · exact .quiet q' _ (hother e ▸ hsq) (.append (.one ⟨rfl, rfl⟩) (.dispatchRecords_ne e _ _ _ _ _))
              (by rw [hsubm, if_neg fun h => e h.1])
      · rw [busSetTransaction_join hrr hn fun h => h0 h.1] at hx
        cases hx
        obtain ⟨q', hq', hself, hother⟩ := regBus?_after_setBus (s := s1) (r := r.pushed s1.params.qcap x)
          (s' := (s1.setBus b' (r.pushed s1.params.qcap x)).respond .ok 0) hr1 hr' rfl rfl rfl
        refine ⟨hpp, hpr, q', [], hq', by simp [hp.out], ?_⟩
        by_cases e : b' = b
        · subst e
          obtain ⟨rfl, rfl⟩ := hself rfl
          have hn' : q.count ≠ s.params.qcap := by rw [← hsq.count, ← hpp]; exact hn
          refine .join x _ (hpp ▸ hsq.pushed _ x) hn' hxw (fun h => h0 (hsq.count ▸ h.1)) ?_
          rw [hsubm, if_pos ⟨rfl, hn'⟩]
        · exact .quiet q' _ (hother e ▸ hsq) (.nil b) (by rw [hsubm, if_neg fun h => e h.1])
    | none =>
      have hsubm : s.submitted b = [] := by simp only [State.submitted, hsel, hsub]
      have hquiet : ∀ new, s'.params = s1.params → s'.buses = s1.buses → s'.resetReq = s1.resetReq →
          s'.out = s1.out ++ new → Quiet b new → s'.params = s.params ∧ s'.resetReq = false ∧
            ∃ q' new, s'.regBus? b = some (c, q') ∧ s'.out = s.out ++ new ∧ BusMove s b c q q' new := by
        intro new h1 h2 h3 h4 h5
        exact ⟨h1.trans hpp, h3.trans hpr, q1, new, (State.regBus?_congr h1 h2 b).trans hr1, by rw [h4, hp.out],
          .quiet q1 new hsq h5 hsubm⟩
      cases he with
      | answer => exact hquiet [] rfl rfl rfl (by simp) (.nil b)
      | hook x kind => exact hquiet (x.cbRecords kind 0 .fg) rfl rfl rfl rfl (.cbRecords_ne (Ne.symm hb0) _ _ _)
      | stage => exact hquiet [] rfl rfl rfl (by simp) (.nil b)
      | device => exact hquiet [] rfl rfl rfl (by simp) (.nil b)
      | ignored => exact hquiet [] rfl rfl rfl (by simp) (.nil b)
      | route b' cls => exact hquiet _ rfl rfl rfl rfl (.one ⟨rfl, rfl⟩)
      | join b' x c' r hi => rw [hsub] at hi; cases hi
      | notIdle b' x c' r hi => rw [hsub] at hi; cases hi
      | start b' x c' r st v hi => rw [hsub] at hi; cases hi
      | register b' r c' hi hr' hn =>
        have e : b ≠ b' := by
          rintro rfl
          rw [hq1] at hr'
          cases hr'
          rw [hc1] at hn
          cases hn
        exact ⟨hpp, hpr, q1, [.bind b'], (State.regBus?_setBus_ne (s := s1) e _).trans hr1, by simp [hp.out],
          .quiet q1 _ hsq (.one ⟨rfl, rfl⟩) hsubm⟩
      | drain b' c' r v hi hrr =>
        obtain ⟨q', hq', hself, hother⟩ := regBus?_after_setBus (s := s1) (r := { r with err := none, errLost := false })
          (s' := (s1.setBus b' { r with err := none, errLost := false }).respond .ok v)
          hr1 (State.regBus?_eq_some.mp hrr).1 rfl rfl rfl
        refine ⟨hpp, hpr, q', [], hq', by simp [hp.out], .quiet q' _ ?_ (.nil b) hsubm⟩
        by_cases e : b' = b
        · obtain ⟨rfl, rfl⟩ := hself e
          exact hsq.trans ⟨rfl, rfl, rfl, rfl, rfl, rfl⟩
        · exact hother e ▸ hsq
      | spurious b' c' r hi hrr hb =>
        obtain ⟨q', hq', hself, hother⟩ := regBus?_after_setBus (s := s1) (r := r.latch .errHwSpurious .irq)
          (s' := (s1.setBus b' (r.latch .errHwSpurious .irq)).emit [.errn b' .errHwSpurious .irq])
          hr1 (State.regBus?_eq_some.mp hrr).1 (Bus.cfg_latch _ _ _) rfl rfl
        refine ⟨hpp, hpr, q', _, hq', by rw [State.emit_out, State.setBus_out, hp.out],
          .quiet q' _ ?_ (.one ⟨rfl, rfl⟩) hsubm⟩
        by_cases e : b' = b
        · obtain ⟨rfl, rfl⟩ := hself e
          exact hsq.trans (.latch ..)
        · exact hother e ▸ hsq
      | transferError b' c' r hi hrr hb =>
        obtain ⟨q', hq', hself, hother⟩ := regBus?_after_setBus (s := s1)
          (r := Bus.latch { r with busy := false } .errHwTransfer .irq)
          (s' := (s1.setBus b' (Bus.latch { r with busy := false } .errHwTransfer .irq)).emit
            [.errn b' .errHwTransfer .irq])
          hr1 (State.regBus?_eq_some.mp hrr).1 (Bus.cfg_latch _ _ _) rfl rfl
        refine ⟨hpp, hpr, q', [.errn b' .errHwTransfer .irq], hq', by simp [hp.out], ?_⟩
        by_cases e : b' = b
        · subst e
          obtain ⟨rfl, rfl⟩ := hself rfl
          subst hi
          refine .failed _ ⟨s1, .inr hsel⟩ (hsq.busy ▸ hb) ?_ hsubm
          exact Bus.SameQueue.trans (q1 := { r with busy := false })
            ⟨hsq.slots, hsq.head, hsq.tail, hsq.count, rfl, hsq.curValid⟩ (.latch _ _ _)
        · exact .quiet q' _ (hother e ▸ hsq) (.one ⟨rfl, rfl⟩) hsubm
      | completeLast b' c' r x hi hrr hb hx' hn =>
        obtain ⟨q', hq', hself, hother⟩ := regBus?_after_setBus (s := s1) (r := r.popped s1.params.qcap)
          (s' := (s1.setBus b' (r.popped s1.params.qcap)).emit (x.cbRecords .post b' .irq))
          hr1 (State.regBus?_eq_some.mp hrr).1 rfl rfl rfl
        refine ⟨hpp, hpr, q', x.cbRecords .post b' .irq, hq', by simp [hp.out], ?_⟩
        by_cases e : b' = b
        · subst e
          obtain ⟨rfl, rfl⟩ := hself rfl
          subst hi
          exact .completeLast x _ s1 hsel (hsq.busy ▸ hb) (by rw [← hsq.slots, ← hsq.head]; exact hx')
            (hsq.count ▸ hn) (hpp ▸ hsq.popped _) hsubm
        · exact .quiet q' _ (hother e ▸ hsq) (.cbRecords_ne e _ _ _) hsubm
      | completeNext b' c' r x y hi hrr hb hx' hn hy =>
        obtain ⟨q', hq', hself, hother⟩ := regBus?_after_setBus (s := s1.afterAnswer)
          (r := (r.popped s1.params.qcap).dispatched s1.nextAnswer .irq)
          (s' := (s1.afterAnswer.setBus b' ((r.popped s1.params.qcap).dispatched s1.nextAnswer .irq)).emit
            (x.cbRecords .post b' .irq ++ y.dispatchRecords s1.params c' b' .irq s1.nextAnswer))
          hr1 (State.regBus?_eq_some.mp hrr).1 (Bus.cfg_dispatched _ _ _) rfl rfl
        refine ⟨hpp, hpr, q', x.cbRecords .post b' .irq ++ y.dispatchRecords s1.params c' b' .irq s1.nextAnswer, hq',
          by simp [hp.out], ?_⟩
        by_cases e : b' = b
        · subst e
          obtain ⟨rfl, rfl⟩ := hself rfl
          subst hi
          rw [hr1] at hrr
          cases hrr
          have hpop := hsq.popped s.params.qcap
          rw [hpp] at hy ⊢
          exact .completeNext x y s1.nextAnswer _ s1 hsel (hsq.busy ▸ hb)
            (by rw [← hsq.slots, ← hsq.head]; exact hx') (hsq.count ▸ hn)
            (by rw [← hpop.slots, ← hpop.head]; exact hy) (hpop.dispatched _ _) hsubm
        · exact .quiet q' _ (hother e ▸ hsq) (.append (.cbRecords_ne e _ _ _) (.dispatchRecords_ne e _ _ _ _ _)) hsubm

end Sys2Proof.Machine
end

