-- ==== Sys2Proof/Laws/Decode.lean ====
section
/-! SUPPORT. The fields of headers, halves and event words read back what was put there, and the opcode map is
unambiguous. -/

namespace Sys2Proof

/-! ## Headers -/

theorem getLsbD_mkHeader (op a b f : Byte) (i : Nat) : (mkHeader op a b f).getLsbD i =
    if i < 8 then f.getLsbD i else if i < 16 then b.getLsbD (i - 8) else if i < 24 then a.getLsbD (i - 16)
    else op.getLsbD (i - 24) := by
  have h1 : (mkHeader op a b f).getLsbD i = _ := BitVec.getLsbD_append (x := op ++ a ++ b) (y := f)
  have h2 := BitVec.getLsbD_append (x := op ++ a) (y := b) (i := i - 8)
  have h3 := BitVec.getLsbD_append (x := op) (y := a) (i := i - 8 - 8)
  rw [h1, h2, h3, show i - 8 - 8 - 8 = i - 24 by omega, show i - 8 - 8 = i - 16 by omega]
  split_ifs <;> first | rfl | omega

@[simp] theorem hdrOp_mkHeader (op a b f : Byte) : hdrOp (mkHeader op a b f) = op := by
  refine BitVec.eq_of_getLsbD_eq fun i hi => ?_
  simp only [hdrOp, BitVec.getLsbD_extractLsb', getLsbD_mkHeader]
  rw [if_neg (by omega), if_neg (by omega), if_neg (by omega)]
  simp [hi]

@[simp] theorem hdrA_mkHeader (op a b f : Byte) : hdrA (mkHeader op a b f) = a := by
  refine BitVec.eq_of_getLsbD_eq fun i hi => ?_
  simp only [hdrA, BitVec.getLsbD_extractLsb', getLsbD_mkHeader]
  rw [if_neg (by omega), if_neg (by omega), if_pos (by omega)]
  simp [hi]

@[simp] theorem hdrB_mkHeader (op a b f : Byte) : hdrB (mkHeader op a b f) = b := by
  refine BitVec.eq_of_getLsbD_eq fun i hi => ?_
  simp only [hdrB, BitVec.getLsbD_extractLsb', getLsbD_mkHeader]
  rw [if_neg (by omega), if_pos (by omega)]
  simp [hi]

@[simp] theorem hdrF_mkHeader (op a b f : Byte) : hdrF (mkHeader op a b f) = f := by
  refine BitVec.eq_of_getLsbD_eq fun i hi => ?_
  simp only [hdrF, BitVec.getLsbD_extractLsb', getLsbD_mkHeader]
  simp [hi]

/-- A header is the concatenation of its fields. -/
@[simp] theorem mkHeader_fields (h : Word) : mkHeader (hdrOp h) (hdrA h) (hdrB h) (hdrF h) = h := by
  refine BitVec.eq_of_getLsbD_eq fun i hi => ?_
  simp only [getLsbD_mkHeader, hdrOp, hdrA, hdrB, hdrF, BitVec.getLsbD_extractLsb']
  split_ifs with h1 h2 h3
  · simp [h1]
  · rw [show 8 + (i - 8) = i by omega]; simp; omega
  · rw [show 16 + (i - 16) = i by omega]; simp; omega
  · rw [show 24 + (i - 24) = i by omega]; simp; omega

theorem mkHeader_and (op a b f op' a' b' f' : Byte) :
    mkHeader op a b f &&& mkHeader op' a' b' f' = mkHeader (op &&& op') (a &&& a') (b &&& b') (f &&& f') := by
  refine BitVec.eq_of_getLsbD_eq fun i hi => ?_
  simp only [BitVec.getLsbD_and, getLsbD_mkHeader]
  split_ifs <;> rfl

theorem mkHeader_inj {op a b f op' a' b' f' : Byte} :
    mkHeader op a b f = mkHeader op' a' b' f' ↔ op = op' ∧ a = a' ∧ b = b' ∧ f = f' := by
  constructor
  · intro h
    exact ⟨by simpa using congrArg hdrOp h, by simpa using congrArg hdrA h, by simpa using congrArg hdrB h,
      by simpa using congrArg hdrF h⟩
  · rintro ⟨rfl, rfl, rfl, rfl⟩
    rfl

/-! ## Halves -/

@[simp] theorem hiHalf_wordOfHalves (a b : Half) : hiHalf (wordOfHalves a b) = a := by
  refine BitVec.eq_of_getLsbD_eq fun i hi => ?_
  have h : (wordOfHalves a b).getLsbD (16 + i) = _ := BitVec.getLsbD_append (x := a) (y := b)
  simp only [hiHalf, BitVec.getLsbD_extractLsb', h]
  simp [hi]

@[simp] theorem loHalf_wordOfHalves (a b : Half) : loHalf (wordOfHalves a b) = b := by
  refine BitVec.eq_of_getLsbD_eq fun i hi => ?_
  have h : (wordOfHalves a b).getLsbD (0 + i) = _ := BitVec.getLsbD_append (x := a) (y := b)
  simp only [loHalf, BitVec.getLsbD_extractLsb', h]
  simp [hi]

/-- A word is the concatenation of its halves. -/
@[simp] theorem wordOfHalves_halves (w : Word) : wordOfHalves (hiHalf w) (loHalf w) = w := by
  refine BitVec.eq_of_getLsbD_eq fun i hi => ?_
  have h : (wordOfHalves (hiHalf w) (loHalf w)).getLsbD i = _ := BitVec.getLsbD_append (x := hiHalf w) (y := loHalf w)
  rw [h]
  split_ifs with h1
  · simp [loHalf, h1]
  · simp only [hiHalf, BitVec.getLsbD_extractLsb']
    rw [show 16 + (i - 16) = i by omega]; simp; omega

/-! ## One-bit codes and the flag field -/

@[simp] theorem Dir.ofBit_bit (d : Dir) : Dir.ofBit d.bit = d := by cases d <;> rfl
@[simp] theorem Dir.bit_ofBit (v : Bool) : (Dir.ofBit v).bit = v := by cases v <;> rfl
@[simp] theorem AddrMode.ofBit_bit (m : AddrMode) : AddrMode.ofBit m.bit = m := by cases m <;> rfl
@[simp] theorem AddrMode.bit_ofBit (v : Bool) : (AddrMode.ofBit v).bit = v := by cases v <;> rfl

@[simp] theorem BusFlags.ofF_bits (g : BusFlags) : BusFlags.ofF (0#2 ++ g.bits) = g := by
  obtain ⟨m, d, r, a, b, c⟩ := g
  cases m <;> cases r <;> revert d a b c <;> decide

@[simp] theorem fRegw_encodeFT (regw : BitVec 2) (v : Bool) : fRegw (encodeFT regw v) = regw := by
  revert regw v; decide

@[simp] theorem getLsbD_encodeFT (regw : BitVec 2) (v : Bool) : (encodeFT regw v).getLsbD 0 = v := by
  revert regw v; decide

/-- The first bit of a Format T flag field is the direction, read by its index. -/
@[simp] theorem getElem_encodeFT (regw : BitVec 2) (v : Bool) : (encodeFT regw v)[0] = v := by
  revert regw v; decide

@[simp] theorem encodeFT_reserved (regw : BitVec 2) (v : Bool) : encodeFT regw v &&& 248#8 = 0#8 := by
  revert regw v; decide

@[simp] theorem encodeFT_false_reserved (regw : BitVec 2) : encodeFT regw false &&& 249#8 = 0#8 := by
  revert regw; decide

@[simp] theorem flagField_reserved (g : BusFlags) : 0#2 ++ g.bits &&& 192#8 = 0#8 := by
  obtain ⟨m, d, r, a, b, c⟩ := g
  cases m <;> cases r <;> revert d a b c <;> decide

@[simp] theorem selField1_reserved (sel : BitVec 1) : 0#7 ++ sel &&& 254#8 = 0#8 := by revert sel; decide
@[simp] theorem selField2_reserved (sel : BitVec 2) : 0#6 ++ sel &&& 252#8 = 0#8 := by revert sel; decide
@[simp] theorem selField3_reserved (sel : BitVec 3) : 0#5 ++ sel &&& 248#8 = 0#8 := by revert sel; decide
@[simp] theorem selField1_extract (sel : BitVec 1) : (0#7 ++ sel).extractLsb' 0 1 = sel := by revert sel; decide
@[simp] theorem selField2_extract (sel : BitVec 2) : (0#6 ++ sel).extractLsb' 0 2 = sel := by revert sel; decide
@[simp] theorem selField3_extract (sel : BitVec 3) : (0#5 ++ sel).extractLsb' 0 3 = sel := by revert sel; decide
@[simp] theorem modeField_bit (v : Bool) : (0#7 ++ BitVec.ofBool v)[0] = v := by revert v; decide

/-- A flag field with its reserved bits zero is the concatenation of its used part and zeros. -/
theorem flagField_eta :
    (∀ f : Byte, f &&& 248#8 = 0#8 → encodeFT (fRegw f) (f.getLsbD 0) = f) ∧
    (∀ f : Byte, f &&& 249#8 = 0#8 → encodeFT (fRegw f) false = f) ∧
    (∀ f : Byte, f &&& 248#8 = 0#8 → 0#5 ++ f.extractLsb' 0 3 = f) ∧
    (∀ f : Byte, f &&& 252#8 = 0#8 → 0#6 ++ f.extractLsb' 0 2 = f) ∧
    (∀ f : Byte, f &&& 254#8 = 0#8 → 0#7 ++ f.extractLsb' 0 1 = f) ∧
    (∀ f : Byte, f &&& 254#8 = 0#8 → 0#7 ++ BitVec.ofBool (f.getLsbD 0) = f) ∧
    (∀ f : Byte, f &&& 192#8 = 0#8 → 0#2 ++ (BusFlags.ofF f).bits = f) := by
  set_option maxRecDepth 10000 in
  refine ⟨?_, ?_, ?_, ?_, ?_, ?_, ?_⟩ <;> decide

/-! ## The opcode map (R90) -/

/-- No two rows of R90 have the same `OP`. -/
@[simp] theorem Opcode.ofByte_code (o : Opcode) : Opcode.ofByte o.code = some o := by cases o <;> rfl

theorem Opcode.code_of_ofByte {op : Byte} {o : Opcode} (h : Opcode.ofByte op = some o) : op = o.code := by
  have := List.find?_some h
  simpa using (beq_iff_eq.mp this).symm

theorem Opcode.tableMask_eq (o : Opcode) : o.tableMask = mkHeader 0xFF (~~~o.aMask) (~~~o.bMask) (~~~o.fMask) := by
  cases o <;> rfl

theorem Opcode.tableMatch_eq (o : Opcode) : o.tableMatch = mkHeader o.code 0 0 0 := by cases o <;> rfl

/-- The decoder's header check is the mask and match of `opcode_table.json`. -/
theorem headerOk_iff {o : Opcode} {h : Word} (ho : hdrOp h = o.code) :
    headerOk o h = true ↔ h &&& o.tableMask = o.tableMatch := by
  have hand : h &&& o.tableMask =
      mkHeader (hdrOp h &&& 0xFF) (hdrA h &&& ~~~o.aMask) (hdrB h &&& ~~~o.bMask) (hdrF h &&& ~~~o.fMask) := by
    rw [o.tableMask_eq, ← mkHeader_and, mkHeader_fields]
  have hcode : hdrOp h &&& 0xFF = o.code := by
    rw [ho]
    cases o <;> rfl
  rw [hand, o.tableMatch_eq, mkHeader_inj, hcode]
  simp [headerOk, and_assoc]

/-! ## Decoding a whole command -/

/-- What a header of opcode `o` with the words after it decodes to. -/
theorem decodeCommand_cons {o : Opcode} {h : Word} {tl : List Word} (ho : hdrOp h = o.code)
    (hl : o.operands ≤ tl.length) :
    decodeCommand (h :: tl) =
      if headerOk o h then
        match decodeBody o h (tl.getD 0 0) (tl.getD 1 0) (tl.getD 2 0) with
        | .ok i => .instr i (tl.drop o.operands)
        | .error e => .illegal e (tl.drop o.operands)
      else .illegal .reservedHeader (tl.drop o.operands) := by
  simp only [decodeCommand, ho, Opcode.ofByte_code]
  exact (if_neg (by omega)).trans rfl

/-- Only a whole legal command decodes to an instruction. -/
theorem decodeCommand_instr {ws : List Word} {i : Instr} {rest : List Word} (hd : decodeCommand ws = .instr i rest) :
    ∃ o h tl, ws = h :: tl ∧ hdrOp h = o.code ∧ o.operands ≤ tl.length ∧ headerOk o h = true ∧
      decodeBody o h (tl.getD 0 0) (tl.getD 1 0) (tl.getD 2 0) = .ok i ∧ rest = tl.drop o.operands := by
  cases ws with
  | nil => cases hd
  | cons h tl =>
    simp only [decodeCommand] at hd
    split at hd
    · cases hd
    · rename_i o ho
      split_ifs at hd with hl hk
      · split at hd
        · rename_i j hb
          cases hd
          exact ⟨o, h, tl, rfl, Opcode.code_of_ofByte ho, by omega, hk, hb, rfl⟩
        · cases hd

theorem checkT_eq_ok {fromDevice : Bool} {f : Byte} {w1 w3 : Word} {i j : Instr} :
    checkT fromDevice f w1 w3 i = .ok j ↔
      fRegw f ≠ 3 ∧ hiHalf w3 = 0 ∧ (fromDevice = true → hiHalf w1 = 0) ∧ i = j := by
  unfold checkT
  split_ifs <;> simp_all

/-! ## Event words (R95) -/

theorem getLsbD_mkEvent (kind : BitVec 4) (cls : Bool) (inst : Byte) (i : Nat) : (mkEvent kind cls inst).getLsbD i =
    if i < 8 then inst.getLsbD i else if i < 9 then cls else if i < 12 then false else kind.getLsbD (i - 12) := by
  have h1 : (mkEvent kind cls inst).getLsbD i = _ :=
    BitVec.getLsbD_append (x := kind ++ 0#3 ++ BitVec.ofBool cls) (y := inst)
  have h2 := BitVec.getLsbD_append (x := kind ++ 0#3) (y := BitVec.ofBool cls) (i := i - 8)
  have h3 := BitVec.getLsbD_append (x := kind) (y := 0#3) (i := i - 8 - 1)
  rw [h1, h2, h3, show i - 8 - 1 - 3 = i - 12 by omega]
  split_ifs <;> first | rfl | omega | simp_all

/-- An event word with its reserved bits zero is the concatenation of its fields. -/
theorem mkEvent_fields {w : Half} (h : w.extractLsb' 9 3 = 0) :
    mkEvent (w.extractLsb' 12 4) (w.getLsbD 8) (w.extractLsb' 0 8) = w := by
  refine BitVec.eq_of_getLsbD_eq fun i hi => ?_
  simp only [getLsbD_mkEvent, BitVec.getLsbD_extractLsb']
  split_ifs with h1 h2 h3
  · simp [h1]
  · rw [show i = 8 by omega]
  · have := congrArg (fun v => v.getLsbD (i - 9)) h
    simp only [BitVec.getLsbD_extractLsb', show 9 + (i - 9) = i by omega, show i - 9 < 3 by omega] at this
    simpa using this.symm
  · rw [show 12 + (i - 12) = i by omega]; simp; omega

@[simp] theorem decodeEvent_encodeEvent (k : EventKind) (b : Byte) : decodeEvent (encodeEvent k b) = .ok (k, b) := by
  cases k <;> revert b <;> decide

end Sys2Proof
end

