-- ==== Sys2Proof/Laws/PerInstr.lean ====
section
/-! SUPPORT. The family TableRow: every instruction's encoding fits its row of `opcode_table.json`, in the bits the row
fixes and in its length. -/

namespace Sys2Proof.Laws.TableRow

/-- The row of an instruction: of a command its opcode, of an event its fixed bits. -/
def rowOf : Instr → Opcode ⊕ Half
  | .txnew _ _ _ _ _ _ _ => .inl .txnew
  | .txrd _ _ _ _ _ _ => .inl .txrd
  | .txwr _ _ _ _ _ _ => .inl .txwr
  | .txpre _ _ _ => .inl .txpre
  | .txpost _ _ _ => .inl .txpost
  | .txsend _ => .inl .txsend
  | .txcbpre _ => .inl .txcbpre
  | .txcbpost _ => .inl .txcbpost
  | .txget _ _ => .inl .txget
  | .devnew _ _ _ _ => .inl .devnew
  | .devatt _ _ => .inl .devatt
  | .devdet _ => .inl .devdet
  | .devsub _ _ => .inl .devsub
  | .devget _ _ => .inl .devget
  | .businit _ _ _ _ _ _ => .inl .businit
  | .bussub _ _ => .inl .bussub
  | .busnum _ => .inl .busnum
  | .busstat _ => .inl .busstat
  | .buserr _ => .inl .buserr
  | .buscfg _ _ => .inl .buscfg
  | .addrchk _ _ => .inl .addrchk
  | .qsize _ => .inl .qsize
  | .qempty _ => .inl .qempty
  | .qhasdata _ => .inl .qhasdata
  | .qfull _ => .inl .qfull
  | .qpeek _ _ => .inl .qpeek
  | .irqEv _ => .inr 0x1000
  | .irqEr _ => .inr 0x1100
  | .cplt _ => .inr 0x2000
  | .xerr _ => .inr 0x3000

/-- The port words `ws` fit row `r`: the header matches under the row's mask and the length is that of its format, or the
event word has the row's fixed bits. -/
def Fits (r : Opcode ⊕ Half) (ws : PortWords) : Prop :=
  match r, ws with
  | .inl o, .command (h :: tl) => h &&& o.tableMask = o.tableMatch ∧ tl.length = o.operands
  | .inr m, .event w => w &&& 0xFF00 = m
  | _, _ => False

/-- The instruction's encoding fits its row. -/
def Statement (i : Instr) : Prop := Fits (rowOf i) (encode i)

/-- A header fits the row of its opcode when its fields have no bit outside the row's. -/
theorem header_fits (o : Opcode) {a b f : Byte} (ha : a &&& ~~~o.aMask = 0) (hb : b &&& ~~~o.bMask = 0)
    (hf : f &&& ~~~o.fMask = 0) : mkHeader o.code a b f &&& o.tableMask = o.tableMatch := by
  rw [o.tableMask_eq, o.tableMatch_eq, mkHeader_and, ha, hb, hf, mkHeader_inj]
  exact ⟨by cases o <;> rfl, rfl, rfl, rfl⟩

/-- No bit lies outside a field that is used whole. -/
theorem and_not_all (a : Byte) : a &&& ~~~(0xFF : Byte) = 0 := by revert a; decide

/-- A field that is zero has no bit outside any mask. -/
theorem zero_and (m : Byte) : (0 : Byte) &&& m = 0 := by simp

theorem txnew (t : Byte) (dir : Dir) (addr : Half) (regaddr : Half) (regw : BitVec 2) (buf : Word) (len : Half) :
    Statement (.txnew t dir addr regaddr regw buf len) :=
  ⟨header_fits .txnew (and_not_all _) (zero_and _) (encodeFT_reserved _ _), rfl⟩

theorem txrd (t : Byte) (d : Byte) (regaddr : Half) (regw : BitVec 2) (buf : Word) (len : Half) :
    Statement (.txrd t d regaddr regw buf len) :=
  ⟨header_fits .txrd (and_not_all _) (and_not_all _) (encodeFT_false_reserved _), rfl⟩

theorem txwr (t : Byte) (d : Byte) (regaddr : Half) (regw : BitVec 2) (buf : Word) (len : Half) :
    Statement (.txwr t d regaddr regw buf len) :=
  ⟨header_fits .txwr (and_not_all _) (and_not_all _) (encodeFT_false_reserved _), rfl⟩

theorem txpre (t : Byte) (fn : Word) (arg : Word) : Statement (.txpre t fn arg) :=
  ⟨header_fits .txpre (and_not_all _) (zero_and _) (zero_and _), rfl⟩

theorem txpost (t : Byte) (fn : Word) (arg : Word) : Statement (.txpost t fn arg) :=
  ⟨header_fits .txpost (and_not_all _) (zero_and _) (zero_and _), rfl⟩

theorem txsend (t : Byte) : Statement (.txsend t) :=
  ⟨header_fits .txsend (and_not_all _) (zero_and _) (zero_and _), rfl⟩

theorem txcbpre (t : Byte) : Statement (.txcbpre t) :=
  ⟨header_fits .txcbpre (and_not_all _) (zero_and _) (zero_and _), rfl⟩

theorem txcbpost (t : Byte) : Statement (.txcbpost t) :=
  ⟨header_fits .txcbpost (and_not_all _) (zero_and _) (zero_and _), rfl⟩

theorem txget (t : Byte) (sel : BitVec 3) : Statement (.txget t sel) :=
  ⟨header_fits .txget (and_not_all _) (zero_and _) (selField3_reserved _), rfl⟩

theorem devnew (d : Byte) (b : Byte) (addr : Half) (name : Word) : Statement (.devnew d b addr name) :=
  ⟨header_fits .devnew (and_not_all _) (and_not_all _) (zero_and _), rfl⟩

theorem devatt (d : Byte) (b : Byte) : Statement (.devatt d b) :=
  ⟨header_fits .devatt (and_not_all _) (and_not_all _) (zero_and _), rfl⟩

theorem devdet (d : Byte) : Statement (.devdet d) :=
  ⟨header_fits .devdet (and_not_all _) (zero_and _) (zero_and _), rfl⟩

theorem devsub (d : Byte) (t : Byte) : Statement (.devsub d t) :=
  ⟨header_fits .devsub (and_not_all _) (and_not_all _) (zero_and _), rfl⟩

theorem devget (d : Byte) (sel : BitVec 1) : Statement (.devget d sel) :=
  ⟨header_fits .devget (and_not_all _) (zero_and _) (selField1_reserved _), rfl⟩

theorem businit (b : Byte) (name : Word) (clk : Word) (flags : BusFlags) (own1 : Half) (own2 : Half) :
    Statement (.businit b name clk flags own1 own2) :=
  ⟨header_fits .businit (and_not_all _) (zero_and _) (flagField_reserved _), rfl⟩

theorem bussub (b : Byte) (t : Byte) : Statement (.bussub b t) :=
  ⟨header_fits .bussub (and_not_all _) (and_not_all _) (zero_and _), rfl⟩

theorem busnum (b : Byte) : Statement (.busnum b) :=
  ⟨header_fits .busnum (and_not_all _) (zero_and _) (zero_and _), rfl⟩

theorem busstat (b : Byte) : Statement (.busstat b) :=
  ⟨header_fits .busstat (and_not_all _) (zero_and _) (zero_and _), rfl⟩

theorem buserr (b : Byte) : Statement (.buserr b) :=
  ⟨header_fits .buserr (and_not_all _) (zero_and _) (zero_and _), rfl⟩

theorem buscfg (b : Byte) (sel : BitVec 2) : Statement (.buscfg b sel) :=
  ⟨header_fits .buscfg (and_not_all _) (zero_and _) (selField2_reserved _), rfl⟩

theorem addrchk (mode : AddrMode) (address : Word) : Statement (.addrchk mode address) :=
  ⟨header_fits .addrchk (zero_and _) (zero_and _) (by cases mode <;> rfl), rfl⟩

theorem qsize (b : Byte) : Statement (.qsize b) :=
  ⟨header_fits .qsize (and_not_all _) (zero_and _) (zero_and _), rfl⟩

theorem qempty (b : Byte) : Statement (.qempty b) :=
  ⟨header_fits .qempty (and_not_all _) (zero_and _) (zero_and _), rfl⟩

theorem qhasdata (b : Byte) : Statement (.qhasdata b) :=
  ⟨header_fits .qhasdata (and_not_all _) (zero_and _) (zero_and _), rfl⟩

theorem qfull (b : Byte) : Statement (.qfull b) :=
  ⟨header_fits .qfull (and_not_all _) (zero_and _) (zero_and _), rfl⟩

theorem qpeek (b : Byte) (sel : BitVec 3) : Statement (.qpeek b sel) :=
  ⟨header_fits .qpeek (and_not_all _) (zero_and _) (selField3_reserved _), rfl⟩

theorem irqEv (b : Byte) : Statement (.irqEv b) := by
  simp only [Statement, Fits, rowOf, encode]
  revert b
  decide

theorem irqEr (b : Byte) : Statement (.irqEr b) := by
  simp only [Statement, Fits, rowOf, encode]
  revert b
  decide

theorem cplt (b : Byte) : Statement (.cplt b) := by
  simp only [Statement, Fits, rowOf, encode]
  revert b
  decide

theorem xerr (b : Byte) : Statement (.xerr b) := by
  simp only [Statement, Fits, rowOf, encode]
  revert b
  decide

end Sys2Proof.Laws.TableRow
end

