-- ==== Sys2Proof/Machine/Assembly.lean ====
section
/-! DEFINITION. The assembler syntax of `30_encoding.md` rules R99 and R101: the text of an instruction and of a backend's
answer, and how such text is read. Numbers are written in decimal and read in any base of `00_scope.md` rule R9. -/

namespace Sys2Proof.Machine

/-! ## Writing -/

/-- A number in decimal (R9). -/
def numText {w : Nat} (v : BitVec w) : String := toString v.toNat

/-- `t<n>` (R99). -/
def txrText (t : Byte) : String := "t" ++ numText t

/-- `d<n>` (R99). -/
def devText (d : Byte) : String := "d" ++ numText d

/-- `b<n>` (R99). -/
def busText (b : Byte) : String := "b" ++ numText b

/-- `b|none` of DEVNEW (R99, R151). -/
def busOrNoneText (b : Byte) : String := if b = 0 then "none" else busText b

/-- `W|R` (R99). -/
def dirText : Dir → String
  | .write => "W"
  | .read => "R"

/-- `7|10` (R99). -/
def modeText : AddrMode → String
  | .bits7 => "7"
  | .bits10 => "10"

/-- `regw`, one of none, 8, 16 (R99); the reserved value 3 has no text (R93). -/
def regwText (regw : BitVec 2) : Option String :=
  match regw.toNat with
  | 0 => some "none"
  | 1 => some "8"
  | 2 => some "16"
  | _ => none

/-- The `|`-list of the flags that are set, or 0 (R99). -/
def flagsText (g : BusFlags) : String :=
  let names :=
    (if g.addrMode = .bits10 then ["A10"] else []) ++ (if g.duty then ["DUTY"] else []) ++
    (if g.role = .slave then ["SLAVE"] else []) ++ (if g.dual then ["DUAL"] else []) ++
    (if g.nostretch then ["NOSTRETCH"] else []) ++ (if g.gencall then ["GENCALL"] else [])
  if names.isEmpty then "0" else "|".intercalate names

/-- One line: the mnemonic, then the operands separated by commas (R99). -/
def lineText (mnemonic : String) (operands : List String) : String := mnemonic ++ " " ++ ", ".intercalate operands

/-- The operands `regaddr/regw, buf, len` after the others (R99). -/
def transferText (mnemonic : String) (first : List String) (regaddr : Half) (regw : BitVec 2) (buf : Word) (len : Half) :
    Option String :=
  match regwText regw with
  | none => none
  | some r => some (lineText mnemonic (first ++ [numText regaddr ++ "/" ++ r, numText buf, numText len]))

/-- The text of an instruction (R99); `none` where it has no encoding (R93). -/
def asmText : Instr → Option String
  | .txnew t dir addr regaddr regw buf len =>
    transferText "TXNEW" [txrText t, dirText dir, numText addr] regaddr regw buf len
  | .txrd t d regaddr regw buf len => transferText "TXRD" [txrText t, devText d] regaddr regw buf len
  | .txwr t d regaddr regw buf len => transferText "TXWR" [txrText t, devText d] regaddr regw buf len
  | .txpre t fn arg => some (lineText "TXPRE" [txrText t, numText fn, numText arg])
  | .txpost t fn arg => some (lineText "TXPOST" [txrText t, numText fn, numText arg])
  | .txsend t => some (lineText "TXSEND" [txrText t])
  | .txcbpre t => some (lineText "TXCBPRE" [txrText t])
  | .txcbpost t => some (lineText "TXCBPOST" [txrText t])
  | .txget t sel => some (lineText "TXGET" [txrText t, numText sel])
  | .devnew d b addr name => some (lineText "DEVNEW" [devText d, busOrNoneText b, numText addr, numText name])
  | .devatt d b => some (lineText "DEVATT" [devText d, busText b])
  | .devdet d => some (lineText "DEVDET" [devText d])
  | .devsub d t => some (lineText "DEVSUB" [devText d, txrText t])
  | .devget d sel => some (lineText "DEVGET" [devText d, numText sel])
  | .businit b name clk flags own1 own2 =>
    some (lineText "BUSINIT" [busText b, numText name, numText clk, flagsText flags, numText own1, numText own2])
  | .bussub b t => some (lineText "BUSSUB" [busText b, txrText t])
  | .busnum b => some (lineText "BUSNUM" [busText b])
  | .busstat b => some (lineText "BUSSTAT" [busText b])
  | .buserr b => some (lineText "BUSERR" [busText b])
  | .buscfg b sel => some (lineText "BUSCFG" [busText b, numText sel])
  | .addrchk mode address => some (lineText "ADDRCHK" [modeText mode, numText address])
  | .qsize b => some (lineText "QSIZE" [busText b])
  | .qempty b => some (lineText "QEMPTY" [busText b])
  | .qhasdata b => some (lineText "QHASDATA" [busText b])
  | .qfull b => some (lineText "QFULL" [busText b])
  | .qpeek b sel => some (lineText "QPEEK" [busText b, numText sel])
  | .irqEv b => some (lineText "IRQ.EV" [busText b])
  | .irqEr b => some (lineText "IRQ.ER" [busText b])
  | .cplt b => some (lineText "CPLT" [busText b])
  | .xerr b => some (lineText "XERR" [busText b])

/-- The text of the backend's answer after the record it answers (R99); the other records have no answer (R97). -/
def answerText (answer : Bool) : Record → Option String
  | .idleq _ => some (if answer then "-> idle" else "-> notidle")
  | .initiate _ _ _ _ _ _ _ => some (if answer then "-> ok" else "-> fail")
  | .bind _ => none
  | .birq _ _ => none
  | .cb _ _ _ _ _ => none
  | .errn _ _ _ => none

/-! ## Reading -/

/-- The value of a digit, of a base up to 16 (R9). -/
def digitValue (c : Char) : Option Nat :=
  if c.isDigit then some (c.toNat - '0'.toNat)
  else if 'a' ≤ c ∧ c ≤ 'f' then some (c.toNat - 'a'.toNat + 10)
  else if 'A' ≤ c ∧ c ≤ 'F' then some (c.toNat - 'A'.toNat + 10)
  else none

/-- The number whose digits follow those of `acc`. -/
def readDigits (base acc : Nat) : List Char → Option Nat
  | [] => some acc
  | c :: cs =>
    match digitValue c with
    | some d => if d < base then readDigits base (acc * base + d) cs else none
    | none => none

/-- A number: hexadecimal after `0x`, binary after `0b`, otherwise decimal (R9). -/
def readNat : List Char → Option Nat
  | [] => none
  | '0' :: 'x' :: c :: cs => readDigits 16 0 (c :: cs)
  | '0' :: 'b' :: c :: cs => readDigits 2 0 (c :: cs)
  | c :: cs => readDigits 10 0 (c :: cs)

/-- A number that fits in `w` bits. -/
def readBits (w : Nat) (cs : List Char) : Option (BitVec w) :=
  match readNat cs with
  | some n => if n < 2 ^ w then some (BitVec.ofNat w n) else none
  | none => none

/-- A handle: its letter and its number (R99). -/
def readHandle (letter : Char) : List Char → Option Byte
  | [] => none
  | c :: cs => if c = letter then readBits 8 cs else none

/-- `b|none` of DEVNEW (R99, R151). -/
def readBusOrNone (cs : List Char) : Option Byte := if cs = "none".toList then some 0 else readHandle 'b' cs

/-- `W|R` (R99). -/
def readDir (cs : List Char) : Option Dir :=
  if cs = ['W'] then some .write else if cs = ['R'] then some .read else none

/-- `7|10` (R99). -/
def readMode (cs : List Char) : Option AddrMode :=
  match readNat cs with
  | some 7 => some .bits7
  | some 10 => some .bits10
  | _ => none

/-- `regw` (R99). -/
def readRegw (cs : List Char) : Option (BitVec 2) :=
  if cs = "none".toList then some 0
  else
    match readNat cs with
    | some 8 => some 1
    | some 16 => some 2
    | _ => none

/-- The text without the blanks around it. -/
def trimmed (cs : List Char) : List Char :=
  ((cs.dropWhile Char.isWhitespace).reverse.dropWhile Char.isWhitespace).reverse

/-- `regaddr/regw` (R99). -/
def readRegister (cs : List Char) : Option (Half × BitVec 2) :=
  match (cs.splitOn '/').map trimmed with
  | [a, w] => do return (← readBits 16 a, ← readRegw w)
  | _ => none

/-- The flags with one more set. -/
def withFlag (g : BusFlags) (name : List Char) : Option BusFlags :=
  if name = "A10".toList then some { g with addrMode := .bits10 }
  else if name = "DUTY".toList then some { g with duty := true }
  else if name = "SLAVE".toList then some { g with role := .slave }
  else if name = "DUAL".toList then some { g with dual := true }
  else if name = "NOSTRETCH".toList then some { g with nostretch := true }
  else if name = "GENCALL".toList then some { g with gencall := true }
  else none

/-- The `|`-list of flags, or 0 (R99). -/
def readFlags (cs : List Char) : Option BusFlags :=
  if readNat cs = some 0 then some BusFlags.zero
  else ((cs.splitOn '|').map trimmed).foldlM withFlag BusFlags.zero

/-- A handle of a one-operand instruction. -/
def readOne (letter : Char) (mk : Byte → Instr) : List (List Char) → Option Instr
  | [a] => (readHandle letter a).map mk
  | _ => none

/-- Two handles. -/
def readTwo (letter letter' : Char) (mk : Byte → Byte → Instr) : List (List Char) → Option Instr
  | [a, b] => do return mk (← readHandle letter a) (← readHandle letter' b)
  | _ => none

/-- A handle and a selector of `w` bits. -/
def readSel (letter : Char) (w : Nat) (mk : Byte → BitVec w → Instr) : List (List Char) → Option Instr
  | [a, sel] => do return mk (← readHandle letter a) (← readBits w sel)
  | _ => none

/-- `t, d, regaddr/regw, buf, len` (R99). -/
def readTransfer (mk : Byte → Byte → Half → BitVec 2 → Word → Half → Instr) : List (List Char) → Option Instr
  | [t, d, reg, buf, len] => do
    let (regaddr, regw) ← readRegister reg
    return mk (← readHandle 't' t) (← readHandle 'd' d) regaddr regw (← readBits 32 buf) (← readBits 16 len)
  | _ => none

/-- `t, fn, arg` (R99). -/
def readHook (mk : Byte → Word → Word → Instr) : List (List Char) → Option Instr
  | [t, fn, arg] => do return mk (← readHandle 't' t) (← readBits 32 fn) (← readBits 32 arg)
  | _ => none

/-- `t, W|R, addr, regaddr/regw, buf, len` (R99). -/
def readTxnew : List (List Char) → Option Instr
  | [t, dir, addr, reg, buf, len] => do
    let (regaddr, regw) ← readRegister reg
    return .txnew (← readHandle 't' t) (← readDir dir) (← readBits 16 addr) regaddr regw (← readBits 32 buf)
      (← readBits 16 len)
  | _ => none

/-- `d, b|none, addr, name` (R99). -/
def readDevnew : List (List Char) → Option Instr
  | [d, b, addr, name] => do
    return .devnew (← readHandle 'd' d) (← readBusOrNone b) (← readBits 16 addr) (← readBits 32 name)
  | _ => none

/-- `d, addr, name` of the pseudo-command DEVNEWU (R101). -/
def readDevnewu : List (List Char) → Option Instr
  | [d, addr, name] => do return Instr.devnewu (← readHandle 'd' d) (← readBits 16 addr) (← readBits 32 name)
  | _ => none

/-- `b, name, clk, flags, own1, own2` (R99). -/
def readBusinit : List (List Char) → Option Instr
  | [b, name, clk, flags, own1, own2] => do
    return .businit (← readHandle 'b' b) (← readBits 32 name) (← readBits 32 clk) (← readFlags flags)
      (← readBits 16 own1) (← readBits 16 own2)
  | _ => none

/-- `b, name, clk` of the pseudo-command BUSMASTER (R101). -/
def readBusmaster : List (List Char) → Option Instr
  | [b, name, clk] => do return Instr.busmaster (← readHandle 'b' b) (← readBits 32 name) (← readBits 32 clk)
  | _ => none

/-- `7|10, address` (R99). -/
def readAddrchk : List (List Char) → Option Instr
  | [mode, address] => do return .addrchk (← readMode mode) (← readBits 32 address)
  | _ => none

/-- How the operands of each mnemonic and pseudo-command are read (R99, R101). -/
def operandReaders : List (String × (List (List Char) → Option Instr)) :=
  [("TXNEW", readTxnew), ("TXRD", readTransfer .txrd), ("TXWR", readTransfer .txwr), ("TXPRE", readHook .txpre),
    ("TXPOST", readHook .txpost), ("TXSEND", readOne 't' .txsend), ("TXCBPRE", readOne 't' .txcbpre),
    ("TXCBPOST", readOne 't' .txcbpost), ("TXGET", readSel 't' 3 .txget)] ++
  [("DEVNEW", readDevnew), ("DEVATT", readTwo 'd' 'b' .devatt), ("DEVDET", readOne 'd' .devdet),
    ("DEVSUB", readTwo 'd' 't' .devsub), ("DEVGET", readSel 'd' 1 .devget)] ++
  [("BUSINIT", readBusinit), ("BUSSUB", readTwo 'b' 't' .bussub), ("BUSNUM", readOne 'b' .busnum),
    ("BUSSTAT", readOne 'b' .busstat), ("BUSERR", readOne 'b' .buserr), ("BUSCFG", readSel 'b' 2 .buscfg),
    ("ADDRCHK", readAddrchk)] ++
  [("QSIZE", readOne 'b' .qsize), ("QEMPTY", readOne 'b' .qempty), ("QHASDATA", readOne 'b' .qhasdata),
    ("QFULL", readOne 'b' .qfull), ("QPEEK", readSel 'b' 3 .qpeek)] ++
  [("IRQ.EV", readOne 'b' .irqEv), ("IRQ.ER", readOne 'b' .irqEr), ("CPLT", readOne 'b' .cplt),
    ("XERR", readOne 'b' .xerr)] ++
  [("TXPRECLR", readOne 't' Instr.txpreclr), ("TXPOSTCLR", readOne 't' Instr.txpostclr), ("DEVNEWU", readDevnewu),
    ("BUSMASTER", readBusmaster)]

/-- One line: a mnemonic, operands separated by commas, and a comment from `;` on (R99); `none` where it is no
instruction. -/
def readLine (line : String) : Option Instr :=
  let text := trimmed (line.toList.takeWhile (· != ';'))
  let mnemonic := String.ofList (text.takeWhile fun c => !c.isWhitespace)
  let operands := ((text.dropWhile fun c => !c.isWhitespace).splitOn ',').map trimmed
  match operandReaders.find? (·.1 == mnemonic) with
  | some (_, read) => read operands
  | none => none

/-- The backend's answer as it is written after a record (R99). -/
def readAnswer (text : String) : Option Bool :=
  if text = "-> idle" ∨ text = "-> ok" then some true
  else if text = "-> notidle" ∨ text = "-> fail" then some false
  else none

end Sys2Proof.Machine
end

