-- ==== Sys2Proof/Tests/Slice0.lean ====
section
/-! SUPPORT. Tests of single steps, whose expected results are the vectors of `95_test_vectors.md` (named by their ids),
and for every statement with hypotheses a witness: a concrete state and operands that meet them together. -/

namespace Sys2Proof.Tests

open Sys2Proof Sys2Proof.Machine

/-! ## Helpers -/

/-- The state after an instruction. -/
def after (i : Instr) (s : State) : State :=
  match exec i s with
  | .next s' => s'
  | .fault _ => s
  | .refused _ => s

/-- The state after one step. -/
def stepped (s : State) : State :=
  match step s with
  | .next s' => s'
  | .fault _ => s
  | .refused _ => s

/-- The state with the backend's coming answers. -/
def given (answers : List Bool) (s : State) : State := { s with answers := answers }

/-- Status code and value of an instruction's response. -/
def reply (i : Instr) (s : State) : Option (Byte × Word) :=
  (after i s).resp.getLast?.map fun r => (r.status.code, r.value)

/-- The records an instruction emits. -/
def records (i : Instr) (s : State) : List Record := (after i s).out.drop s.out.length

/-- Status code and value of the response to the words of one command. -/
def wordsReply (ws : List Word) (s : State) : Option (Byte × Word) :=
  (stepped { s with cmdPort := ws }).resp.getLast?.map fun r => (r.status.code, r.value)

/-- Status word of bus 1. -/
def status1 (s : State) : Option (Byte × Word) := reply (.busstat 1) s

/-- The storage of instance `b`. -/
def busOf (s : State) (b : Byte) : Bus := (s.bus? b).getD (Bus.atReset 0)

theorem resetWith_inv {p : Params} (h : p.wf) : (State.resetWith p).Inv where
  params := h
  txrLength := by simp [State.resetWith]
  devsLength := by simp [State.resetWith]
  busesLength := by simp [State.resetWith]
  buses := fun q hq => by
    rw [List.eq_of_mem_replicate hq]
    exact Bus.atReset_wf h.2.1.1
  devs := fun d v hv => by simp at hv
  txrs := fun t x hx => by simp at hx
  txrDevs := fun t x hx => by simp at hx

theorem reset_inv : State.reset.Inv := resetWith_inv (by decide)

theorem after_inv {s : State} (hI : s.Inv) (i : Instr) : (after i s).Inv := by
  obtain ⟨s', h, he⟩ := exec_effect hI i
  simpa [after, h] using he.inv hI

theorem given_inv {s : State} (hI : s.Inv) (answers : List Bool) : (given answers s).Inv := hI.congr rfl rfl rfl rfl

/-! ## States -/

/-- `"I2C1"`. -/
abbrev i2c1 : Word := 0x49324331

/-- Bus 1 a 7-bit master of 100000 Hz (P1 step 1). -/
def onBus1 : State := after (Instr.busmaster 1 i2c1 100000) State.reset

/-- `TXR[0]` as the vectors of section 2.6 have it. -/
def txnew0 : Instr := .txnew 0 .write 0x50 0 0 0x20000000 2

/-- Bus 1, `TXR[0]`, and both hooks of it set. -/
def ready : State :=
  after (.txpost 0 0x08001001 1) (after (.txpre 0 0x08002001 7) (after txnew0 onBus1))

/-- `ready`, with Device 2 on bus 1 and `TXR[1]` built for it (T6), Device 3 without a Bus and `TXR[2]` built for it. -/
def devices : State :=
  after (.txwr 2 3 0x10 1 0 0) (after (.devnew 3 0 0x7F 0) (after (.txrd 1 2 0 0 0x20000010 2)
    (after (.devnew 2 1 0x50 0x53454E53) ready)))

/-- One transfer in flight on bus 1. -/
def busy : State := after (.bussub 1 0) (given [true, true] devices)

/-- One transfer in flight on bus 1 and one waiting. -/
def busy2 : State := after (.bussub 1 1) busy

/-- Bus 1 stalled by a refused initiate (B5). -/
def stalled : State := after (.bussub 1 0) (given [true, false] devices)

/-- Bus 1 stalled by a peripheral that is not idle (B4). -/
def notIdle : State := after (.bussub 1 0) (given [false] devices)

/-- With `QCAP = 1`: bus 1 full, its one transaction in flight (Q10). -/
def full : State :=
  after (.bussub 1 0) (given [true, true] (after txnew0 (after (Instr.busmaster 1 i2c1 100000)
    (State.resetWith { Params.default with qcap := 1 }))))

/-- Bus 1 as in `busy`, and bus 2 registered. -/
def busyTwo : State := after (Instr.busmaster 2 0x49324332 400000) busy

theorem onBus1_inv : onBus1.Inv := after_inv reset_inv _

theorem ready_inv : ready.Inv := after_inv (after_inv (after_inv onBus1_inv _) _) _

theorem devices_inv : devices.Inv := after_inv (after_inv (after_inv (after_inv ready_inv _) _) _) _

theorem busy_inv : busy.Inv := after_inv (given_inv devices_inv _) _

theorem busyTwo_inv : busyTwo.Inv := after_inv busy_inv _

theorem busy2_inv : busy2.Inv := after_inv busy_inv _

theorem stalled_inv : stalled.Inv := after_inv (given_inv devices_inv _) _

theorem notIdle_inv : notIdle.Inv := after_inv (given_inv devices_inv _) _

theorem full_inv : full.Inv := after_inv (given_inv (after_inv (after_inv (resetWith_inv (by decide)) _) _) _) _

/-! ## Well-formed instructions -/

/-- The one check of WellFormed: `REGW = 3` is refused, in each command of Format T (R93). -/
theorem test_wf_refuses_regw_three :
    (Instr.txnew 0 .write 0x50 0 3 0 0).wf = false ∧ (Instr.txrd 0 0 0 3 0 0).wf = false ∧
    (Instr.txwr 0 0 0 3 0 0).wf = false ∧ (Instr.txnew 0 .write 0x50 0 2 0 0).wf = true := by decide

/-! ## Decoding: words written out from R83 to R95 -/

/-- T2, T6, T7, T9, T10, T15, T13, T14 and TXGET t3, 5. -/
theorem test_decode_transaction :
    decodeCommand [0x10010005, 0x03A51234, 0x20000200, 0x00000100] =
      .instr (.txnew 1 .read 0x3A5 0x1234 2 0x20000200 0x100) [] ∧
    decodeCommand [0x11010200, 0x00000000, 0x20000010, 0x00000002] = .instr (.txrd 1 2 0 0 0x20000010 2) [] ∧
    decodeCommand [0x12000204, 0x00000100, 0x20000000, 0x00000004] = .instr (.txwr 0 2 0x100 2 0x20000000 4) [] ∧
    decodeCommand [0x13000000, 0x08002001, 0x00000007] = .instr (.txpre 0 0x08002001 7) [] ∧
    decodeCommand [0x14000000, 0x08001001, 0x00000001] = .instr (.txpost 0 0x08001001 1) [] ∧
    decodeCommand [0x15010000] = .instr (.txsend 1) [] ∧ decodeCommand [0x16000000] = .instr (.txcbpre 0) [] ∧
    decodeCommand [0x17010000] = .instr (.txcbpost 1) [] ∧ decodeCommand [0x18030005] = .instr (.txget 3 5) [] := by
  decide

/-- D1, D4, D6, D8, D1. -/
theorem test_decode_device :
    decodeCommand [0x20020100, 0x00000050, 0x53454E53] = .instr (.devnew 2 1 0x50 0x53454E53) [] ∧
    decodeCommand [0x21030100] = .instr (.devatt 3 1) [] ∧ decodeCommand [0x22030000] = .instr (.devdet 3) [] ∧
    decodeCommand [0x23020000] = .instr (.devsub 2 0) [] ∧
    decodeCommand [0x24020001] = .instr (.devget 2 1) [] := by decide

/-- P2 steps 11 and 3, P1 steps 7, 16, P2 steps 13, 4, and A10. -/
theorem test_decode_bus :
    decodeCommand [0x3003000D, 0x49324333, 0x00061A80, 0x000003FF] =
      .instr (.businit 3 0x49324333 400000 ⟨.bits10, false, .slave, true, false, false⟩ 0x3FF 0) [] ∧
    decodeCommand [0x30010038, 0x49324331, 0x000186A0, 0x00990005] =
      .instr (.businit 1 i2c1 100000 ⟨.bits7, false, .master, true, true, true⟩ 0x05 0x99) [] ∧
    decodeCommand [0x31010100] = .instr (.bussub 1 1) [] ∧ decodeCommand [0x32030000] = .instr (.busnum 3) [] ∧
    decodeCommand [0x33010000] = .instr (.busstat 1) [] ∧ decodeCommand [0x34010000] = .instr (.buserr 1) [] ∧
    decodeCommand [0x35010003] = .instr (.buscfg 1 3) [] ∧
    decodeCommand [0x36000001, 0x000003FF] = .instr (.addrchk .bits10 0x3FF) [] := by decide

/-- Q1, Q2, P3 step 16. -/
theorem test_decode_queue :
    decodeCommand [0x40010000] = .instr (.qsize 1) [] ∧ decodeCommand [0x41010000] = .instr (.qempty 1) [] ∧
    decodeCommand [0x42010000] = .instr (.qhasdata 1) [] ∧ decodeCommand [0x43010000] = .instr (.qfull 1) [] ∧
    decodeCommand [0x44010001] = .instr (.qpeek 1 1) [] := by decide

/-- X1, X2, X4, X5 and the rejected words E20 to E23. -/
theorem test_decode_event :
    decodeTableWord 16 0x1001 = some (.irqEv 1) ∧ decodeTableWord 16 0x1101 = some (.irqEr 1) ∧
    decodeTableWord 16 0x2001 = some (.cplt 1) ∧ decodeTableWord 16 0x3001 = some (.xerr 1) ∧
    decodeTableWord 16 0x4001 = none ∧ decodeTableWord 16 0x0001 = none ∧ decodeTableWord 16 0x2101 = none ∧
    decodeTableWord 16 0x1201 = none := by decide

/-- E27: the lengths follow from `OP`, and a command that is not whole is no command yet (R80, R98). -/
theorem test_decode_lengths :
    Opcode.txsend.operands = 0 ∧ Opcode.addrchk.operands = 1 ∧ Opcode.txpre.operands = 2 ∧
    Opcode.devnew.operands = 2 ∧ Opcode.txnew.operands = 3 ∧ Opcode.businit.operands = 3 ∧
    decodeCommand [0x10000000, 0, 0] = .incomplete := by decide

/-- E1 to E4: unknown opcodes and reserved header fields. -/
theorem test_illegal_headers :
    wordsReply [0x19000000] devices = some (0x7F, 0) ∧ wordsReply [0x00000000] devices = some (0x7F, 0) ∧
    wordsReply [0x15000001] devices = some (0x7F, 0) ∧ wordsReply [0x15000100] devices = some (0x7F, 0) := by decide

/-- E5 to E8: illegal operand words. -/
theorem test_illegal_operands :
    wordsReply [0x10000006, 0x00500000, 0x20000000, 0x00000002] devices = some (0x7F, 0) ∧
    wordsReply [0x10000000, 0x00500000, 0x20000000, 0x00010002] devices = some (0x7F, 0) ∧
    wordsReply [0x11000001, 0x00000000, 0x20000000, 0x00000002] devices = some (0x7F, 0) ∧
    wordsReply [0x11000200, 0x00500000, 0x20000000, 0x00000002] devices = some (0x7F, 0) := by decide

/-- E9, E10, E12 to E14 and E18 are operand errors; E19 is illegal first. -/
theorem test_operand_errors :
    wordsReply [0x18090000] devices = some (0x7E, 0) ∧ wordsReply [0x18000000] State.reset = some (0x7E, 0) ∧
    wordsReply [0x40000000] devices = some (0x7E, 0) ∧ wordsReply [0x40040000] devices = some (0x7E, 0) ∧
    wordsReply [0x40020000] devices = some (0x7E, 0) ∧ wordsReply [0x31090100] devices = some (0x7E, 0) ∧
    wordsReply [0x18090008] devices = some (0x7F, 0) := by decide

/-- Bytes go least significant first (R64). -/
theorem test_byte_order : wordsOfBytes [0x00, 0x01, 0x02, 0x20] = [0x20020100] := by decide

/-! ## Assembler text (R99) -/

theorem test_asm_text :
    asmText (.txnew 0 .write 80 16 1 256 2) = some "TXNEW t0, W, 80, 16/8, 256, 2" ∧
    asmText (.devnew 3 0 127 0) = some "DEVNEW d3, none, 127, 0" ∧ asmText (.cplt 1) = some "CPLT b1" := by decide

/-- T1, P2 step 11, D2 and a comment. -/
theorem test_read_line :
    readLine "TXNEW t0, W, 0x50, 0x0010/8, 0x20000100, 2" = some (.txnew 0 .write 0x50 0x10 1 0x20000100 2) ∧
    readLine "BUSINIT b3, 0x49324333, 400000, A10|SLAVE|DUAL, 0x3FF, 0x000 ; own" =
      some (.businit 3 0x49324333 400000 ⟨.bits10, false, .slave, true, false, false⟩ 0x3FF 0) ∧
    readLine "DEVNEW d3, none, 0x7F, 0" = some (.devnew 3 0 0x7F 0) ∧ readLine "QSIZE t1" = none := by decide

/-- What is written is read back, one line of each shape. -/
theorem test_read_back :
    (asmText (.txrd 1 2 0x10 2 16 2)).bind readLine = some (.txrd 1 2 0x10 2 16 2) ∧
    (asmText (.txpre 255 7 0)).bind readLine = some (.txpre 255 7 0) ∧
    (asmText (.addrchk .bits10 1024)).bind readLine = some (.addrchk .bits10 1024) ∧
    (asmText (.qpeek 1 7)).bind readLine = some (.qpeek 1 7) ∧
    (asmText (.xerr 3)).bind readLine = some (.xerr 3) := by decide

/-- The pseudo-commands (R101). -/
theorem test_read_pseudo :
    readLine "TXPRECLR t4" = some (.txpre 4 0 0) ∧ readLine "DEVNEWU d1, 0x48, 5" = some (.devnew 1 0 0x48 5) ∧
    readLine "BUSMASTER b1, 7, 100000" = some (.businit 1 7 100000 BusFlags.zero 0 0) := by decide

/-! ## Reset -/

/-- The defaults of R7. -/
theorem test_reset_defaults : State.reset = State.resetWith ⟨3, 8, 8, 8, 0x10, 0x77, 0x3FF, 1, 0, 100000⟩ := rfl

/-- Z1, Z2. -/
theorem test_after_reset :
    reply (.busnum 1) State.reset = some (0x7E, 0) ∧ reply (.txget 0 0) State.reset = some (0x7E, 0) ∧
    reply (.devget 0 0) State.reset = some (0x7E, 0) ∧
    reply (.addrchk .bits7 0x50) State.reset = some (0x00, 1) := by decide

/-- Z4: reset leaves a stalled bus unregistered. -/
theorem test_reset_clears_stall : reply (.busstat 1) (stepped { stalled with resetReq := true }) = some (0x7E, 0) := by
  decide

/-! ## The transaction family -/

/-- T2, seen by TXGET. -/
theorem test_txnew :
    reply (.txget 1 0) (after (.txnew 1 .read 0x3A5 0x1234 2 0x20000200 0x100) devices) = some (0, 0x03A51234) ∧
    reply (.txget 1 3) (after (.txnew 1 .read 0x3A5 0x1234 2 0x20000200 0x100) devices) = some (0, 5) := by decide

/-- T3, T4. -/
theorem test_txnew_validation :
    reply (.txnew 2 .write 0x50 0 1 0x20000000 1) devices = some (0, 0) ∧
    reply (.txnew 3 .write 0x50 1 0 0x20000000 1) devices = some (0x21, 0) := by decide

/-- T6, T8. -/
theorem test_txrd :
    reply (.txget 1 3) devices = some (0, 0x209) ∧ reply (.txget 1 0) devices = some (0, 0x00500000) ∧
    reply (.txrd 1 5 0 0 0 0) devices = some (0x7E, 0) := by decide

/-- T7: hooks set earlier are gone. -/
theorem test_txwr :
    reply (.txget 0 3) (after (.txwr 0 2 0x100 2 0x20000000 4) devices) = some (0, 0x20C) ∧
    reply (.txget 0 4) (after (.txwr 0 2 0x100 2 0x20000000 4) devices) = some (0, 0) := by decide

/-- T9, T10, T12. -/
theorem test_hooks :
    reply (.txget 0 4) ready = some (0, 0x08002001) ∧ reply (.txget 0 7) ready = some (0, 1) ∧
    reply (.txpre 4 1 1) ready = some (0x7E, 0) := by decide

/-- T13, T14, T11. -/
theorem test_callback_commands :
    records (.txcbpre 0) devices = [.cb .pre 0 .fg 0x08002001 7] ∧ records (.txcbpost 1) devices = [] ∧
    records (.txcbpre 0) (after (.txpre 0 0 5) devices) = [] := by decide

/-- T15, T16, P4 step 4. -/
theorem test_txsend :
    reply (.txsend 0) devices = some (0x31, 0) ∧
    records (.txsend 1) (given [true, true] devices) =
      [.idleq 1, .initiate 1 .read 0x00A0 0 0 0x20000010 2] ∧
    reply (.txsend 1) (given [true, true] devices) = some (0, 1) ∧
    reply (.txsend 2) devices = some (0x33, 0) := by decide

/-! ## The device family -/

/-- D1, D3. -/
theorem test_devnew :
    reply (.devget 2 0) devices = some (0, 0x00010050) ∧ reply (.devget 2 1) devices = some (0, 0x53454E53) ∧
    reply (.devnew 4 2 0x50 0) devices = some (0x7E, 0) := by decide

/-- D4, D5. -/
theorem test_devatt :
    reply (.devget 3 0) (after (.devatt 3 1) devices) = some (0, 0x0001007F) ∧
    reply (.devatt 3 1) (after (.devatt 3 1) devices) = some (0x32, 0) ∧
    reply (.devatt 3 2) (after (.devatt 3 1) devices) = some (0x7E, 0) := by decide

/-- D6. -/
theorem test_devdet :
    reply (.devdet 3) devices = some (0, 0) ∧ reply (.devget 2 0) (after (.devdet 2) devices) = some (0, 0x50) := by
  decide

/-- D7, D8. -/
theorem test_devsub :
    reply (.devsub 3 0) devices = some (0x33, 0) ∧
    reply (.devsub 2 0) (given [true, true] devices) = some (0, 1) := by decide

/-! ## The bus family -/

/-- P2 steps 1, 2, 5, 6. -/
theorem test_businit_errors :
    reply (Instr.busmaster 0 i2c1 100000) devices = some (0x13, 0) ∧
    reply (Instr.busmaster 4 i2c1 100000) devices = some (0x13, 0) ∧
    reply (Instr.busmaster 1 i2c1 100000) devices = some (0x12, 0) ∧
    reply (.businit 2 0 100001 ⟨.bits7, false, .slave, false, false, false⟩ 0x0F 0) devices = some (0x11, 0) := by decide

/-- P2 steps 3 and 4: a master's slave-only fields are forced to zero. -/
theorem test_businit_master :
    records (.businit 1 i2c1 100000 ⟨.bits7, false, .master, true, true, true⟩ 0x05 0x99) State.reset = [.bind 1] ∧
    reply (.buscfg 1 0) (after (.businit 1 i2c1 100000 ⟨.bits7, false, .master, true, true, true⟩ 0x05 0x99)
      State.reset) = some (0, 0) := by decide

/-- P2 steps 7, 8, 12. -/
theorem test_buscfg :
    reply (.buscfg 2 0) (after (.businit 2 0 100001 ⟨.bits7, false, .slave, false, false, false⟩ 0x10 0x99) devices) =
      some (0, 0x44) ∧
    reply (.buscfg 2 2) (after (.businit 2 0 100001 ⟨.bits7, false, .slave, false, false, false⟩ 0x10 0x99) devices) =
      some (0, 0x00990010) ∧
    reply (.buscfg 3 0) (after (.businit 3 0 400000 ⟨.bits10, false, .slave, true, false, false⟩ 0x3FF 0) devices) =
      some (0, 0x4D) := by decide

/-- A2, A3, A5 to A8, A10, A11. -/
theorem test_addrchk :
    reply (.addrchk .bits7 0x0F) State.reset = some (0, 0) ∧ reply (.addrchk .bits7 0x10) State.reset = some (0, 1) ∧
    reply (.addrchk .bits7 0x77) State.reset = some (0, 1) ∧ reply (.addrchk .bits7 0x78) State.reset = some (0, 0) ∧
    reply (.addrchk .bits7 0x110) State.reset = some (0, 0) ∧
    reply (.addrchk .bits10 0x3FF) State.reset = some (0, 1) ∧
    reply (.addrchk .bits10 0x400) State.reset = some (0, 0) := by decide

/-- B1 to B5, P2 step 13. -/
theorem test_busstat :
    status1 devices = some (0, 0) ∧ status1 busy = some (0, 0x00010003) ∧ status1 busy2 = some (0, 0x00020003) ∧
    status1 notIdle = some (0, 0x00010010) ∧ status1 stalled = some (0, 0x00010016) ∧
    reply (.busnum 1) devices = some (0, 1) := by decide

/-- B10 and B6: drain, then null. -/
theorem test_buserr :
    reply (.buserr 1) stalled = some (0, 0x41) ∧ reply (.buserr 1) (after (.buserr 1) stalled) = some (0x0F, 0) ∧
    status1 (after (.buserr 1) stalled) = some (0, 0x00010012) := by decide

/-- B10: the records of a failed first dispatch. -/
theorem test_bussub_initiate_fails :
    records (.bussub 1 0) (given [true, false] devices) =
      [.idleq 1, .cb .pre 1 .fg 0x08002001 7, .initiate 1 .write 0x00A0 0 0 0x20000000 2, .errn 1 .errHwInitiate .fg] ∧
    reply (.bussub 1 0) (given [true, false] devices) = some (0x41, 0) := by decide

/-- B9, Q11. -/
theorem test_bussub_joins :
    records (.bussub 1 0) (given [false] devices) = [.idleq 1] ∧ records (.bussub 1 0) notIdle = [] ∧
    reply (.bussub 1 0) full = some (0x51, 0) := by decide

/-- B13, B14: the wire address of a 10-bit bus, and the bit a 7-bit bus shifts out. -/
theorem test_wire_address :
    wireAddr Params.default ⟨0, 0, ⟨.bits10, false, .master, false, false, false⟩, 0, 0, true⟩ 0x2A5 = 0x2A5 ∧
    wireAddr Params.default ⟨0, 0, BusFlags.zero, 0, 0, true⟩ 0x8001 = 2 := by decide

/-! ## The queue family -/

/-- Q2, Q5, Q10. -/
theorem test_queue_queries :
    reply (.qempty 1) devices = some (0, 1) ∧ reply (.qhasdata 1) busy2 = some (0, 1) ∧
    reply (.qsize 1) busy2 = some (0, 2) ∧ reply (.qfull 1) busy2 = some (0, 0) ∧
    reply (.qfull 1) full = some (0, 1) := by decide

/-- Q3, Q6. -/
theorem test_qpeek :
    reply (.qpeek 1 0) devices = some (0x0F, 0) ∧ reply (.qpeek 1 0) busy2 = some (0, 0x00500000) ∧
    reply (.qpeek 1 1) busy2 = some (0, 0x20000000) := by decide

/-! ## Events -/

/-- X1 to X3. -/
theorem test_irq_routing :
    records (.irqEv 1) devices = [.birq 1 .event] ∧ records (.irqEr 1) devices = [.birq 1 .error] ∧
    records (.irqEv 2) devices = [] := by decide

/-- P1 steps 10 and 13: completion, then the next transaction. -/
theorem test_cplt :
    records (.cplt 1) (given [true] busy2) =
      [.cb .post 1 .irq 0x08001001 1, .initiate 1 .read 0x00A0 0 0 0x20000010 2] ∧
    status1 (after (.cplt 1) (given [true] busy2)) = some (0, 0x00010003) ∧
    records (.cplt 1) busy = [.cb .post 1 .irq 0x08001001 1] ∧ status1 (after (.cplt 1) busy) = some (0, 0) := by decide

/-- X4, X8 (P3 step 8). -/
theorem test_cplt_errors :
    status1 (after (.cplt 1) devices) = some (0, 4) ∧ reply (.buserr 1) (after (.cplt 1) devices) = some (0, 0x143) ∧
    status1 (after (.cplt 1) (given [false] busy2)) = some (0, 0x00010016) ∧
    reply (.buserr 1) (after (.cplt 1) (given [false] busy2)) = some (0, 0x141) := by decide

/-- X6, X7. -/
theorem test_xerr :
    records (.xerr 1) busy2 = [.errn 1 .errHwTransfer .irq] ∧ status1 (after (.xerr 1) busy2) = some (0, 0x00020016) ∧
    status1 (after (.cplt 1) (after (.xerr 1) busy2)) = some (0, 0x0002001E) ∧
    reply (.buserr 1) (after (.cplt 1) (after (.xerr 1) busy2)) = some (0, 0x342) := by decide

/-- X9, X11: a pending CPLT is serviced before a pending XERR, and a second one that arrives is merged. -/
theorem test_pending_order :
    (stepped (latchEvent (latchEvent (latchEvent busy 0x3001) 0x2001) 0x2001)).pending? = some (.xerr, 1) := by decide

/-- R221: an event that arrives while a command runs is pending when it ends, and is the next input serviced. -/
theorem test_arrival_during_command :
    (stepped { busy with cmdPort := [0x40010000], evDuring := [[0x2001]] }).pending? = some (.cplt, 1) ∧
    status1 (stepped (stepped { busy with cmdPort := [0x40010000], evDuring := [[0x2001]] })) = some (0, 0) := by decide

/-! ## Witnesses: the hypotheses of the statements, met -/

theorem exec_next {s : State} (hI : s.Inv) (i : Instr) : exec i s = .next (after i s) := by
  obtain ⟨s', h, _⟩ := exec_effect hI i
  simp [after, h]

theorem step_next {s : State} (hI : s.Inv) : step s = .next (stepped s) := by
  obtain ⟨s', h, _⟩ := step_effect hI
  simp [stepped, h]

theorem run_one {s : State} (hI : s.Inv) : core.run 1 s = .next (stepped s) := by
  have h : core.step s = .next (stepped s) := step_next hI
  simp [Host.Core.run, h]

/-- The configuration of bus 1 in every state above. -/
def cfg1 : BusCfg := ⟨i2c1, 100000, BusFlags.zero, 0, 0, false⟩

/-- The descriptor in `TXR[0]` of `devices`. -/
def x0 : Txn := ⟨.write, 0x50, 0, 0, 0x20000000, 2, 0x08002001, 7, 0x08001001, 1, false, 0⟩

/-- The descriptor in `TXR[1]` of `devices`. -/
def x1 : Txn := ⟨.read, 0x50, 0, 0, 0x20000010, 2, 0, 0, 0, 0, true, 2⟩

/-- The state with words on the command port. -/
def commanded (ws : List Word) (s : State) : State := { s with cmdPort := ws }

/-- The state with an event word arriving. -/
def signalled (w : Half) (s : State) : State := { s with evPort := [w] }

/-- The state with three words arriving during the coming transition, the last of them for an instance with no Bus, and
one during the transition after it. -/
def interrupted (s : State) : State := { s with evDuring := [[0x2001, 0x1101, 0x2002], [0x3001]] }

theorem interrupted_inv {s : State} (hI : s.Inv) : (interrupted s).Inv := hI.congr rfl rfl rfl rfl

theorem commanded_inv {s : State} (hI : s.Inv) (ws : List Word) : (commanded ws s).Inv := hI.congr rfl rfl rfl rfl

theorem signalled_inv {s : State} (hI : s.Inv) (w : Half) : (signalled w s).Inv := hI.congr rfl rfl rfl rfl

theorem latchEvent_inv {s : State} (hI : s.Inv) (w : Half) : (latchEvent s w).Inv := (OnlyPend.latchEvent s w).inv hI

/-! ### Encoding -/

theorem wit_EncodedCommandDecodesToItself :
    (Instr.txnew 255 .read 0xFFFF 0xFFFF 2 0xFFFFFFFF 0xFFFF).wf = true ∧
    encode (.txnew 255 .read 0xFFFF 0xFFFF 2 0xFFFFFFFF 0xFFFF) =
      .command [0x10FF0005, 0xFFFFFFFF, 0xFFFFFFFF, 0x0000FFFF] := by decide

theorem wit_DecodedCommandIsItsEncoding : decodeCommand [0x44FF0007, 0x19000000] = .instr (.qpeek 255 7) [0x19000000] := by
  decide

theorem wit_IllegalCommands_unknown :
    (commanded [0x19000000] devices).resetReq = false ∧ (commanded [0x19000000] devices).pending? = none ∧
    (commanded [0x19000000] devices).evPort = [] ∧ (commanded [0x19000000] devices).cmdPort = 0x19000000 :: [] ∧
    ∀ o : Opcode, hdrOp 0x19000000 ≠ o.code :=
  ⟨by decide, by decide, by decide, by decide, fun o => by cases o <;> decide⟩

theorem wit_IllegalCommands_header :
    hdrOp 0x18000008 = Opcode.txget.code ∧ Opcode.txget.operands ≤ ([] : List Word).length ∧
    (0x18000008 &&& Opcode.txget.tableMask ≠ Opcode.txget.tableMatch) := by decide

theorem wit_IllegalCommands_operand :
    hdrOp 0x10000006 = Opcode.txnew.code ∧ Opcode.txnew.operands ≤ [0x00500000, 0x20000000, (2 : Word)].length ∧
    operandIllegal .txnew 0x10000006 0x00500000 2 :=
  ⟨by decide, by decide, .inl ⟨rfl, .inl (by decide)⟩⟩

theorem wit_IllegalCommands_legal :
    hdrOp 0x18000007 = Opcode.txget.code ∧ 0x18000007 &&& Opcode.txget.tableMask = Opcode.txget.tableMatch ∧
    ¬ operandIllegal .txget 0x18000007 0 0 :=
  ⟨by decide, by decide, by rintro (⟨h, _⟩ | ⟨h, _⟩) <;> revert h <;> decide⟩

theorem wit_EventWordsRoundTrip :
    decodeEvent 0x11FF = .ok (.irqEr, 0xFF) ∧ decodeEvent 0x3000 = .ok (.xerr, 0) ∧
    decodeEvent 0x4001 = .error .unknownKind ∧ decodeEvent 0x0001 = .error .unknownKind ∧
    decodeEvent 0x1201 = .error .reservedEvent ∧ decodeEvent 0x3101 = .error .classNotIrq :=
  ⟨rfl, rfl, rfl, rfl, rfl, rfl⟩

/-! ### The step -/

theorem wit_StepRunsDecodedCommand :
    (commanded [0x40010000] busy).resetReq = false ∧ (commanded [0x40010000] busy).pending? = none ∧
    (commanded [0x40010000] busy).evPort = [] ∧
    decodeCommand (commanded [0x40010000] busy).cmdPort = .instr (.qsize 1) [] := by decide

theorem wit_StepRunsDecodedCommand_unfinished :
    (commanded [0x10000000, 0, 0] busy).resetReq = false ∧ (commanded [0x10000000, 0, 0] busy).pending? = none ∧
    (commanded [0x10000000, 0, 0] busy).evPort = [] ∧ (commanded [] busy).cmdPort = [] ∧
    hdrOp 0x10000000 = Opcode.txnew.code ∧ [0, (0 : Word)].length < Opcode.txnew.operands := by decide

/-- An unfinished command waits even where its header is illegal already. -/
theorem wit_StepRunsDecodedCommand_unfinished_illegal :
    hdrOp 0x10000006 = Opcode.txnew.code ∧ ([] : List Word).length < Opcode.txnew.operands := by decide

theorem wit_StepRunsDecodedCommand_waits :
    (commanded [0x10000000] busy).resetReq = false ∧ (commanded [0x10000000] busy).pending? = none ∧
    (commanded [0x10000000] busy).evPort = [] ∧
    decodeCommand (commanded [0x10000000] busy).cmdPort = .incomplete := by decide

theorem wit_StepServicesArrivingEvent :
    (signalled 0x2001 busy).resetReq = false ∧ (signalled 0x2001 busy).pending? = none ∧
    (signalled 0x2001 busy).evPort = [0x2001] ∧ decodeEvent 0x2001 = .ok (.cplt, 1) ∧
    decodeEvent 0x2101 = .error .classNotIrq :=
  ⟨rfl, by decide, rfl, rfl, rfl⟩

theorem wit_PendingEvents_some :
    (latchEvent busy 0x3001).Inv ∧ (latchEvent busy 0x3001).pending? = some (.xerr, 1) ∧
    (latchEvent busy 0x3001).resetReq = false :=
  ⟨latchEvent_inv busy_inv _, by decide, by decide⟩

theorem wit_PendingEvents_first :
    (latchEvent busy 0x1101).pending? = some (.irqEr, 1) ∧ (latchEvent busy 0x2001).pending? = some (.cplt, 1) ∧
    (latchEvent busy 0x1001).pending? = some (.irqEv, 1) ∧ busy.pending? = none := by decide

/-- X10: an event of bus 2 alone, and one of bus 1 beside it. -/
theorem wit_PendingEvents_lowest :
    (latchEvent busyTwo 0x1002).Inv ∧ (latchEvent busyTwo 0x1002).pending? = some (.irqEv, 2) ∧
    ((latchEvent busyTwo 0x1002).bus? 1).map (fun q => (q.pendIrqEv, q.pendCplt)) = some (false, false) ∧
    (latchEvent (latchEvent busyTwo 0x1002) 0x2001).Inv ∧
    (latchEvent (latchEvent busyTwo 0x1002) 0x2001).pending? = some (.cplt, 1) ∧
    (latchEvent (latchEvent busyTwo 0x1002) 0x2001).resetReq = false :=
  ⟨latchEvent_inv busyTwo_inv _, by decide, by decide, latchEvent_inv (latchEvent_inv busyTwo_inv _) _, by decide,
    by decide⟩

theorem wit_EventDuringTransitionPends :
    decodeEvent 0x4001 = .error .unknownKind ∧
    (decodeEvent 0x2002 = .ok (.cplt, 2) ∧ busy.regBus? 2 = none) ∧
    (decodeEvent 0x2001 = .ok (.cplt, 1) ∧ busy.regBus? 1 = some (cfg1, busOf busy 1)) :=
  ⟨rfl, ⟨rfl, by decide⟩, ⟨rfl, by decide⟩⟩

theorem wit_EventDuringTransitionPends_arrive :
    (interrupted busy).evDuring = [0x2001, 0x1101, 0x2002] :: [[0x3001]] ∧ busy.evDuring = [] := ⟨rfl, rfl⟩

/-- A command, an arriving event and a pending event, each with events arriving during it. -/
theorem wit_ArrivalsArePendingAfterStep :
    (interrupted (commanded [0x40010000] busy)).Inv ∧ (interrupted (commanded [0x40010000] busy)).resetReq = false ∧
    (interrupted (commanded [0x40010000] busy)).evDuring = [0x2001, 0x1101, 0x2002] :: [[0x3001]] ∧
    decodeCommand (interrupted (commanded [0x40010000] busy)).cmdPort = .instr (.qsize 1) [] ∧
    step (interrupted (commanded [0x40010000] busy)) = .next (stepped (interrupted (commanded [0x40010000] busy))) ∧
    (0x2001 ∈ ([0x2001, 0x1101, 0x2002] : List Half) ∧ decodeEvent 0x2001 = .ok (.cplt, 1) ∧
      (interrupted (commanded [0x40010000] busy)).regBus? 1 = some (cfg1, busOf busy 1)) :=
  ⟨interrupted_inv (commanded_inv busy_inv _), rfl, rfl, by decide,
    step_next (interrupted_inv (commanded_inv busy_inv _)), by decide, rfl, by decide⟩

theorem wit_ArrivalsArePendingAfterStep_events :
    (interrupted (signalled 0x2001 busy)).Inv ∧ (interrupted (signalled 0x2001 busy)).evPort ≠ [] ∧
    (interrupted (latchEvent busy 0x2001)).Inv ∧ (interrupted (latchEvent busy 0x2001)).pending? ≠ none :=
  ⟨interrupted_inv (signalled_inv busy_inv _), by decide, interrupted_inv (latchEvent_inv busy_inv _), by decide⟩

theorem wit_ResetInputClearsAllState : ({ stalled with resetReq := true } : State).resetReq = true := rfl

theorem wit_ResetValues :
    (State.resetWith Params.default).bus? 1 = some (Bus.atReset 8) ∧
    (State.resetWith Params.default).bus? 3 = some (Bus.atReset 8) ∧
    (State.resetWith Params.default).bus? 4 = none := by decide

theorem wit_ResetMeetsInvariants : Params.default.wf ∧ ({ Params.default with qcap := 1, nBus := 255 } : Params).wf := by
  decide

theorem wit_StepKeepsInvariants :
    (commanded [0x31010100] busy).Inv ∧
    step (commanded [0x31010100] busy) = .next (stepped (commanded [0x31010100] busy)) :=
  ⟨commanded_inv busy_inv _, step_next (commanded_inv busy_inv _)⟩

theorem wit_StepNeverStops : (signalled 0x2001 busy2).Inv := signalled_inv busy2_inv _

theorem wit_RegistrationIsPermanent :
    (signalled 0x2001 busy).Inv ∧ (signalled 0x2001 busy).resetReq = false ∧
    step (signalled 0x2001 busy) = .next (stepped (signalled 0x2001 busy)) ∧
    (signalled 0x2001 busy).regBus? 1 = some (cfg1, busOf busy 1) ∧
    (signalled 0x2001 busy).dev? 2 = some ⟨0x50, 1, 0x53454E53⟩ ∧ (signalled 0x2001 busy).txr? 0 = some x0 :=
  ⟨signalled_inv busy_inv _, by decide, step_next (signalled_inv busy_inv _), by decide, by decide, by decide⟩

/-! ### The transaction family -/

theorem wit_TxnewWritesDescriptor :
    ((1 : BitVec 2) ≠ 3 ∧ devices.params.nTxr ≤ (8 : Byte).toNat) ∧
    ((0 : BitVec 2) ≠ 3 ∧ (7 : Byte).toNat < devices.params.nTxr ∧ (1 : Half) ≠ 0) ∧
    ((0 : BitVec 2) ≠ 3 ∧ (7 : Byte).toNat < devices.params.nTxr ∧ ((0 : BitVec 2) = 0 → (0 : Half) = 0)) := by decide

theorem wit_TxrdTxwrWriteDescriptor :
    ((2 : BitVec 2) ≠ 3 ∧ (devices.params.nTxr ≤ (8 : Byte).toNat ∨ devices.dev? 0 = none)) ∧
    devices.dev? 4 = none ∧
    ((7 : Byte).toNat < devices.params.nTxr ∧ devices.dev? 2 = some ⟨0x50, 1, 0x53454E53⟩ ∧
      (1 : Half) ≠ 0 ∧ ((2 : BitVec 2) = 0 → (0 : Half) = 0)) := by decide

/-- For TXPRE, TXPOST, TXCBPRE, TXCBPOST and TXGET. -/
theorem wit_staged_transaction : devices.txr? 3 = none ∧ devices.txr? 8 = none ∧ devices.txr? 0 = some x0 := by decide

/-! ### The device family -/

theorem wit_DevnewWritesDevice :
    devices.params.nDev ≤ (8 : Byte).toNat ∧ ((2 : Byte) ≠ 0 ∧ devices.regBus? 2 = none) ∧
    ((7 : Byte).toNat < devices.params.nDev ∧ devices.regBus? 1 = some (cfg1, busOf devices 1)) := by decide

theorem wit_DevattAttachesOnce :
    devices.dev? 0 = none ∧ devices.regBus? 0 = none ∧ devices.regBus? 1 = some (cfg1, busOf devices 1) ∧
    (devices.dev? 2 = some ⟨0x50, 1, 0x53454E53⟩ ∧ (1 : Byte) ≠ 0) ∧ devices.dev? 3 = some ⟨0x7F, 0, 0⟩ := by decide

/-- For DEVDET and DEVGET. -/
theorem wit_device : devices.dev? 8 = none ∧ devices.dev? 2 = some ⟨0x50, 1, 0x53454E53⟩ ∧
    devices.dev? 3 = some ⟨0x7F, 0, 0⟩ := by decide

theorem wit_DeviceForwardsToItsBus :
    (devices.dev? 0 = none ∧ devices.txr? 3 = none) ∧
    (devices.dev? 3 = some ⟨0x7F, 0, 0⟩ ∧ devices.dev? 2 = some ⟨0x50, 1, 0x53454E53⟩ ∧ devices.txr? 0 = some x0) ∧
    (x0.devp = false ∧ devices.txr? 1 = some x1 ∧ x1.devp = true) := by decide

/-! ### The bus family -/

theorem wit_BusinitRegistersBus :
    devices.Inv ∧ devices.params.nBus < (4 : Byte).toNat ∧ devices.regBus? 1 = some (cfg1, busOf devices 1) ∧
    (1 ≤ (3 : Byte).toNat ∧ (3 : Byte).toNat ≤ devices.params.nBus ∧ devices.regBus? 3 = none) ∧
    addrValid devices.params 0x0F .bits7 = false ∧ addrValid devices.params 0x10 .bits7 = true ∧
    addrValid devices.params 0x77 .bits7 = true ∧ addrValid devices.params 0x78 .bits7 = false :=
  ⟨devices_inv, by decide, by decide, by decide, by decide, by decide, by decide, by decide⟩

/-- For BUSNUM, BUSSTAT, BUSCFG, the queue family, IRQ.EV and IRQ.ER. -/
theorem wit_registered_bus :
    devices.regBus? 2 = none ∧ devices.regBus? 4 = none ∧ busy.Inv ∧ busy.regBus? 1 = some (cfg1, busOf busy 1) :=
  ⟨by decide, by decide, busy_inv, by decide⟩

theorem wit_BuserrDrainsLatch :
    devices.regBus? 2 = none ∧
    (devices.regBus? 1 = some (cfg1, busOf devices 1) ∧ (busOf devices 1).err = none) ∧
    (stalled.regBus? 1 = some (cfg1, busOf stalled 1) ∧ (busOf stalled 1).err = some ⟨.errHwInitiate, .fg⟩) := by decide

theorem wit_QpeekReadsHead :
    (devices.Inv ∧ devices.regBus? 1 = some (cfg1, busOf devices 1) ∧ (busOf devices 1).queue 8 = []) ∧
    (busy2.Inv ∧ busy2.regBus? 1 = some (cfg1, busOf busy2 1) ∧ (busOf busy2 1).queue 8 = x0 :: [x1]) :=
  ⟨⟨devices_inv, by decide, by decide⟩, busy2_inv, by decide, by decide⟩

theorem wit_RingIsBoundedFifo :
    (busOf busy2 1).Wf busy2.params ∧ (busOf busy2 1).queue busy2.params.qcap = x0 :: [x1] ∧
    (qEnqueue busy2.params.qcap (busOf busy2 1) x1).isSome = true ∧
    (busOf full 1).Wf full.params ∧ (qEnqueue full.params.qcap (busOf full 1) x1) = none :=
  ⟨busy2_inv.bus (b := 1) (by decide), by decide, by decide, full_inv.bus (b := 1) (by decide), by decide⟩

/-! ### Submissions -/

theorem wit_SubmissionJoinsQueue_full :
    (submission full (.bussub 1 0)).isSome = true ∧ full.regBus? 1 = some (cfg1, busOf full 1) ∧
    (busOf full 1).count ≠ 0 ∧ (busOf full 1).count = full.params.qcap := by decide

theorem wit_SubmissionJoinsQueue :
    submission busy (.bussub 1 0) = some (1, x0) ∧ submission busy (.devsub 2 0) = some (1, x0) ∧
    submission busy (.txsend 1) = some (1, x1) ∧ busy.regBus? 1 = some (cfg1, busOf busy 1) ∧
    (busOf busy 1).count ≠ 0 ∧ (busOf busy 1).busy = true ∧ (busOf busy 1).count ≠ busy.params.qcap := by decide

/-- For the three outcomes of a first submission, by the answers. -/
theorem wit_first_submission :
    (∀ as, (given as devices).Inv) ∧
    submission devices (.bussub 1 0) = some (1, x0) ∧ submission devices (.devsub 2 0) = some (1, x0) ∧
    submission devices (.txsend 1) = some (1, x1) ∧
    devices.regBus? 1 = some (cfg1, busOf devices 1) ∧ (busOf devices 1).count = 0 ∧
    ((given [true, true] devices).ask.1 = true ∧ (given [true, true] devices).ask.2.ask.1 = true) ∧
    ((given [true, false] devices).ask.1 = true ∧ (given [true, false] devices).ask.2.ask.1 = false) ∧
    (given [false] devices).ask.1 = false :=
  ⟨fun as => given_inv devices_inv as, by decide, by decide, by decide, by decide, by decide, ⟨rfl, rfl⟩, ⟨rfl, rfl⟩, rfl⟩

theorem wit_WireAddressIsShifted :
    cfg1.flags.addrMode = .bits7 ∧ ({ cfg1 with flags := ⟨.bits10, false, .master, false, false, false⟩ } :
      BusCfg).flags.addrMode = .bits10 := ⟨rfl, rfl⟩

/-! ### Events -/

theorem wit_CompletionOfLastGoesIdle :
    busy.Inv ∧ busy.regBus? 1 = some (cfg1, busOf busy 1) ∧ (busOf busy 1).busy = true ∧
    (busOf busy 1).queue busy.params.qcap = [x0] :=
  ⟨busy_inv, by decide, by decide, by decide⟩

/-- For the accepted and the refused dispatch of a successor. -/
theorem wit_CompletionWithSuccessor :
    (∀ as, (given as busy2).Inv) ∧ busy2.regBus? 1 = some (cfg1, busOf busy2 1) ∧ (busOf busy2 1).busy = true ∧
    (busOf busy2 1).queue busy2.params.qcap = x0 :: x1 :: [] ∧ (given [true] busy2).ask.1 = true ∧
    (given [false] busy2).ask.1 = false :=
  ⟨fun as => given_inv busy2_inv as, by decide, by decide, by decide, rfl, rfl⟩

/-- For XERR, and for the spurious CPLT and XERR. -/
theorem wit_TransferError :
    busy.regBus? 2 = none ∧ (devices.regBus? 1 = some (cfg1, busOf devices 1) ∧ (busOf devices 1).busy = false) ∧
    (busy.regBus? 1 = some (cfg1, busOf busy 1) ∧ (busOf busy 1).busy = true) := by decide

theorem wit_LatchKeepsFirstError : (busOf devices 1).err = none ∧ (busOf stalled 1).err ≠ none := by decide

theorem wit_LatchKeepsFirstError_step :
    (signalled 0x2001 stalled).Inv ∧ (signalled 0x2001 stalled).regBus? 1 = some (cfg1, busOf stalled 1) ∧
    (busOf stalled 1).err ≠ none ∧
    step (signalled 0x2001 stalled) = .next (stepped (signalled 0x2001 stalled)) :=
  ⟨signalled_inv stalled_inv _, by decide, by decide, step_next (signalled_inv stalled_inv _)⟩

/-! ### The whole machine -/

theorem wit_UnusableHandlesRefused :
    (Instr.txrd 9 9 0 3 0 0).wf = false ∧
    ((Instr.bussub 1 3).wf = true ∧ handlesUsable devices (.bussub 1 3) = false) := by decide

theorem wit_OneResponsePerCommand :
    devices.Inv ∧ exec (.busnum 1) devices = .next (after (.busnum 1) devices) ∧ (Instr.busnum 1).isCommand = true ∧
    exec (.cplt 1) devices = .next (after (.cplt 1) devices) ∧ (Instr.cplt 1).isCommand = false :=
  ⟨devices_inv, exec_next devices_inv _, rfl, exec_next devices_inv _, rfl⟩

theorem wit_ErrorLeavesStateUnchanged :
    exec (.txsend 0) devices = .next (after (.txsend 0) devices) ∧
    (after (.txsend 0) devices).resp = devices.resp ++ [⟨.errUseNodevice, 0⟩] ∧
    Status.errUseNodevice.isError = true ∧ Status.errUseNodevice ≠ .errHwInitiate :=
  ⟨exec_next devices_inv _, by decide, rfl, by decide⟩

theorem wit_ErrorLeavesStateUnchanged_initiate :
    (given [true, false] devices).Inv ∧
    exec (.bussub 1 0) (given [true, false] devices) = .next (after (.bussub 1 0) (given [true, false] devices)) ∧
    (after (.bussub 1 0) (given [true, false] devices)).resp =
      (given [true, false] devices).resp ++ [⟨.errHwInitiate, 0⟩] ∧
    Status.errHwInitiate.isError = true :=
  ⟨given_inv devices_inv _, exec_next (given_inv devices_inv _) _, by decide, rfl⟩

theorem wit_InstructionsWriteOnlyListedState :
    devices.Inv ∧ exec (.cplt 1) devices = .next (after (.cplt 1) devices) ∧
    devices.bus? 1 = some (busOf devices 1) ∧ (after (.cplt 1) devices).bus? 1 = some (busOf (after (.cplt 1) devices) 1) ∧
    StateGroup.txr ∉ writesOf (.cplt 1) ∧ StateGroup.dev ∉ writesOf (.cplt 1) ∧
    StateGroup.registry ∉ writesOf (.cplt 1) ∧ StateGroup.queue ∉ writesOf (.xerr 1) ∧
    StateGroup.flags ∉ writesOf (.buserr 1) ∧ StateGroup.err ∉ writesOf (.qsize 1) :=
  ⟨devices_inv, exec_next devices_inv _, by decide, by decide, by decide, by decide, by decide, by decide, by decide,
    by decide⟩

theorem wit_OtherBusesAreUntouched :
    busy.Inv ∧ exec (.bussub 1 0) busy = .next (after (.bussub 1 0) busy) ∧
    (after (.bussub 1 0) busy).bus? 1 ≠ busy.bus? 1 :=
  ⟨busy_inv, exec_next busy_inv _, by decide⟩

theorem wit_AtMostOneTransferInFlight :
    (commanded [0x31010000] busy).Inv ∧ (commanded [0x31010000] busy).resetReq = false ∧
    (commanded [0x31010000] busy).busyAt 1 ∧ State.undisturbed 1 1 (commanded [0x31010000] busy) ∧
    core.run 1 (commanded [0x31010000] busy) = .next (stepped (commanded [0x31010000] busy)) := by
  have hI := commanded_inv busy_inv [0x31010000]
  refine ⟨hI, by decide, ⟨cfg1, busOf busy 1, by decide, by decide⟩, ⟨?_, ?_⟩, run_one hI⟩
  · have hs : selectInput (commanded [0x31010000] busy) = .run (.bussub 1 0) (commanded [] busy) := rfl
    rintro ⟨s', h | h⟩ <;> rw [hs] at h <;> cases h
  · rw [step_next hI]
    trivial

theorem wit_InitiatesFollowSubmissionOrder :
    (commanded [0x31010000] (given [true, true] devices)).Inv ∧
    (commanded [0x31010000] (given [true, true] devices)).resetReq = false ∧
    (commanded [0x31010000] (given [true, true] devices)).regBus? 1 = some (cfg1, busOf devices 1) ∧
    core.run 1 (commanded [0x31010000] (given [true, true] devices)) =
      .next (stepped (commanded [0x31010000] (given [true, true] devices))) :=
  ⟨commanded_inv (given_inv devices_inv _) _, by decide, by decide, run_one (commanded_inv (given_inv devices_inv _) _)⟩

theorem wit_PostCallbackOnlyAfterCompletion :
    (signalled 0x2001 busy).Inv ∧ (1 : Byte) ≠ 0 ∧
    step (signalled 0x2001 busy) = .next (stepped (signalled 0x2001 busy)) ∧
    (stepped (signalled 0x2001 busy)).out = (signalled 0x2001 busy).out ++ [.cb .post 1 .irq 0x08001001 1] ∧
    (Record.cb .post 1 .irq 0x08001001 1).isPostOf 1 = true :=
  ⟨signalled_inv busy_inv _, by decide, step_next (signalled_inv busy_inv _), by decide, rfl⟩

theorem wit_StalledBusStaysStalled :
    (signalled 0x2001 stalled).Inv ∧ (signalled 0x2001 stalled).resetReq = false ∧
    (signalled 0x2001 stalled).stalledAt 1 ∧
    core.run 1 (signalled 0x2001 stalled) = .next (stepped (signalled 0x2001 stalled)) :=
  ⟨signalled_inv stalled_inv _, by decide, ⟨cfg1, busOf stalled 1, by decide, by decide⟩,
    run_one (signalled_inv stalled_inv _)⟩

theorem wit_EveryQueuedTransactionCompletes :
    (given [true] busy2).Inv ∧ (given [true] busy2).regBus? 1 = some (cfg1, busOf busy2 1) ∧
    (busOf busy2 1).busy = true ∧ (busOf busy2 1).queue busy2.params.qcap = x0 :: [x1] ∧
    (given [true] busy2).accepts [x1].length :=
  ⟨given_inv busy2_inv _, by decide, by decide, by decide, ⟨rfl, trivial⟩⟩

end Sys2Proof.Tests
end

section
/-! The statements of `10_state.md`: the state after reset (R39), the invariants of R37 and the permanence of R28 under
every step, and the table of writers of R38. The steps are read off `StepEffect` and `Effect`, which say once what a
step and an instruction can do. -/

namespace Sys2Proof.Machine

variable {s s' : State} {i : Instr} {b : Byte} {q q' q1 : Bus}

/-! ## The state after reset (R39) -/

/-- After reset there are the buses `1..N_BUS`, each of them blank. -/
theorem State.bus?_resetWith (p : Params) (b : Byte) : (State.resetWith p).bus? b =
    if 1 ≤ b.toNat ∧ b.toNat ≤ p.nBus then some (Bus.atReset p.qcap) else none := by
  by_cases hb : 1 ≤ b.toNat ∧ b.toNat ≤ p.nBus
  · have hlt : b.toNat - 1 < p.nBus := by omega
    simp [State.bus?, State.busInRange, State.resetWith, hb, hlt]
  · simp [State.bus?, State.busInRange, State.resetWith, hb]

theorem State.regBus?_resetWith (p : Params) (b : Byte) : (State.resetWith p).regBus? b = none := by
  rw [State.regBus?, State.bus?_resetWith]
  split_ifs <;> rfl

/-- Settles O11: the lookups of the state after reset, and the fields of a blank bus. -/
theorem resetValues : Obligations.ResetValues := by
  intro p t d b
  refine ⟨State.txr?_resetWith p t, State.dev?_resetWith p d, State.regBus?_resetWith p b, ?_, fun q hq => ?_⟩
  · simp [State.bus?_resetWith]
  · have hblank : q = Bus.atReset p.qcap := by
      rw [State.bus?_resetWith] at hq
      split_ifs at hq
      exact (Option.some.inj hq).symm
    subst hblank
    exact ⟨rfl, rfl, rfl, rfl, rfl, rfl, rfl, fun k => by cases k <;> rfl⟩

/-- Settles O12: every bus is blank, and no staging register or device slot is valid. -/
theorem resetMeetsInvariants : Obligations.ResetMeetsInvariants := by
  intro p hp
  have ⟨_, ⟨hqcap, _⟩, _⟩ := hp
  exact
    { params := hp
      txrLength := List.length_replicate
      devsLength := List.length_replicate
      busesLength := List.length_replicate
      buses := fun q hq => List.eq_of_mem_replicate hq ▸ Bus.atReset_wf hqcap
      devs := by simp
      txrs := by simp
      txrDevs := by simp }

/-! ## The invariants under a step (R37) -/

/-- Each thing a step can do keeps the invariants: reset has them afresh, taking an input and latching what arrives
touch only ports and pending bits, and an instruction's effect keeps them. -/
theorem StepEffect.inv (hI : s.Inv) (h : StepEffect s s') : s'.Inv := by
  cases h with
  | reset => exact (resetMeetsInvariants s.params hI.params).congr rfl rfl rfl rfl
  | run i s1 s' _ _ hp _ he => exact he.inv (hp.inv hI)
  | illegal s1 _ _ hp => exact (hp.inv hI).congr rfl rfl rfl rfl
  | dropped s1 _ _ hp => exact hp.inv hI
  | idle => exact hI

/-- Settles O13, by the cases of what a step can do. -/
theorem stepKeepsInvariants : Obligations.StepKeepsInvariants :=
  fun _ _ hI h => (effect_of_step hI h).inv hI

/-! ## What is never destroyed (R28, R252) -/

/-- The parameters stand, and what is valid in the device table and the staging registers stays valid. -/
structure State.Keeps (s s' : State) : Prop where
  params : s'.params = s.params
  devs : ∀ d v, s.dev? d = some v → ∃ v', s'.dev? d = some v'
  txrs : ∀ t x, s.txr? t = some x → ∃ x', s'.txr? t = some x'

theorem State.Keeps.of_tables (hp : s'.params = s.params) (ht : s'.txr = s.txr) (hd : s'.devs = s.devs) :
    s.Keeps s' where
  params := hp
  devs := fun d v h => ⟨v, (State.dev?_congr hp hd d).trans h⟩
  txrs := fun t x h => ⟨x, (State.txr?_congr hp ht t).trans h⟩

theorem State.Keeps.trans {s1 : State} (h : s.Keeps s1) (h' : s1.Keeps s') : s.Keeps s' where
  params := h'.params.trans h.params
  devs := fun d v hd => (h.devs d v hd).elim (h'.devs d)
  txrs := fun t x ht => (h.txrs t x ht).elim (h'.txrs t)

theorem State.Keeps.setTxr (hI : s.Inv) {t : Byte} (hr : t.toNat < s.params.nTxr) (x : Txn) :
    s.Keeps (s.setTxr t x) where
  params := rfl
  devs := fun d v h => ⟨v, h⟩
  txrs := fun t' x' h => by
    by_cases e : t' = t
    · exact ⟨x, e ▸ State.txr?_setTxr_self hr hI.txrLength x⟩
    · exact ⟨x', (State.txr?_setTxr_ne e x).trans h⟩

theorem State.Keeps.setDev (hI : s.Inv) {d : Byte} (hr : d.toNat < s.params.nDev) (v : Dev) :
    s.Keeps (s.setDev d v) where
  params := rfl
  devs := fun d' v' h => by
    by_cases e : d' = d
    · exact ⟨v, e ▸ State.dev?_setDev_self hr hI.devsLength v⟩
    · exact ⟨v', (State.dev?_setDev_ne e v).trans h⟩
  txrs := fun t x h => ⟨x, h⟩

/-- An instruction writes a staging register or a device slot only to make it valid. -/
theorem Effect.keeps (hI : s.Inv) (h : Effect i s s') : s.Keeps s' := by
  cases h with
  | stage t x _ _ hr => exact (State.Keeps.setTxr hI hr x).trans (.of_tables rfl rfl rfl)
  | device d v _ _ hr => exact (State.Keeps.setDev hI hr v).trans (.of_tables rfl rfl rfl)
  | _ => exact .of_tables rfl rfl rfl

/-- Without reset, a step destroys nothing. -/
theorem StepEffect.keeps (hI : s.Inv) (hr0 : s.resetReq = false) (h : StepEffect s s') : s.Keeps s' := by
  cases h with
  | reset _ hr => simp [hr0] at hr
  | run i s1 s' _ _ hp _ he => exact (State.Keeps.of_tables hp.params hp.txr hp.devs).trans (he.keeps (hp.inv hI))
  | illegal s1 _ _ hp => exact .of_tables hp.params hp.txr hp.devs
  | dropped s1 _ _ hp => exact .of_tables hp.params hp.txr hp.devs
  | idle => exact .of_tables rfl rfl rfl

/-- Settles O15: the tables by what a step can do, the registry by what a step can do to one registered bus. -/
theorem registrationIsPermanent : Obligations.RegistrationIsPermanent := by
  intro s s' hI hr0 h
  have hk := (effect_of_step hI h).keeps hI hr0
  refine ⟨hk.params, fun b c q hr => ?_, hk.devs, hk.txrs⟩
  obtain ⟨-, -, q', -, hr', -, -⟩ := busMove_of_step hI hr0 h hr
  exact ⟨q', hr'⟩

/-! ## The table of writers (R38) -/

/-- `q'` differs from `q` at most in the groups of state `gs`, and in no pending bit. -/
structure Bus.WritesOnly (gs : List StateGroup) (q q' : Bus) : Prop where
  registry : .registry ∉ gs → q'.cfg = q.cfg
  queue : .queue ∉ gs → q'.slots = q.slots ∧ q'.head = q.head ∧ q'.tail = q.tail ∧ q'.count = q.count
  flags : .flags ∉ gs → q'.busy = q.busy ∧ q'.curValid = q.curValid
  err : .err ∉ gs → q'.err = q.err ∧ q'.errLost = q.errLost
  pend : ∀ k, q'.pend k = q.pend k

variable {gs : List StateGroup}

theorem Bus.WritesOnly.refl (gs : List StateGroup) (q : Bus) : q.WritesOnly gs q :=
  ⟨fun _ => rfl, fun _ => ⟨rfl, rfl, rfl, rfl⟩, fun _ => ⟨rfl, rfl⟩, fun _ => ⟨rfl, rfl⟩, fun _ => rfl⟩

theorem Bus.WritesOnly.trans (h : q.WritesOnly gs q1) (h' : q1.WritesOnly gs q') : q.WritesOnly gs q' where
  registry := fun hn => (h'.registry hn).trans (h.registry hn)
  queue := fun hn => by
    obtain ⟨hs, hh, ht, hc⟩ := h.queue hn
    simpa only [hs, hh, ht, hc] using h'.queue hn
  flags := fun hn => by
    obtain ⟨hb, hv⟩ := h.flags hn
    simpa only [hb, hv] using h'.flags hn
  err := fun hn => by
    obtain ⟨he, hl⟩ := h.err hn
    simpa only [he, hl] using h'.err hn
  pend := fun k => (h'.pend k).trans (h.pend k)

theorem Bus.WritesOnly.withCfg (hg : .registry ∈ gs) (q : Bus) (cfg : Option BusCfg) :
    q.WritesOnly gs { q with cfg := cfg } :=
  { Bus.WritesOnly.refl gs q with registry := fun hn => absurd hg hn, pend := fun k => by cases k <;> rfl }

theorem Bus.WritesOnly.withFlags (hg : .flags ∈ gs) (q : Bus) (busy curValid : Bool) :
    q.WritesOnly gs { q with busy := busy, curValid := curValid } :=
  { Bus.WritesOnly.refl gs q with flags := fun hn => absurd hg hn, pend := fun k => by cases k <;> rfl }

theorem Bus.WritesOnly.withErr (hg : .err ∈ gs) (q : Bus) (err : Option ErrRec) (errLost : Bool) :
    q.WritesOnly gs { q with err := err, errLost := errLost } :=
  { Bus.WritesOnly.refl gs q with err := fun hn => absurd hg hn, pend := fun k => by cases k <;> rfl }

theorem Bus.WritesOnly.withQueue (hg : .queue ∈ gs) (q : Bus) (slots : List (Option Txn)) (head tail count : Nat) :
    q.WritesOnly gs { q with slots := slots, head := head, tail := tail, count := count } :=
  { Bus.WritesOnly.refl gs q with queue := fun hn => absurd hg hn, pend := fun k => by cases k <;> rfl }

theorem Bus.WritesOnly.latch (hg : .err ∈ gs) (q : Bus) (cause : Status) (ctx : Ctx) :
    q.WritesOnly gs (q.latch cause ctx) := by
  unfold Bus.latch
  split
  · exact .withErr hg q _ q.errLost
  · exact .withErr hg q q.err _

theorem Bus.WritesOnly.pushed (hg : .queue ∈ gs) (q : Bus) (n : Nat) (x : Txn) : q.WritesOnly gs (q.pushed n x) :=
  .withQueue hg q _ q.head _ _

theorem Bus.WritesOnly.popped (hq : .queue ∈ gs) (hf : .flags ∈ gs) (q : Bus) (n : Nat) :
    q.WritesOnly gs (q.popped n) :=
  (Bus.WritesOnly.withFlags hf q false false).trans (.withQueue hq _ _ _ q.tail _)

theorem Bus.WritesOnly.dispatched (hf : .flags ∈ gs) (he : .err ∈ gs) (q : Bus) (accepted : Bool) (ctx : Ctx) :
    q.WritesOnly gs (q.dispatched accepted ctx) := by
  cases accepted
  · exact (Bus.WritesOnly.withFlags hf q false true).trans (.latch he _ _ _)
  · exact .withFlags hf q true true

/-- Every bus of `s` is in `s'` the same but for the groups of state `gs`. -/
def State.BusesWriteOnly (gs : List StateGroup) (s s' : State) : Prop :=
  ∀ b q q', s.bus? b = some q → s'.bus? b = some q' → q.WritesOnly gs q'

theorem State.BusesWriteOnly.of_buses (hp : s'.params = s.params) (hb : s'.buses = s.buses) :
    s.BusesWriteOnly gs s' := by
  intro b q q' hq hq'
  rw [State.bus?_congr hp hb, hq] at hq'
  cases hq'
  exact .refl gs q

/-- A write of one bus leaves the others as they were. -/
theorem State.BusesWriteOnly.of_setBus (h0 : s.bus? b = some q) (hw : q.WritesOnly gs q1)
    (hp : s'.params = s.params) (hb : s'.buses = (s.setBus b q1).buses) : s.BusesWriteOnly gs s' := by
  intro b' r r' hr hr'
  have hlook : (s.setBus b q1).bus? b' = some r' := (State.bus?_congr (s := s.setBus b q1) hp.symm hb.symm b').trans hr'
  by_cases e : b' = b
  · subst e
    rw [State.bus?_setBus_self h0] at hlook
    rw [h0] at hr
    cases hr
    cases hlook
    exact hw
  · rw [State.bus?_setBus_ne e, hr] at hlook
    cases hlook
    exact .refl gs r

/-- A submission is listed as a writer of the queue, the flags and the error latch. -/
theorem writesOf_of_submission {bx : Byte × Txn} (h : submission s i = some bx) : writesOf i = [.queue, .flags, .err] := by
  cases i with
  | bussub | devsub | txsend => rfl
  | _ => cases h

/-- The staging registers are written by an instruction that is listed for them. -/
theorem Effect.txr_eq (h : Effect i s s') (hn : .txr ∉ writesOf i) : s'.txr = s.txr := by
  cases h with
  | stage t x _ hw => simp [hw] at hn
  | _ => rfl

/-- The device table is written by an instruction that is listed for it. -/
theorem Effect.devs_eq (h : Effect i s s') (hn : .dev ∉ writesOf i) : s'.devs = s.devs := by
  cases h with
  | device d v _ hw => simp [hw] at hn
  | _ => rfl

/-- The buses are written in the groups that the table lists for the instruction. BUSINIT's other writes of R161
change nothing, since an unregistered bus is blank (I6). -/
theorem Effect.buses_writeOnly (hI : s.Inv) (h : Effect i s s') : s.BusesWriteOnly (writesOf i) s' := by
  have hbus : ∀ {b : Byte} {c : BusCfg} {q : Bus}, s.regBus? b = some (c, q) → s.bus? b = some q :=
    fun hr => (State.regBus?_eq_some.mp hr).1
  cases h with
  | answer | hook | stage | device | ignored | route => exact .of_buses rfl rfl
  | register b q c hi hq hn =>
    obtain ⟨name, clk, g, own1, own2, rfl⟩ := hi
    have hblank := (hI.bus hq).unregistered hn
    exact .of_setBus hq (hblank ▸ .withCfg (by simp [writesOf]) _ _) rfl rfl
  | drain b c q v hi hr =>
    subst hi
    exact .of_setBus (hbus hr) (.withErr (by simp [writesOf]) q _ _) rfl rfl
  | join b x c q hi hr =>
    exact .of_setBus (hbus hr) (.pushed (by simp [writesOf_of_submission hi]) q _ x) rfl rfl
  | notIdle b x c q hi hr =>
    exact .of_setBus (hbus hr) (.pushed (by simp [writesOf_of_submission hi]) q _ x) rfl rfl
  | start b x c q st v hi hr =>
    have hw := writesOf_of_submission hi
    exact .of_setBus (hbus hr) ((Bus.WritesOnly.pushed (by simp [hw]) q _ x).trans
      (.dispatched (by simp [hw]) (by simp [hw]) _ _ _)) rfl rfl
  | spurious b c q hi hr =>
    refine .of_setBus (hbus hr) (.latch ?_ q _ _) rfl rfl
    rcases hi with rfl | rfl <;> simp [writesOf]
  | transferError b c q hi hr =>
    subst hi
    exact .of_setBus (hbus hr) ((Bus.WritesOnly.withFlags (by simp [writesOf]) q false q.curValid).trans
      (.latch (by simp [writesOf]) _ _ _)) rfl rfl
  | completeLast b c q x hi hr =>
    subst hi
    exact .of_setBus (hbus hr) (.popped (by simp [writesOf]) (by simp [writesOf]) q _) rfl rfl
  | completeNext b c q x y hi hr =>
    subst hi
    exact .of_setBus (hbus hr) ((Bus.WritesOnly.popped (by simp [writesOf]) (by simp [writesOf]) q _).trans
      (.dispatched (by simp [writesOf]) (by simp [writesOf]) _ _ _)) rfl rfl

/-- Settles O50, by the cases of what an instruction can do. -/
theorem instructionsWriteOnlyListedState : Obligations.InstructionsWriteOnlyListedState := by
  intro i s s' hI h
  have he := effect_of_exec hI h
  refine ⟨he.txr_eq, he.devs_eq, fun b q q' hq hq' => ?_⟩
  obtain ⟨hreg, hqueue, hflags, herr, hpend⟩ := he.buses_writeOnly hI b q q' hq hq'
  exact ⟨hreg, hqueue, hflags, herr, hpend⟩

end Sys2Proof.Machine
end

section
/-! The statements of `20_memory.md`: a step runs the command on the port (R68), never stops (R72), and an instruction
leaves every bus alone but the one it is about (R69). -/

namespace Sys2Proof.Machine

variable {s s' : State} {i : Instr} {b : Byte}

/-! ## No step stops (R72, R207) -/

/-- Settles O14: from a state that meets the invariants each of the things a step can do is a next state. -/
theorem stepNeverStops : Obligations.StepNeverStops := fun _ hI =>
  have ⟨s', h, _⟩ := step_effect hI
  ⟨s', h⟩

/-! ## Buses are independent (R69, R232) -/

/-- Instruction `i` may write bus `b`: it is BUSINIT, BUSERR, CPLT or XERR of `b`, or it submits to `b`. -/
def MayWriteBus (s : State) (i : Instr) (b : Byte) : Prop :=
  (∃ name clk g own1 own2, i = .businit b name clk g own1 own2) ∨ i = .buserr b ∨ i = .cplt b ∨ i = .xerr b ∨
  ∃ x, submission s i = some (b, x)

theorem MayWriteBus.of_submission {x : Txn} (h : submission s i = some (b, x)) : MayWriteBus s i b :=
  .inr (.inr (.inr (.inr ⟨x, h⟩)))

theorem MayWriteBus.cplt : MayWriteBus s (.cplt b) b := .inr (.inr (.inl rfl))

theorem MayWriteBus.xerr : MayWriteBus s (.xerr b) b := .inr (.inr (.inr (.inl rfl)))

/-- Where one bus has been written, a bus that differs is that one. -/
theorem State.eq_of_bus?_ne {b' : Byte} {q : Bus} (hne : s'.bus? b ≠ s.bus? b) (hp : s'.params = s.params)
    (hb : s'.buses = (s.setBus b' q).buses) : b' = b := by
  by_contra e
  exact hne ((State.bus?_congr (s' := s.setBus b' q) hp hb b).trans (State.bus?_setBus_ne (Ne.symm e) q))

/-- An effect that changes a bus is of an instruction that may write it. -/
theorem Effect.mayWriteBus (he : Effect i s s') (hne : s'.bus? b ≠ s.bus? b) : MayWriteBus s i b := by
  cases he with
  | answer | hook | stage | device | ignored | route => exact absurd rfl hne
  | register b' q c hi =>
    obtain rfl := State.eq_of_bus?_ne (b' := b') hne rfl rfl
    exact .inl hi
  | drain b' c q v hi =>
    obtain rfl := State.eq_of_bus?_ne (b' := b') hne rfl rfl
    exact .inr (.inl hi)
  | join b' x c q hi | notIdle b' x c q hi | start b' x c q st v hi =>
    obtain rfl := State.eq_of_bus?_ne (b' := b') hne rfl rfl
    exact .of_submission hi
  | spurious b' c q hi =>
    obtain rfl := State.eq_of_bus?_ne (b' := b') hne rfl rfl
    rcases hi with rfl | rfl
    · exact .cplt
    · exact .xerr
  | transferError b' c q hi =>
    obtain rfl := State.eq_of_bus?_ne (b' := b') hne rfl rfl
    exact hi ▸ .xerr
  | completeLast b' c q x hi | completeNext b' c q x y hi =>
    obtain rfl := State.eq_of_bus?_ne (b' := b') hne rfl rfl
    exact hi ▸ .cplt

/-- Settles O51, by the cases of what an instruction can do. -/
theorem otherBusesAreUntouched : Obligations.OtherBusesAreUntouched :=
  fun _ _ _ _ hI h hne => (effect_of_exec hI h).mayWriteBus hne

/-! ## The command port (R68, R80, R98) -/

/-- With no other input, a command that decodes is run. -/
theorem step_of_instr {rest : List Word} (hr : s.resetReq = false) (hn : s.pending? = none) (he : s.evPort = [])
    (hd : decodeCommand s.cmdPort = .instr i rest) : step s = exec i ({ s with cmdPort := rest } : State).arrive := by
  simp [step, selectInput, hr, hn, he, hd]

/-- With no other input, words that are no whole command leave the scheduler waiting. -/
theorem step_of_incomplete (hr : s.resetReq = false) (hn : s.pending? = none) (he : s.evPort = [])
    (hd : decodeCommand s.cmdPort = .incomplete) : step s = .next s := by
  simp [step, selectInput, hr, hn, he, hd]

/-- A header of a known `OP` with fewer words after it than its format has is no whole command yet (R98). -/
theorem decodeCommand_of_short {o : Opcode} {h : Word} {tl : List Word} (ho : hdrOp h = o.code)
    (hl : tl.length < o.operands) : decodeCommand (h :: tl) = .incomplete := by
  simp only [decodeCommand, ho, Opcode.ofByte_code]
  exact if_pos hl

/-- Settles O6: the step follows what the port decodes to, and an empty port or too few words decode as incomplete. -/
theorem stepRunsDecodedCommand : Obligations.StepRunsDecodedCommand := by
  intro s hr hn he
  have hwait := step_of_incomplete hr hn he
  refine ⟨fun i rest => step_of_instr hr hn he, hwait, fun hp => hwait (hp ▸ rfl), fun h tl o hp ho hl => hwait ?_⟩
  rw [hp]
  exact decodeCommand_of_short ho hl

end Sys2Proof.Machine
end

section
/-! The statements of `30_encoding.md` about the words alone (R81 to R87, R90, R93, R95, R98): on the command port and on
the event port, decoding and encoding are inverse to each other. -/

namespace Sys2Proof

/-! ## Headers and operand words -/

/-- A word that meets the mask and match of a row has the row's `OP`. -/
theorem hdrOp_of_tableMatch {o : Opcode} {h : Word} (hrow : h &&& o.tableMask = o.tableMatch) : hdrOp h = o.code := by
  rw [← mkHeader_fields h, o.tableMask_eq, o.tableMatch_eq, mkHeader_and, mkHeader_inj] at hrow
  exact (BitVec.and_allOnes (x := hdrOp h)).symm.trans hrow.1

/-- The fields of a header that passes the check have no bit outside the row's. -/
theorem headerOk_fields {o : Opcode} {h : Word} (hk : headerOk o h = true) :
    hdrA h &&& ~~~o.aMask = 0 ∧ hdrB h &&& ~~~o.bMask = 0 ∧ hdrF h &&& ~~~o.fMask = 0 := by
  simpa [headerOk, and_assoc] using hk

/-- A field with no bit outside the empty mask is zero. -/
theorem eq_zero_of_reserved {v : Byte} (h : v &&& ~~~(0 : Byte) = 0) : v = 0 :=
  (BitVec.and_allOnes (x := v)).symm.trans h

/-- A header is rebuilt from its opcode and its fields. -/
theorem mkHeader_eq {o : Opcode} {h : Word} {a b f : Byte} (ho : hdrOp h = o.code) (ha : hdrA h = a) (hb : hdrB h = b)
    (hf : f = hdrF h) : mkHeader o.code a b f = h := by
  rw [← ho, ← ha, ← hb, hf, mkHeader_fields]

/-- A word whose upper half is zero is rebuilt from its lower half. -/
theorem wordOfHalves_zero_loHalf {w : Word} (h : hiHalf w = 0) : wordOfHalves 0 (loHalf w) = w := by
  rw [← h, wordOfHalves_halves]

theorem Opcode.operands_le (o : Opcode) : o.operands ≤ 3 := by cases o <;> decide

/-- The operand words that the decoder reads, followed by the words it leaves, are the words after the header. -/
theorem take_operandWords_append_drop : ∀ {n : Nat} {tl : List Word}, n ≤ 3 → n ≤ tl.length →
    [tl.getD 0 0, tl.getD 1 0, tl.getD 2 0].take n ++ tl.drop n = tl
  | 0, _, _, _ => rfl
  | 1, _ :: _, _, _ => rfl
  | 2, _ :: _ :: _, _, _ => rfl
  | 3, _ :: _ :: _ :: _, _, _ => rfl

/-! ## Every encoding decodes (R98) -/

/-- Every instruction's encoding fits its row of the opcode table. -/
theorem encode_fits (i : Instr) : Laws.TableRow.Statement i := by
  open Laws.TableRow in
  cases i
  exacts [txnew .., txrd .., txwr .., txpre .., txpost .., txsend .., txcbpre .., txcbpost .., txget .., devnew ..,
    devatt .., devdet .., devsub .., devget .., businit .., bussub .., busnum .., busstat .., buserr .., buscfg ..,
    addrchk .., qsize .., qempty .., qhasdata .., qfull .., qpeek .., irqEv .., irqEr .., cplt .., xerr ..]

/-- The words of a command are a header of its row and as many operand words as the row has. -/
theorem encode_command {i : Instr} {ws : List Word} (he : encode i = .command ws) :
    ∃ o h tl, Laws.TableRow.rowOf i = .inl o ∧ ws = h :: tl ∧ h &&& o.tableMask = o.tableMatch ∧
      tl.length = o.operands := by
  have hfit := encode_fits i
  rw [Laws.TableRow.Statement, he] at hfit
  unfold Laws.TableRow.Fits at hfit
  split at hfit
  · rename_i o h tl hrow hws
    cases hws
    exact ⟨o, h, tl, hrow, rfl, hfit⟩
  · rename_i hws
    cases hws
  · exact hfit.elim

/-- A header that fits its row, the operand words of its format and any words after them decode to what the body does. -/
theorem decodeCommand_append {o : Opcode} {h : Word} {tl rest : List Word} {i : Instr}
    (hrow : h &&& o.tableMask = o.tableMatch) (hlen : tl.length = o.operands)
    (hbody : decodeBody o h ((tl ++ rest).getD 0 0) ((tl ++ rest).getD 1 0) ((tl ++ rest).getD 2 0) = .ok i) :
    decodeCommand (h :: (tl ++ rest)) = .instr i rest := by
  have ho := hdrOp_of_tableMatch hrow
  rw [decodeCommand_cons ho (by simp [hlen]), if_pos ((headerOk_iff ho).mpr hrow), hbody, ← hlen, List.drop_left]

/-- The body of a well-formed command's encoding decodes to the command. -/
theorem decodeBody_encode {i : Instr} {o : Opcode} {h : Word} {tl : List Word} (hwf : i.wf = true)
    (hrow : Laws.TableRow.rowOf i = .inl o) (he : encode i = .command (h :: tl)) (rest : List Word) :
    decodeBody o h ((tl ++ rest).getD 0 0) ((tl ++ rest).getD 1 0) ((tl ++ rest).getD 2 0) = .ok i := by
  cases i with
  | txnew | txrd | txwr =>
    cases hrow
    cases he
    refine checkT_eq_ok.mpr ⟨?_, ?_, ?_, ?_⟩
    · rw [hdrF_mkHeader, fRegw_encodeFT]
      exact bne_iff_ne.mp hwf
    all_goals simp
  | irqEv | irqEr | cplt | xerr => cases he
  | _ =>
    cases hrow
    cases he
    simp [decodeBody]

/-- Settles O2: the encoding fits its row, and its body decodes to the command. -/
theorem encodedCommandDecodesToItself : Obligations.EncodedCommandDecodesToItself := by
  intro i ws rest hwf he
  obtain ⟨o, h, tl, hrow, rfl, hmatch, hlen⟩ := encode_command he
  exact decodeCommand_append hmatch hlen (decodeBody_encode hwf hrow he rest)

/-! ## Whatever decodes is an encoding -/

/-- The encoding of what a body decodes to is the header and the operand words it was decoded from. -/
theorem encode_of_decodeBody {o : Opcode} {h w1 w2 w3 : Word} {i : Instr} (ho : hdrOp h = o.code)
    (hk : headerOk o h = true) (hd : decodeBody o h w1 w2 w3 = .ok i) :
    i.wf = true ∧ encode i = .command (h :: [w1, w2, w3].take o.operands) := by
  obtain ⟨hA, hB, hF⟩ := headerOk_fields hk
  obtain ⟨etaDir, etaT, eta3, eta2, eta1, etaMode, etaFlags⟩ := flagField_eta
  cases o with
  | txnew =>
    obtain ⟨hregw, h3, -, rfl⟩ := checkT_eq_ok.mp hd
    have hhdr := mkHeader_eq ho rfl (eq_zero_of_reserved hB) (etaDir _ hF)
    exact ⟨bne_iff_ne.mpr hregw, by
      rw [encode, Dir.bit_ofBit, hhdr, wordOfHalves_halves, wordOfHalves_zero_loHalf h3]
      rfl⟩
  | txrd | txwr =>
    obtain ⟨hregw, h3, h1, rfl⟩ := checkT_eq_ok.mp hd
    have hhdr := mkHeader_eq ho rfl rfl (etaT _ hF)
    exact ⟨bne_iff_ne.mpr hregw, by
      rw [encode, hhdr, wordOfHalves_zero_loHalf h3, wordOfHalves_zero_loHalf (h1 rfl)]
      rfl⟩
  | devnew =>
    have hhdr := mkHeader_eq ho rfl rfl (eq_zero_of_reserved hF).symm
    simp only [decodeBody] at hd
    split_ifs at hd with h1
    cases hd
    exact ⟨rfl, by rw [encode, hhdr, wordOfHalves_zero_loHalf (not_not.mp h1)]; rfl⟩
  | devatt | devsub | bussub =>
    cases hd
    exact ⟨rfl, by rw [encode, mkHeader_eq ho rfl rfl (eq_zero_of_reserved hF).symm]; rfl⟩
  | txget | qpeek =>
    cases hd
    exact ⟨rfl, by rw [encode, mkHeader_eq ho rfl (eq_zero_of_reserved hB) (eta3 _ hF)]; rfl⟩
  | devget =>
    cases hd
    exact ⟨rfl, by rw [encode, mkHeader_eq ho rfl (eq_zero_of_reserved hB) (eta1 _ hF)]; rfl⟩
  | buscfg =>
    cases hd
    exact ⟨rfl, by rw [encode, mkHeader_eq ho rfl (eq_zero_of_reserved hB) (eta2 _ hF)]; rfl⟩
  | businit =>
    cases hd
    have hhdr := mkHeader_eq ho rfl (eq_zero_of_reserved hB) (etaFlags _ hF)
    exact ⟨rfl, by rw [encode, hhdr, wordOfHalves_halves]; rfl⟩
  | addrchk =>
    cases hd
    have hhdr := mkHeader_eq ho (eq_zero_of_reserved hA) (eq_zero_of_reserved hB) (etaMode _ hF)
    exact ⟨rfl, by rw [encode, AddrMode.bit_ofBit, hhdr]; rfl⟩
  | _ =>
    cases hd
    exact ⟨rfl, by rw [encode, mkHeader_eq ho rfl (eq_zero_of_reserved hB) (eq_zero_of_reserved hF).symm]; rfl⟩

/-- Settles O3: header and operand words are rebuilt from what they decode to. -/
theorem decodedCommandIsItsEncoding : Obligations.DecodedCommandIsItsEncoding := by
  intro ws i rest hd
  obtain ⟨o, h, tl, rfl, ho, hlen, hk, hbody, rfl⟩ := decodeCommand_instr hd
  obtain ⟨hwf, he⟩ := encode_of_decodeBody ho hk hbody
  exact ⟨hwf, _, he, by rw [List.cons_append, take_operandWords_append_drop o.operands_le hlen]⟩

/-! ## Worked encodings (section 9) -/

/-- Settles O1, by evaluating the decoders on the words. -/
theorem writtenOutWordsDecode : Obligations.WrittenOutWordsDecode :=
  ⟨rfl, rfl, rfl, rfl, rfl, rfl, rfl, rfl, rfl, rfl, rfl, rfl⟩

/-! ## Event words (R95, R96) -/

/-- The words of R95 as numbers. -/
theorem encodeEvent_eq (b : Byte) :
    encodeEvent .irqEv b = 0x1000 + b.setWidth 16 ∧ encodeEvent .irqEr b = 0x1100 + b.setWidth 16 ∧
    encodeEvent .cplt b = 0x2000 + b.setWidth 16 ∧ encodeEvent .xerr b = 0x3000 + b.setWidth 16 := by
  revert b
  decide

/-- A word that decodes is put together again from the event and the bus number it decodes to. -/
theorem eq_encodeEvent_of_decodeEvent {w : Half} {k : EventKind} {b : Byte} (hd : decodeEvent w = .ok (k, b)) :
    w = encodeEvent k b := by
  simp only [decodeEvent] at hd
  split at hd
  · cases hd
  · rename_i hres
    rw [← mkEvent_fields (not_not.mp hres)]
    split_ifs at hd with h1 hc h2 hc h3 hc
    · cases hd
      rw [h1, hc]
      rfl
    · cases hd
      rw [h1, Bool.eq_false_iff.mpr hc]
      rfl
    · cases hd
      rw [h2, Bool.eq_false_iff.mpr hc]
      rfl
    · cases hd
      rw [h3, Bool.eq_false_iff.mpr hc]
      rfl

/-- `KIND` is one of the three of R95, or outside their range. -/
theorem kind_cases (kind : BitVec 4) : kind = 1 ∨ kind = 2 ∨ kind = 3 ∨
    (kind ≠ 1 ∧ kind ≠ 2 ∧ kind ≠ 3 ∧ (kind.toNat < 1 ∨ 3 < kind.toNat)) := by
  revert kind
  decide

/-- The words of R96 are those that do not decode. -/
theorem decodeEvent_error_iff (w : Half) : (∃ why, decodeEvent w = .error why) ↔
    ((w.extractLsb' 12 4).toNat < 1 ∨ 3 < (w.extractLsb' 12 4).toNat ∨ w.extractLsb' 9 3 ≠ 0 ∨
      (w.getLsbD 8 = true ∧ w.extractLsb' 12 4 ≠ 1)) := by
  simp only [decodeEvent]
  by_cases hres : w.extractLsb' 9 3 = 0
  · rw [if_neg (not_not.mpr hres)]
    rcases kind_cases (w.extractLsb' 12 4) with h | h | h | ⟨h1, h2, h3, hrange⟩
    · simp [h, hres]
    · cases w.getLsbD 8 <;> simp [h, hres]
    · cases w.getLsbD 8 <;> simp [h, hres]
    · rw [if_neg h1, if_neg h2, if_neg h3]
      exact ⟨fun _ => hrange.elim .inl fun h => .inr (.inl h), fun _ => ⟨_, rfl⟩⟩
  · rw [if_pos hres]
    exact ⟨fun _ => .inr (.inr (.inl hres)), fun _ => ⟨_, rfl⟩⟩

/-- Settles O5: the words as numbers, the two directions of the round trip, and the words of R96. -/
theorem eventWordsRoundTrip : Obligations.EventWordsRoundTrip :=
  ⟨encodeEvent_eq, decodeEvent_encodeEvent, fun _ _ _ => eq_encodeEvent_of_decodeEvent, decodeEvent_error_iff⟩

end Sys2Proof
end

section
/-! The statements of `30_encoding.md` about the machine: an illegal command (R93), unusable handles (R94) and the one
response of a command (R80, R88). -/

namespace Sys2Proof

/-! ## Illegal commands (R93) -/

theorem fRegw_hdrF (h : Word) : fRegw (hdrF h) = h.extractLsb' 1 2 := by
  refine BitVec.eq_of_getLsbD_eq fun i hi => ?_
  simp [fRegw, hdrF, BitVec.getLsbD_extractLsb']

/-- The operand checks of Format T fail exactly for the operand errors of R93. -/
theorem checkT_isOk {fromDevice : Bool} {h w1 w3 : Word} {i : Instr} :
    (∃ j, checkT fromDevice (hdrF h) w1 w3 i = .ok j) ↔
      ¬ ((h.extractLsb' 1 2 = 3 ∨ w3.extractLsb' 16 16 ≠ 0) ∨ (fromDevice = true ∧ w1.extractLsb' 16 16 ≠ 0)) := by
  simp only [checkT_eq_ok, fRegw_hdrF, hiHalf]
  simp [and_assoc]

/-- A body decodes unless an operand is illegal. -/
theorem decodeBody_isOk_iff (o : Opcode) (h w1 w2 w3 : Word) :
    (∃ i, decodeBody o h w1 w2 w3 = .ok i) ↔ ¬ operandIllegal o h w1 w3 := by
  cases o with
  | txnew | txrd | txwr =>
    simp only [decodeBody]
    rw [checkT_isOk]
    simp [operandIllegal, Opcode.format]
  | devnew =>
    have hop : operandIllegal .devnew h w1 w3 ↔ hiHalf w1 ≠ 0 := by simp [operandIllegal, Opcode.format, hiHalf]
    rw [hop]
    by_cases h1 : hiHalf w1 = 0#16 <;> simp [decodeBody, h1]
  | _ => simp [decodeBody, operandIllegal, Opcode.format]

/-- An unknown `OP` makes an illegal command of one word. -/
theorem decodeCommand_of_unknown {h : Word} {tl : List Word} (hu : ∀ o : Opcode, hdrOp h ≠ o.code) :
    decodeCommand (h :: tl) = .illegal .unknownOpcode tl := by
  cases ho : Opcode.ofByte (hdrOp h) with
  | none => simp only [decodeCommand, ho]
  | some o => exact absurd (Opcode.code_of_ofByte ho) (hu o)

/-- A whole command of a known `OP` with a wrong fixed bit or an illegal operand is illegal, and has its full length. -/
theorem decodeCommand_illegal {o : Opcode} {h : Word} {tl : List Word} (ho : hdrOp h = o.code)
    (hl : o.operands ≤ tl.length)
    (hbad : h &&& o.tableMask ≠ o.tableMatch ∨ operandIllegal o h (tl.getD 0 0) (tl.getD 2 0)) :
    ∃ why, decodeCommand (h :: tl) = .illegal why (tl.drop o.operands) := by
  rw [decodeCommand_cons ho hl]
  split_ifs with hk
  · have hop := hbad.resolve_left (not_not.mpr ((headerOk_iff ho).mp hk))
    split
    · rename_i hb
      exact absurd hop ((decodeBody_isOk_iff ..).mp ⟨_, hb⟩)
    · exact ⟨_, rfl⟩
  · exact ⟨_, rfl⟩

/-- Any other whole command of a known `OP` decodes. -/
theorem decodeCommand_legal {o : Opcode} {h : Word} {tl : List Word} (ho : hdrOp h = o.code)
    (hl : o.operands ≤ tl.length) (hrow : h &&& o.tableMask = o.tableMatch)
    (hop : ¬ operandIllegal o h (tl.getD 0 0) (tl.getD 2 0)) :
    ∃ i, decodeCommand (h :: tl) = .instr i (tl.drop o.operands) := by
  obtain ⟨i, hb⟩ := (decodeBody_isOk_iff o h (tl.getD 0 0) (tl.getD 1 0) (tl.getD 2 0)).mpr hop
  exact ⟨i, by rw [decodeCommand_cons ho hl, if_pos ((headerOk_iff ho).mpr hrow), hb]⟩

end Sys2Proof

namespace Sys2Proof.Machine

variable {s s' : State} {i : Instr}

/-- With no other input, an illegal command is answered `ERR_ILLEGAL`. -/
theorem step_of_illegal {why : Reject} {rest : List Word} (hr : s.resetReq = false) (hn : s.pending? = none)
    (he : s.evPort = []) (hd : decodeCommand s.cmdPort = .illegal why rest) :
    step s = ({ s with cmdPort := rest } : State).arrive.replies .errIllegal 0 := by
  simp only [step, selectInput, hr, hn, he, hd]
  rfl

/-- Settles O4: what the words decode to, in each of the three cases, and the step that follows it. -/
theorem illegalCommandsAreRefused : Obligations.IllegalCommandsAreRefused := by
  intro s h tl hr hn he hp
  rw [hp]
  refine ⟨fun hu => step_of_illegal hr hn he (hp ▸ decodeCommand_of_unknown hu), fun o ho hl =>
    ⟨fun hbad => ?_, decodeCommand_legal ho hl⟩⟩
  obtain ⟨why, hd⟩ := decodeCommand_illegal ho hl hbad
  exact step_of_illegal hr hn he (hp ▸ hd)

/-! ## Unusable handles (R93, R94) -/

theorem withTxr_refused {t : Byte} {f : Txn → Result} (hf : ∀ x, s.txr? t = some x → f x = s.replies .errOperand 0) :
    withTxr t s f = s.replies .errOperand 0 := by
  unfold withTxr
  split
  · rfl
  · exact hf _ (by assumption)

theorem withDev_refused {d : Byte} {f : Dev → Result} (hf : ∀ v, s.dev? d = some v → f v = s.replies .errOperand 0) :
    withDev d s f = s.replies .errOperand 0 := by
  unfold withDev
  split
  · rfl
  · exact hf _ (by assumption)

theorem withBus_refused {b : Byte} {f : BusCfg → Bus → Result}
    (hf : ∀ c q, s.regBus? b = some (c, q) → f c q = s.replies .errOperand 0) :
    withBus b s f = s.replies .errOperand 0 := by
  unfold withBus
  split
  · rfl
  · exact hf _ _ (by assumption)

/-- `deviceSubmit` is a command on a usable Device and a usable staging register. -/
theorem deviceSubmit_eq (d t : Byte) (s : State) : deviceSubmit d t s = withDev d s fun v => withTxr t s fun x =>
    if v.bus = 0 then raise .errUseNobus s else busSetTransaction v.bus x .fg s := rfl

theorem constructForDevice_refused {dir : Dir} {t d : Byte} {regaddr len : Half} {regw : BitVec 2} {buf : Word}
    (hw : regwOk regw = true) (h : (s.txrInRange t && (s.dev? d).isSome) = false) :
    constructForDevice dir t d regaddr regw buf len s = s.replies .errOperand 0 := by
  rw [constructForDevice, if_pos hw]
  split_ifs with ht
  · split
    · rfl
    · rename_i v hv
      simp [ht, hv] at h
  · rfl

/-- Only Format T has an illegal operand in a decoded form, `REGW = 3`, and it is checked before the handles. -/
theorem exec_of_not_wf (hw : i.wf = false) : exec i s = s.replies .errIllegal 0 := by
  cases i with
  | txnew | txrd | txwr => exact if_neg (Bool.eq_false_iff.mp hw)
  | _ => cases hw

/-- The first handle that is not usable ends a command. -/
theorem exec_of_not_usable (hw : i.wf = true) (h : handlesUsable s i = false) :
    exec i s = s.replies .errOperand 0 := by
  cases i with
  | txnew =>
    refine (if_pos hw).trans (if_neg ?_)
    simpa [handlesUsable] using h
  | txrd | txwr => exact constructForDevice_refused hw h
  | txpre | txpost | txsend | txcbpre | txcbpost | txget =>
    refine withTxr_refused fun x hx => ?_
    simp [handlesUsable, hx] at h
  | devnew d b addr name =>
    simp only [exec, execDevnew]
    split_ifs with hd hb
    · exact absurd hb (by simpa [handlesUsable, hd] using h)
    · rfl
    · rfl
  | devatt =>
    refine withDev_refused fun v hv => if_neg ?_
    simpa [handlesUsable, hv] using h
  | devsub d t =>
    refine (deviceSubmit_eq d t s).trans (withDev_refused fun v hv => withTxr_refused fun x hx => ?_)
    simp [handlesUsable, hv, hx] at h
  | devdet | devget =>
    refine withDev_refused fun v hv => ?_
    simp [handlesUsable, hv] at h
  | bussub =>
    refine withBus_refused fun c q hr => withTxr_refused fun x hx => ?_
    simp [handlesUsable, hr, hx] at h
  | busnum | busstat | buserr | buscfg | qsize | qempty | qhasdata | qfull | qpeek =>
    refine withBus_refused fun c q hr => ?_
    simp [handlesUsable, hr] at h
  | businit | addrchk | irqEv | irqEr | cplt | xerr => cases h

/-- Settles O47: the encoding's check comes first, then the handles'. -/
theorem unusableHandlesRefused : Obligations.UnusableHandlesRefused :=
  fun _ _ => ⟨exec_of_not_wf, exec_of_not_usable⟩

/-! ## One response (R80, R88) -/

/-- A submission is a command. -/
theorem isCommand_of_submission {bx : Byte × Txn} (h : submission s i = some bx) : i.isCommand = true := by
  cases i with
  | irqEv | irqEr | cplt | xerr => cases h
  | _ => rfl

/-- `s'` has one response more than `s`, whose value is zero when the status is an error or `NULL`. -/
def AnswersOnce (s s' : State) : Prop :=
  ∃ st v, s'.resp = s.resp ++ [⟨st, v⟩] ∧ (st.isError = true ∨ st = .null → v = 0)

theorem AnswersOnce.zero {st : Status} (h : s'.resp = s.resp ++ [⟨st, 0⟩]) : AnswersOnce s s' := ⟨st, 0, h, fun _ => rfl⟩

theorem AnswersOnce.ok {v : Word} (h : s'.resp = s.resp ++ [⟨.ok, v⟩]) : AnswersOnce s s' :=
  ⟨.ok, v, h, by simp [Status.isError, Status.cls]⟩

/-- An effect is a command's, with its one response, or an event's, with none. -/
theorem Effect.responses (h : Effect i s s') :
    i.isCommand = true ∧ AnswersOnce s s' ∨ i.isCommand = false ∧ s'.resp = s.resp := by
  cases h with
  | answer st v hi hv => exact .inl ⟨hi, st, v, rfl, hv⟩
  | hook _ _ hi | stage _ _ hi | device _ _ hi => exact .inl ⟨hi, .ok rfl⟩
  | register _ _ _ hi =>
    obtain ⟨_, _, _, _, _, rfl⟩ := hi
    exact .inl ⟨rfl, .ok rfl⟩
  | drain _ _ _ _ hi => exact .inl ⟨hi ▸ rfl, .ok rfl⟩
  | join _ _ _ _ hi | notIdle _ _ _ _ hi => exact .inl ⟨isCommand_of_submission hi, .ok rfl⟩
  | start _ _ _ _ _ _ hi _ _ _ _ hst =>
    refine .inl ⟨isCommand_of_submission hi, ?_⟩
    split at hst <;> obtain ⟨rfl, rfl⟩ := hst
    · exact .ok rfl
    · exact .zero rfl
  | ignored hi => exact .inr ⟨hi, rfl⟩
  | route _ _ hi | spurious _ _ _ hi => rcases hi with rfl | rfl <;> exact .inr ⟨rfl, rfl⟩
  | transferError _ _ _ hi | completeLast _ _ _ _ hi | completeNext _ _ _ _ _ hi => exact .inr ⟨hi ▸ rfl, rfl⟩

/-- Settles O48, by the cases of what an instruction can do. -/
theorem oneResponsePerCommand : Obligations.OneResponsePerCommand := by
  intro i s s' hI h
  rcases (effect_of_exec hI h).responses with ⟨hi, hr⟩ | ⟨hi, hr⟩
  · exact ⟨fun _ => hr, fun he => by simp [hi] at he⟩
  · exact ⟨fun hc => by simp [hi] at hc, fun _ => hr⟩

end Sys2Proof.Machine
end

section
/-! The statements of `40_queue.md`: the ring with its indices is a bounded first-in first-out queue (R110 to R114), and
the queries of the family read it (R115 to R119). -/

namespace Sys2Proof.Machine

variable {p : Params} {q q' : Bus} {x y : Txn} {ys : List Txn} {s : State} {b : Byte} {c : BusCfg}
  {f : BusCfg → Bus → Result}

/-! ## The ring as a list (R33) -/

/-- No occupied position is skipped when the ring is read as a list. -/
theorem Bus.Wf.map_some_queue (hw : q.Wf p) :
    (q.queue p.qcap).map some = (List.range q.count).map (q.slotAt p.qcap) := by
  rw [Bus.queue, List.map_filterMap_some_eq_filter_map_isSome, List.filter_eq_self]
  intro o ho
  obtain ⟨k, hk, rfl⟩ := List.mem_map.mp ho
  obtain ⟨x, hx, -⟩ := hw.occupied k (List.mem_range.mp hk)
  rw [hx, Option.isSome_some]

theorem Bus.Wf.length_queue (hw : q.Wf p) : (q.queue p.qcap).length = q.count := by
  simpa using congrArg List.length hw.map_some_queue

/-- The oldest entry of the list is in the head slot. -/
theorem Bus.Wf.head_slot_of_queue_cons (hw : q.Wf p) (h : q.queue p.qcap = y :: ys) :
    q.count ≠ 0 ∧ q.slots.getD q.head none = some y := by
  have hn : q.count ≠ 0 := fun h0 => by simp [hw.queue_eq_nil.mpr h0] at h
  obtain ⟨x, hx, -⟩ := hw.head_slot hn
  obtain ⟨rfl, -⟩ := List.cons.inj ((hw.queue_eq_cons hn hx).symm.trans h)
  exact ⟨hn, hx⟩

/-! ## `Q_ENQUEUE` (R112) -/

theorem qEnqueue_eq_none_iff (n : Nat) : qEnqueue n q x = none ↔ q.count = n := by simp [qEnqueue]

/-- `Q_ENQUEUE` that is not refused puts the Transaction at the tail. -/
theorem qEnqueue_eq_some {n : Nat} (h : qEnqueue n q x = some q') : q.count ≠ n ∧ q' = q.pushed n x := by
  unfold qEnqueue at h
  split_ifs at h with hn
  exact ⟨hn, (Option.some.inj h).symm⟩

/-- The occupied slots stay where they were, and the new entry is behind them. -/
theorem Bus.Wf.queue_pushed (hw : q.Wf p) (hn : q.count ≠ p.qcap) (x : Txn) :
    (q.pushed p.qcap x).queue p.qcap = q.queue p.qcap ++ [x] := by
  have hlt : q.count < p.qcap := lt_of_le_of_ne hw.count hn
  have hold : ∀ k ∈ List.range q.count, (q.pushed p.qcap x).slotAt p.qcap k = q.slotAt p.qcap k := fun k hk => by
    have hk := List.mem_range.mp hk
    exact (hw.slotAt_enqueue hn x (hk.trans hlt)).trans (if_neg hk.ne)
  have hnew : (q.pushed p.qcap x).slotAt p.qcap q.count = some x := (hw.slotAt_enqueue hn x hlt).trans (if_pos rfl)
  calc (q.pushed p.qcap x).queue p.qcap
      = (List.range (q.count + 1)).filterMap ((q.pushed p.qcap x).slotAt p.qcap) := rfl
    _ = q.queue p.qcap ++ [x] := by
      rw [List.range_succ, List.filterMap_append, List.filterMap_congr hold, List.filterMap_cons_some hnew]
      rfl

theorem Bus.Wf.tail_pushed (hw : q.Wf p) (x : Txn) :
    (q.pushed p.qcap x).tail = ((q.pushed p.qcap x).head + (q.pushed p.qcap x).count) % p.qcap := by
  simp only [Bus.pushed, nextIndex, hw.tail, Nat.mod_add_mod, Nat.add_assoc]

/-! ## `Q_PEEK` (R114) and `Q_DEQUEUE` (R113) -/

theorem Bus.Wf.qPeek_eq (hw : q.Wf p) : qPeek q = .next (q.queue p.qcap).head? := by
  cases h : q.queue p.qcap with
  | nil => exact qPeek_empty (hw.queue_eq_nil.mp h)
  | cons y ys =>
    obtain ⟨hn, hy⟩ := hw.head_slot_of_queue_cons h
    exact qPeek_head hn hy

/-- Bus `q` with the head of its queue taken away and nothing else changed: what `Q_DEQUEUE` answers (R113). -/
def Bus.dequeued (q : Bus) (qcap : Nat) : Bus :=
  { q with slots := q.slots.set q.head none, head := nextIndex qcap q.head, count := q.count - 1 }

theorem Bus.Wf.qDequeue_of_queue_cons (hw : q.Wf p) (h : q.queue p.qcap = y :: ys) :
    qDequeue p.qcap q = .next (some (y, q.dequeued p.qcap)) := by
  obtain ⟨hn, hy⟩ := hw.head_slot_of_queue_cons h
  exact qDequeue_head p.qcap hn hy

/-- The slots behind the head each move one place towards it. -/
theorem Bus.Wf.queue_dequeued (hw : q.Wf p) (h : q.queue p.qcap = y :: ys) :
    (q.dequeued p.qcap).queue p.qcap = ys := by
  obtain ⟨hn, hy⟩ := hw.head_slot_of_queue_cons h
  have hmove : ∀ k ∈ List.range (q.count - 1), (q.dequeued p.qcap).slotAt p.qcap k = q.slotAt p.qcap (k + 1) :=
    fun k hk => by
      have hk := List.mem_range.mp hk
      have hcnt := hw.count
      exact (hw.slotAt_dequeue (by omega)).trans (if_neg (by omega))
  calc (q.dequeued p.qcap).queue p.qcap
      = (List.range (q.count - 1)).filterMap fun k => q.slotAt p.qcap (k + 1) := List.filterMap_congr hmove
    _ = ys := (List.cons.inj ((hw.queue_eq_cons hn hy).symm.trans h)).2

theorem Bus.Wf.tail_dequeued (hw : q.Wf p) (hn : q.count ≠ 0) :
    (q.dequeued p.qcap).tail = ((q.dequeued p.qcap).head + (q.dequeued p.qcap).count) % p.qcap := by
  have hidx : q.head + 1 + (q.count - 1) = q.head + q.count := by omega
  simp only [Bus.dequeued, nextIndex, hw.tail, Nat.mod_add_mod, hidx]

/-- Settles O33: each operation of the ring is the one of the list, since the occupied slots hold values. -/
theorem ringIsBoundedFifo : Obligations.RingIsBoundedFifo := by
  intro p q hw
  refine ⟨hw.length_queue, fun x => ⟨?refused, fun q' h => ?enqueued⟩, hw.qPeek_eq,
    fun h => qDequeue_empty _ (hw.queue_eq_nil.mp h), fun y ys h => ?dequeued⟩
  case refused => rw [hw.length_queue, qEnqueue_eq_none_iff]
  case enqueued =>
    obtain ⟨hn, rfl⟩ := qEnqueue_eq_some h
    exact ⟨hw.queue_pushed hn x, hw.tail_pushed x, rfl⟩
  case dequeued =>
    exact ⟨q.dequeued p.qcap, hw.qDequeue_of_queue_cons h, hw.queue_dequeued h,
      hw.tail_dequeued (hw.head_slot_of_queue_cons h).1, rfl⟩

/-! ## The queries (R115 to R119) -/

/-- A command on a registered bus runs with its configuration and its storage. -/
theorem withBus_of_regBus (hr : s.regBus? b = some (c, q)) : withBus b s f = f c q := by rw [withBus, hr]

/-- Settles O31: on a registered bus each query answers from its count, and on another bus the operand is refused. -/
theorem queueQueriesAnswerCount : Obligations.QueueQueriesAnswerCount := by
  intro b s
  refine ⟨fun hr => ?_, fun c q hr => ⟨withBus_of_regBus hr, withBus_of_regBus hr, ?hasdata, withBus_of_regBus hr⟩⟩
  · have hu : (s.regBus? b).isSome = false := by rw [hr, Option.isSome_none]
    exact ⟨exec_of_not_usable rfl hu, exec_of_not_usable rfl hu, exec_of_not_usable rfl hu, exec_of_not_usable rfl hu⟩
  case hasdata =>
    have hv : (if 0 < q.count then 1 else 0 : Word) = if q.count = 0 then 0 else 1 := by
      simp only [Nat.pos_iff_ne_zero, ne_eq, ite_not]
    exact (withBus_of_regBus hr).trans (congrArg (s.replies .ok) hv)

/-- QPEEK of a well-formed bus answers from the first element of its queue. -/
theorem exec_qpeek (hr : s.regBus? b = some (c, q)) (hw : q.Wf s.params) (sel : BitVec 3) :
    exec (.qpeek b sel) s =
      (q.queue s.params.qcap).head?.elim (s.replies .null 0) fun x => s.replies .ok (x.view sel) := by
  refine (withBus_of_regBus hr).trans ?_
  rw [hw.qPeek_eq]
  cases (q.queue s.params.qcap).head? <;> rfl

/-- Settles O32, by what QPEEK answers for the two forms of the queue. -/
theorem qpeekReadsHead : Obligations.QpeekReadsHead := by
  intro b sel s
  refine ⟨fun hr => exec_of_not_usable rfl (by rw [handlesUsable, hr, Option.isSome_none]), fun c q hI hr => ?_⟩
  have hpeek := exec_qpeek hr (hI.bus (State.regBus?_eq_some.mp hr).1) sel
  exact ⟨fun h => by rw [hpeek, h]; rfl, fun x xs h => by rw [hpeek, h]; rfl⟩

end Sys2Proof.Machine
end

section
/-! The statements of `41_transaction.md`: the constructors of a Transaction (R130 to R133), its hooks (R134 to R138),
its view (R140, R41), and its way to a bus (R139, R154). -/

namespace Sys2Proof

theorem Dir.bit_eq_true_iff (dir : Dir) : dir.bit = true ↔ dir = .read := by cases dir <;> decide

end Sys2Proof

namespace Sys2Proof.Machine

variable {s : State} {t d : Byte} {x : Txn} {v : Dev} {f : Txn → Result} {regw : BitVec 2} {regaddr len : Half}
  {buf : Word}

/-! ## Usable handles -/

/-- A command on a usable staging register runs with the descriptor staged there. -/
theorem withTxr_of_txr (hx : s.txr? t = some x) : withTxr t s f = f x := by rw [withTxr, hx]

/-- A command on a staging register that is not usable is refused as an operand. -/
theorem withTxr_of_none (hn : s.txr? t = none) : withTxr t s f = s.replies .errOperand 0 := by
  rw [withTxr, hn]
  rfl

theorem regwOk_of_ne (h3 : regw ≠ 3) : regwOk regw = true := bne_iff_ne.mpr h3

theorem State.txrInRange_iff : s.txrInRange t = true ↔ t.toNat < s.params.nTxr := decide_eq_true_iff

/-! ## Construction (R130 to R133) -/

/-- `VALIDATE_TX` raises exactly for a register address without a width. -/
theorem validateTx_iff : validateTx regw regaddr = true ↔ (regw = 0 → regaddr = 0) := by
  simp [validateTx, imp_iff_not_or]

theorem storeTxn_refused (hw : x.regw = 0) (ha : x.regaddr ≠ 0) : storeTxn t x s = s.replies .errConstruction 0 :=
  if_neg fun h => ha (validateTx_iff.mp h hw)

theorem storeTxn_stored (h : x.regw = 0 → x.regaddr = 0) : storeTxn t x s = .next ((s.setTxr t x).respond .ok 0) :=
  if_pos (validateTx_iff.mpr h)

/-- TXNEW of a usable register comes down to its last check and its write. -/
theorem exec_txnew (h3 : regw ≠ 3) (ht : t.toNat < s.params.nTxr) (dir : Dir) (addr : Half) :
    exec (.txnew t dir addr regaddr regw buf len) s =
      storeTxn t (newTxn dir addr regaddr regw buf len false 0) s :=
  (if_pos (regwOk_of_ne h3)).trans (if_pos (State.txrInRange_iff.mpr ht))

/-- TXRD and TXWR of usable handles come down to the same, with the Device's address. -/
theorem constructForDevice_of_usable (h3 : regw ≠ 3) (ht : t.toNat < s.params.nTxr) (hv : s.dev? d = some v)
    (dir : Dir) : constructForDevice dir t d regaddr regw buf len s =
      storeTxn t (newTxn dir v.addr regaddr regw buf len true d) s := by
  rw [constructForDevice, if_pos (regwOk_of_ne h3), if_pos (State.txrInRange_iff.mpr ht), hv]

/-- Settles O16, by the order of the checks: the handle, then `VALIDATE_TX`. -/
theorem txnewWritesDescriptor : Obligations.TxnewWritesDescriptor := by
  intro t dir addr regaddr regw buf len s h3
  refine ⟨fun ht => ?range, fun ht hw ha => ?invalid, fun ht h => ?stored⟩
  case range =>
    have hu : s.txrInRange t = false := decide_eq_false ht.not_gt
    exact exec_of_not_usable (regwOk_of_ne h3) hu
  case invalid => exact (exec_txnew h3 ht dir addr).trans (storeTxn_refused hw ha)
  case stored => exact (exec_txnew h3 ht dir addr).trans (storeTxn_stored h)

/-- Settles O17: the two factories differ in the direction only. -/
theorem txrdTxwrWriteDescriptor : Obligations.TxrdTxwrWriteDescriptor := by
  intro t d regaddr regw buf len s h3
  refine ⟨fun h => ?unusable, fun v ht hv => ?usable⟩
  case unusable =>
    have hu : (s.txrInRange t && (s.dev? d).isSome) = false := by
      rcases h with ht | hd
      · simp [State.txrInRange, ht]
      · simp [hd]
    exact ⟨exec_of_not_usable (regwOk_of_ne h3) hu, exec_of_not_usable (regwOk_of_ne h3) hu⟩
  case usable =>
    have hc := constructForDevice_of_usable (regaddr := regaddr) (buf := buf) (len := len) h3 ht hv
    exact ⟨fun hw ha => ⟨(hc .read).trans (storeTxn_refused hw ha), (hc .write).trans (storeTxn_refused hw ha)⟩,
      fun h => ⟨(hc .read).trans (storeTxn_stored h), (hc .write).trans (storeTxn_stored h)⟩⟩

/-! ## Hooks (R134 to R138) -/

/-- Settles O18: each setter is a write of the descriptor found with the two fields of its hook replaced. -/
theorem callbackSettersWriteHook : Obligations.CallbackSettersWriteHook := by
  intro t fn arg s
  exact ⟨fun hn => ⟨withTxr_of_none hn, withTxr_of_none hn⟩,
    fun x hx => ⟨withTxr_of_txr hx, withTxr_of_txr hx⟩⟩

/-- Settles O19: the records of a hook are those of `CB_INVOKE`, which is what the two commands emit. -/
theorem hookCommandsEmitCallback : Obligations.HookCommandsEmitCallback := by
  intro t s
  exact ⟨fun hn => ⟨withTxr_of_none hn, withTxr_of_none hn⟩,
    fun x hx => ⟨withTxr_of_txr hx, withTxr_of_txr hx⟩⟩

/-! ## The view (R140, R41) -/

/-- The word of selector 3 packs the Device reference, the width and the direction (R41). -/
theorem Txn.view_three (x : Txn) : x.view 3 =
    0#16 ++ x.devid ++ 0#4 ++ BitVec.ofBool x.devp ++ x.regw ++ BitVec.ofBool x.dir.bit := rfl

theorem Txn.view_three_fields (x : Txn) :
    (x.view 3).extractLsb' 16 16 = 0 ∧ (x.view 3).extractLsb' 8 8 = x.devid ∧ (x.view 3).extractLsb' 4 4 = 0 ∧
    (x.view 3).extractLsb' 1 2 = x.regw := by
  rw [x.view_three]
  simp (disch := omega) only [BitVec.extractLsb'_append_eq_of_le, BitVec.extractLsb'_append_eq_of_add_le,
    BitVec.extractLsb'_eq_self, Nat.reduceSub, BitVec.ofNat_eq_ofNat, and_self]

theorem Txn.view_three_flags (x : Txn) : (x.view 3).getLsbD 3 = x.devp ∧ (x.view 3).getLsbD 0 = x.dir.bit := by
  rw [x.view_three]
  simp only [BitVec.getLsbD_append]
  simp

/-- Settles O20, one selector after another. -/
theorem txgetReadsDescriptorView : Obligations.TxgetReadsDescriptorView := by
  intro t sel s
  refine ⟨fun hn => withTxr_of_none hn, fun x hx => ⟨x.view sel, withTxr_of_txr hx, ?_⟩⟩
  refine ⟨?_, ?_, ?_, ?_, ?_, ?_, ?_, ?_⟩ <;> rintro rfl
  · exact ⟨hiHalf_wordOfHalves x.addr x.regaddr, loHalf_wordOfHalves x.addr x.regaddr⟩
  · rfl
  · exact ⟨hiHalf_wordOfHalves 0 x.len, loHalf_wordOfHalves 0 x.len⟩
  · obtain ⟨hhigh, hdevid, hgap, hregw⟩ := x.view_three_fields
    obtain ⟨hdevp, hdir⟩ := x.view_three_flags
    exact ⟨hhigh, hdevid, hgap, hdevp, hregw, hdir ▸ x.dir.bit_eq_true_iff⟩
  all_goals rfl

/-! ## Forwarding (R139, R154) -/

/-- BUSSUB of a staged Transaction is the submission itself: where the bus is not registered, both refuse the
operand. -/
theorem exec_bussub (hx : s.txr? t = some x) (b : Byte) : exec (.bussub b t) s = busSetTransaction b x .fg s := by
  cases hr : s.regBus? b with
  | none =>
    rw [exec_of_not_usable rfl (by simp [handlesUsable, hr]), busSetTransaction, hr]
    rfl
  | some cq => exact (withBus_of_regBus hr).trans (withTxr_of_txr hx)

/-- DEVSUB of usable handles submits to the Device's bus, if it has one. -/
theorem exec_devsub (hv : s.dev? d = some v) (hx : s.txr? t = some x) : exec (.devsub d t) s =
    if v.bus = 0 then raise .errUseNobus s else busSetTransaction v.bus x .fg s := by
  refine (deviceSubmit_eq d t s).trans ?_
  rw [withDev, hv]
  exact withTxr_of_txr hx

/-- Settles O25: DEVSUB and BUSSUB end in the same submission, and TXSEND is DEVSUB of the Transaction's Device. -/
theorem deviceForwardsToItsBus : Obligations.DeviceForwardsToItsBus := by
  intro t d s
  refine ⟨fun h => ?unusable, fun v x hv hx => ⟨fun hb => ?nobus, fun hb => ?bus⟩, fun hn => ?unstaged,
    fun x hx => ⟨fun hp => ?nodevice, fun hp => ?device⟩⟩
  case unusable =>
    refine exec_of_not_usable rfl ?_
    rcases h with hn | hn <;> simp [handlesUsable, hn]
  case nobus => exact (exec_devsub hv hx).trans (if_pos hb)
  case bus => rw [exec_devsub hv hx, if_neg hb, exec_bussub hx]
  case unstaged => exact withTxr_of_none hn
  case nodevice => exact (withTxr_of_txr hx).trans (if_neg (Bool.eq_false_iff.mp hp))
  case device => exact (withTxr_of_txr hx).trans (if_pos hp)

end Sys2Proof.Machine
end

section
/-! The statements of `42_device.md`: DEVNEW (R151), attaching and detaching (R152, R153), and the view of a Device
(R155, R42). -/

namespace Sys2Proof.Machine

variable {s : State} {d b : Byte} {v : Dev} {f : Dev → Result}

/-! ## The device table -/

/-- A command on a usable Device runs with what its slot holds. -/
theorem withDev_of_dev (hv : s.dev? d = some v) : withDev d s f = f v := by rw [withDev, hv]

/-- A command on a Device that is not usable is refused as an operand. -/
theorem withDev_of_none (hn : s.dev? d = none) : withDev d s f = s.replies .errOperand 0 := by
  rw [withDev, hn]
  rfl

theorem State.devInRange_iff : s.devInRange d = true ↔ d.toNat < s.params.nDev := decide_eq_true_iff

/-- A lookup that finds a Device says where it stands. -/
theorem State.dev?_eq_some : s.dev? d = some v ↔ d.toNat < s.params.nDev ∧ s.devs[d.toNat]? = some (some v) := by
  rw [State.dev?, Option.ite_none_right_eq_some, State.devInRange_iff, List.getD_eq_getElem?_getD,
    Option.getD_eq_iff]
  simp

/-- Writing back the Device that stands in a slot changes nothing. -/
theorem State.setDev_of_dev? (hv : s.dev? d = some v) : s.setDev d v = s := by
  obtain ⟨hlt, hget⟩ := List.getElem?_eq_some_iff.mp (State.dev?_eq_some.mp hv).2
  have hset : s.devs.set d.toNat (some v) = s.devs := by rw [← hget, List.set_getElem_self]
  rw [State.setDev, hset]

/-! ## Construction (R151) -/

/-- DEVNEW of a slot in range, with a registered bus or none, is a write of the slot. -/
theorem exec_devnew (hd : d.toNat < s.params.nDev) (hb : b = 0 ∨ (s.regBus? b).isSome) (addr : Half) (name : Word) :
    exec (.devnew d b addr name) s = done .ok 0 (s.setDev d ⟨addr, b, name⟩) :=
  (if_pos (State.devInRange_iff.mpr hd)).trans (if_pos hb)

/-- Settles O21: the operand check fails on the slot or on the bus, or the slot is written. -/
theorem devnewWritesDevice : Obligations.DevnewWritesDevice := by
  intro d b addr name s
  refine ⟨fun h => ?unusable, fun hd hb => exec_devnew hd (hb.imp_right Option.isSome_iff_exists.mpr) addr name⟩
  case unusable =>
    have hu : (s.devInRange d && (b == 0 || (s.regBus? b).isSome)) = false := by
      rcases h with hd | ⟨hb, hn⟩
      · simp [State.devInRange, hd]
      · rw [hn, beq_false_of_ne hb]
        exact Bool.and_false _
    exact exec_of_not_usable rfl hu

/-! ## Attaching and detaching (R152, R153) -/

/-- DEVATT of usable handles comes down to the usage check and the write. -/
theorem exec_devatt (hv : s.dev? d = some v) (hb : (s.regBus? b).isSome) : exec (.devatt d b) s =
    if v.bus ≠ 0 then raise .errUseAttached s else done .ok 0 (s.setDev d { v with bus := b }) :=
  (withDev_of_dev hv).trans (if_pos hb)

/-- Settles O22, by the order of the checks: both handles, then the reference that the Device holds. -/
theorem devattAttachesOnce : Obligations.DevattAttachesOnce := by
  intro d b s
  refine ⟨fun h => ?unusable, fun v cq hv hr => ?usable⟩
  case unusable =>
    have hu : ((s.dev? d).isSome && (s.regBus? b).isSome) = false := by
      rcases h with hn | hn <;> simp [hn]
    exact exec_of_not_usable rfl hu
  case usable =>
    have hexec := exec_devatt hv (Option.isSome_of_eq_some hr)
    exact ⟨fun hb => hexec.trans (if_pos hb), fun hb => hexec.trans (if_neg (not_not_intro hb))⟩

/-- DEVDET of a usable Device is a write of its slot with the reference cleared. -/
theorem exec_devdet (hv : s.dev? d = some v) : exec (.devdet d) s = done .ok 0 (s.setDev d { v with bus := 0 }) :=
  withDev_of_dev hv

/-- Settles O23: clearing a reference that is already 0 writes the Device back as it was. -/
theorem devdetClearsReference : Obligations.DevdetClearsReference := by
  intro d s
  refine ⟨fun hn => withDev_of_none hn, fun v hv => ⟨exec_devdet hv, fun hb => ?detached⟩⟩
  case detached =>
    have hsame : { v with bus := 0 } = v := by rw [← hb]
    rw [exec_devdet hv, hsame, State.setDev_of_dev? hv]
    rfl

/-! ## The view (R155, R42) -/

/-- The word of selector 0 packs the bus reference and the address under a zero byte (R42). -/
theorem Dev.view_zero (v : Dev) : v.view 0 = 0#8 ++ v.bus ++ v.addr := rfl

theorem Dev.view_zero_fields (v : Dev) :
    (v.view 0).extractLsb' 24 8 = 0 ∧ (v.view 0).extractLsb' 16 8 = v.bus ∧ (v.view 0).extractLsb' 0 16 = v.addr := by
  rw [v.view_zero]
  simp (disch := omega) only [BitVec.extractLsb'_append_eq_of_le, BitVec.extractLsb'_append_eq_of_add_le,
    BitVec.extractLsb'_eq_self, Nat.reduceSub, BitVec.ofNat_eq_ofNat, and_self]

/-- Settles O24, one selector after the other. -/
theorem devgetReadsDeviceView : Obligations.DevgetReadsDeviceView := by
  intro d s
  exact ⟨fun hn _ => withDev_of_none hn,
    fun v hv => ⟨⟨v.view 0, withDev_of_dev hv, v.view_zero_fields⟩, withDev_of_dev hv⟩⟩

end Sys2Proof.Machine
end

section
/-! The statements of `43_bus.md` about single commands: BUSINIT (R161, R162), ADDRCHK (R163, R164), the queries of a
bus (R165, R166, R173), BUSERR (R167), the wire address (R171), and the submissions (R168, R183). -/

namespace Sys2Proof

theorem AddrMode.bit_eq_true_iff (m : AddrMode) : m.bit = true ↔ m = .bits10 := by cases m <;> decide

theorem Role.bit_eq_true_iff (r : Role) : r.bit = true ↔ r = .slave := by cases r <;> decide

theorem BusFlags.getLsbD_bits (g : BusFlags) :
    g.bits.getLsbD 0 = g.addrMode.bit ∧ g.bits.getLsbD 1 = g.duty ∧ g.bits.getLsbD 2 = g.role.bit ∧
    g.bits.getLsbD 3 = g.dual ∧ g.bits.getLsbD 4 = g.nostretch ∧ g.bits.getLsbD 5 = g.gencall := by
  simp only [BusFlags.bits, BitVec.getLsbD_append]
  simp

end Sys2Proof

namespace Sys2Proof.Machine

variable {s : State} {i : Instr} {b : Byte} {c : BusCfg} {q : Bus} {x : Txn} {f : BusCfg → Bus → Result}

/-- A command on a bus that is not registered is refused as an operand. -/
theorem withBus_of_none (hn : s.regBus? b = none) : withBus b s f = s.replies .errOperand 0 := by
  rw [withBus, hn]
  rfl

/-- A bus written and a response, with no record put out. -/
theorem State.repliesWith_nil (s : State) (b : Byte) (q : Bus) (st : Status) (v : Word) :
    s.repliesWith b q [] st v = done st v (s.setBus b q) := by
  simp [State.repliesWith, done, State.respond]

/-! ## BUSINIT (R161, R162) -/

/-- There is no bus 0 and none above `N_BUS` (R91). -/
theorem State.bus?_eq_none (h : b = 0 ∨ s.params.nBus < b.toNat) : s.bus? b = none := by
  refine if_neg fun hr => ?_
  have hr : 1 ≤ b.toNat ∧ b.toNat ≤ s.params.nBus := of_decide_eq_true hr
  rcases h with rfl | h
  · exact absurd hr.1 (by decide)
  · omega

/-- A bus that exists and is not registered is blank (I6). -/
theorem State.Inv.bus?_unregistered (hI : s.Inv) (h1 : 1 ≤ b.toNat) (h2 : b.toNat ≤ s.params.nBus)
    (hr : s.regBus? b = none) : s.bus? b = some (Bus.atReset s.params.qcap) := by
  have hlt : b.toNat - 1 < s.buses.length := by rw [hI.busesLength]; omega
  have hq : s.bus? b = some (s.buses[b.toNat - 1]) :=
    State.bus?_eq_some.mpr ⟨⟨h1, h2⟩, List.getElem?_eq_getElem hlt⟩
  cases hc : (s.buses[b.toNat - 1]).cfg with
  | none => rw [hq, (hI.bus hq).unregistered hc]
  | some c =>
    rw [State.regBus?_eq_some.mpr ⟨hq, hc⟩] at hr
    cases hr

/-- Registering a blank bus leaves it blank but for its configuration. -/
theorem registerBus_blank (b : Byte) (c : BusCfg) (s : State) : registerBus b (Bus.atReset s.params.qcap) c s =
    s.repliesWith b { Bus.atReset s.params.qcap with cfg := some c } [.bind b] .ok 0 := rfl

/-- A master is registered with its slave-only fields at zero, unchecked (R162). -/
theorem exec_businit_master (hq : s.bus? b = some (Bus.atReset s.params.qcap)) {g : BusFlags}
    (hm : g.role = .master) (name clk : Word) (own1 own2 : Half) : exec (.businit b name clk g own1 own2) s =
      registerBus b (Bus.atReset s.params.qcap) ⟨name, clk, masterOnlyFlags g, 0, 0, isFast s.params clk⟩ s := by
  have hc : (Bus.atReset s.params.qcap).cfg = none := rfl
  simp only [exec, execBusinit, hq, hc, hm]

/-- A slave is registered as given when its own addresses are valid (R161). -/
theorem exec_businit_slave (hq : s.bus? b = some (Bus.atReset s.params.qcap)) {g : BusFlags}
    (hm : g.role = .slave) (name clk : Word) (own1 own2 : Half) : exec (.businit b name clk g own1 own2) s =
      if addrValid s.params own1.toNat g.addrMode = false then raise .errCfgAddress s
      else if g.dual && !addrValid s.params own2.toNat g.addrMode then raise .errCfgAddress s
      else registerBus b (Bus.atReset s.params.qcap) ⟨name, clk, g, own1, own2, isFast s.params clk⟩ s := by
  have hc : (Bus.atReset s.params.qcap).cfg = none := rfl
  simp only [exec, execBusinit, hq, hc, hm]

/-- Settles O26, by the order of the checks: that the bus exists, that it is not registered, then the own addresses of
a slave. -/
theorem businitRegistersBus : Obligations.BusinitRegistersBus := by
  intro b name clk g own1 own2 s hI
  refine ⟨fun h => ?absent, fun cq hr => ?duplicate, fun h1 h2 hr => ?blank⟩
  case absent =>
    simp only [exec, execBusinit, State.bus?_eq_none h]
    rfl
  case duplicate =>
    obtain ⟨hq, hc⟩ := State.regBus?_eq_some.mp hr
    simp only [exec, execBusinit, hq, hc]
    rfl
  case blank =>
    have hq := hI.bus?_unregistered h1 h2 hr
    refine ⟨fun hm => ?master, fun hs => ⟨fun hbad => ?invalid, fun ha1 ha2 => ?slave⟩⟩
    case master =>
      have hflags : masterOnlyFlags g = ⟨g.addrMode, g.duty, .master, false, false, false⟩ := by
        rw [masterOnlyFlags, hm]
      rw [exec_businit_master hq hm, hflags]
      exact registerBus_blank b _ s
    case invalid =>
      rw [exec_businit_slave hq hs]
      rcases hbad with h | ⟨hd, h⟩
      · exact if_pos h
      · simp only [hd, h, Bool.not_false, Bool.and_self, if_true, ite_self]
        rfl
    case slave =>
      have hdual : ¬ (g.dual && !addrValid s.params own2.toNat g.addrMode) = true := by simpa using ha2
      rw [exec_businit_slave hq hs, if_neg (by simp [ha1]), if_neg hdual]
      exact registerBus_blank b _ s

/-! ## Addresses (R163, R164, R171) -/

/-- Settles O27: each mode's check is the comparison with its bounds. -/
theorem addrchkAnswersValidity : Obligations.AddrchkAnswersValidity := by
  intro a s
  simp only [exec, execAddrchk, addrValid, decide_eq_true_eq]
  exact ⟨rfl, rfl⟩

/-- Settles O38: the shift of the bus's mode, in 16 bits. -/
theorem wireAddressIsShifted : Obligations.WireAddressIsShifted := by
  intro p c a
  constructor <;> intro hm
  · rw [wireAddr, hm, BitVec.toNat_shiftLeft, Nat.shiftLeft_eq]
  · rw [wireAddr, hm, BitVec.toNat_shiftLeft, Nat.shiftLeft_eq]

/-! ## The words of a bus (R30, R31, R32) -/

theorem Bus.statusWord_flags (q : Bus) :
    q.statusWord.getLsbD 0 = q.busy ∧ q.statusWord.getLsbD 1 = q.curValid ∧ q.statusWord.getLsbD 2 = q.errValid ∧
    q.statusWord.getLsbD 3 = q.errLost ∧ q.statusWord.getLsbD 4 = q.stalled := by
  simp only [Bus.statusWord, BitVec.getLsbD_append]
  simp

theorem Bus.statusWord_fields (q : Bus) :
    q.statusWord.extractLsb' 5 11 = 0 ∧ q.statusWord.extractLsb' 16 16 = BitVec.ofNat 16 q.count := by
  rw [Bus.statusWord]
  simp (disch := omega) only [BitVec.extractLsb'_append_eq_of_le, BitVec.extractLsb'_append_eq_of_add_le,
    BitVec.extractLsb'_eq_self, Nat.reduceSub, BitVec.ofNat_eq_ofNat, and_self]

/-- `COUNT` fits in the 16 bits that show it, since the queue's capacity does (R7, I1). -/
theorem Bus.Wf.toNat_count {p : Params} (hw : q.Wf p) (hp : p.wf) : (BitVec.ofNat 16 q.count).toNat = q.count := by
  obtain ⟨-, ⟨-, hcap⟩, -⟩ := hp
  have hcount := hw.count
  rw [BitVec.toNat_ofNat, Nat.mod_eq_of_lt (by omega)]

/-- A registered bus is stalled exactly when transactions are queued and none is in flight (R26). -/
theorem Bus.stalled_iff (hc : q.cfg = some c) : q.stalled = true ↔ q.busy = false ∧ 0 < q.count := by
  simp [Bus.stalled, Bus.regd, hc]

theorem Ctx.bit_eq_true_iff (ctx : Ctx) : ctx.bit = true ↔ ctx = .irq := by cases ctx <;> decide

theorem Bus.errWord_fields (q : Bus) (e : ErrRec) :
    (q.errWord e).extractLsb' 0 8 = e.cause.code ∧ (q.errWord e).extractLsb' 10 22 = 0 := by
  rw [Bus.errWord]
  simp (disch := omega) only [BitVec.extractLsb'_append_eq_of_le, BitVec.extractLsb'_append_eq_of_add_le,
    BitVec.extractLsb'_eq_self, Nat.reduceSub, BitVec.ofNat_eq_ofNat, and_self]

theorem Bus.errWord_flags (q : Bus) (e : ErrRec) :
    (q.errWord e).getLsbD 8 = e.ctx.bit ∧ (q.errWord e).getLsbD 9 = q.errLost := by
  simp only [Bus.errWord, BitVec.getLsbD_append]
  simp

/-- The word of selector 0 packs the six flags under `FAST` (R32). -/
theorem BusCfg.word_zero (c : BusCfg) : c.word 0 = 0#25 ++ BitVec.ofBool c.fast ++ c.flags.bits := rfl

theorem BusCfg.word_zero_flags (c : BusCfg) :
    (∀ k, k < 6 → (c.word 0).getLsbD k = c.flags.bits.getLsbD k) ∧ (c.word 0).getLsbD 6 = c.fast ∧
    (c.word 0).extractLsb' 7 25 = 0 := by
  rw [c.word_zero]
  refine ⟨fun k hk => ?_, ?_, ?_⟩
  · rw [BitVec.getLsbD_append, if_pos hk]
  · simp only [BitVec.getLsbD_append]
    simp
  · simp (disch := omega) only [BitVec.extractLsb'_append_eq_of_le, BitVec.extractLsb'_eq_self, Nat.reduceSub,
      BitVec.ofNat_eq_ofNat]

/-! ## The queries of a bus (R165, R166, R167, R173) -/

/-- Settles O28: the two commands answer the identifier and the status word of the bus found. -/
theorem busnumBusstatAnswer : Obligations.BusnumBusstatAnswer := by
  intro b s
  refine ⟨fun hn => ⟨withBus_of_none hn, withBus_of_none hn⟩, fun c q hI hr => ?_⟩
  obtain ⟨hq, hc⟩ := State.regBus?_eq_some.mp hr
  refine ⟨⟨b.setWidth 32, withBus_of_regBus hr, ?number⟩, q.statusWord, withBus_of_regBus hr, ?status⟩
  case number => rw [BitVec.toNat_setWidth_of_le (by decide)]
  case status =>
    obtain ⟨hbusy, hcur, hvalid, hlost, hstalled⟩ := q.statusWord_flags
    obtain ⟨hgap, hcount⟩ := q.statusWord_fields
    exact ⟨hbusy, hcur, hvalid, hlost, hstalled ▸ Bus.stalled_iff hc, hgap,
      hcount ▸ (hI.bus hq).toNat_count hI.params⟩

/-- Settles O29: an empty latch is answered `NULL`; a record is shown and the latch is written back empty. -/
theorem buserrDrainsLatch : Obligations.BuserrDrainsLatch := by
  intro b s
  refine ⟨withBus_of_none, fun c q hr => ⟨fun hn => ?null, fun e he => ⟨q.errWord e, ?drained, ?word⟩⟩⟩
  case null =>
    refine (withBus_of_regBus hr).trans ?_
    rw [hn]
    rfl
  case drained =>
    refine (withBus_of_regBus hr).trans ?_
    rw [he, State.repliesWith_nil]
  case word =>
    obtain ⟨hcause, hhigh⟩ := q.errWord_fields e
    obtain ⟨hctx, hlost⟩ := q.errWord_flags e
    exact ⟨hcause, hctx ▸ e.ctx.bit_eq_true_iff, hlost, hhigh⟩

/-- Settles O30, one selector after another. -/
theorem buscfgReadsConfiguration : Obligations.BuscfgReadsConfiguration := by
  intro b s
  refine ⟨fun hn _ => withBus_of_none hn, fun c q hr => ⟨⟨c.word 0, withBus_of_regBus hr, ?flags⟩,
    withBus_of_regBus hr, ⟨c.word 2, withBus_of_regBus hr, ?own⟩, withBus_of_regBus hr⟩⟩
  case flags =>
    obtain ⟨hbits, hfast, hhigh⟩ := c.word_zero_flags
    obtain ⟨hmode, hduty, hrole, hdual, hstretch, hgencall⟩ := c.flags.getLsbD_bits
    rw [hbits 0 (by decide), hbits 1 (by decide), hbits 2 (by decide), hbits 3 (by decide), hbits 4 (by decide),
      hbits 5 (by decide), hmode, hrole]
    exact ⟨c.flags.addrMode.bit_eq_true_iff, hduty, c.flags.role.bit_eq_true_iff, hdual, hstretch, hgencall, hfast,
      hhigh⟩
  case own => exact ⟨hiHalf_wordOfHalves c.own2 c.own1, loHalf_wordOfHalves c.own2 c.own1⟩

/-! ## Submissions (R168, R170, R183) -/

theorem State.Inv.regBus (hI : s.Inv) (hr : s.regBus? b = some (c, q)) : q.Wf s.params :=
  hI.bus (State.regBus?_eq_some.mp hr).1

/-- LATCH as the statements put it: the first error is kept, a later one is marked lost (R206). -/
theorem Bus.latch_eq_withError (q : Bus) (cause : Status) (ctx : Ctx) : q.latch cause ctx = q.withError cause ctx := by
  cases he : q.err <;> simp [Bus.latch, Bus.withError, he]

/-- Settles O34: a full queue refuses, and another one takes the Transaction in. -/
theorem submissionJoinsQueue : Obligations.SubmissionJoinsQueue := by
  intro i s b x c q hsub hr h
  rw [exec_of_submission hsub]
  refine ⟨busSetTransaction_full hr, fun hn => ?_⟩
  have hnot : ¬ (q.count = 0 ∧ q.busy = false) := fun ⟨h0, hb⟩ => by simp [h0, hb] at h
  rw [busSetTransaction_join hr hn hnot, State.repliesWith_nil]
  rfl

/-- Settles O35: both answers of the backend are positive. -/
theorem submissionDispatches : Obligations.SubmissionDispatches := by
  intro i s b x c q hI hsub hr h0 hidle hacc
  have hacc : s.afterAnswer.nextAnswer = true := hacc
  rw [exec_of_submission hsub, busSetTransaction_dispatch hr (hI.regBus hr) h0 hidle, if_pos hacc]
  rfl

/-- Settles O36: the peripheral is idle and refuses the initiate. -/
theorem submissionInitiateFails : Obligations.SubmissionInitiateFails := by
  intro i s b x c q hI hsub hr h0 hidle href
  have href : ¬ s.afterAnswer.nextAnswer = true := Bool.eq_false_iff.mp href
  rw [exec_of_submission hsub, busSetTransaction_dispatch hr (hI.regBus hr) h0 hidle, if_neg href,
    Bus.latch_eq_withError, List.append_cons (bs := [_])]
  rfl

/-- Settles O37: the Transaction is queued and nothing is in flight, which is the stalled state. -/
theorem submissionFindsPeripheralBusy : Obligations.SubmissionFindsPeripheralBusy := by
  intro i s b x c q hI hsub hr h0 hbusy
  have hw := hI.regBus hr
  obtain ⟨hq, hc⟩ := State.regBus?_eq_some.mp hr
  have hidle := (hw.idle_of_empty h0).1
  have hexec : exec i s = .next
      (((s.afterAnswer.setBus b (q.pushed s.params.qcap x)).emit [.idleq b]).respond .ok 0) := by
    rw [exec_of_submission hsub]
    exact busSetTransaction_notIdle hr (h0 ▸ hw.qcap_pos.ne) ⟨h0, hidle⟩ hbusy
  refine ⟨?_, fun s' h => ?stalled⟩
  · rw [hexec, Bus.pushed, h0]
    rfl
  case stalled =>
    rw [hexec] at h
    cases h
    exact ⟨c, q.pushed s.params.qcap x, State.regBus?_setBus_self (s := s.afterAnswer) hq hc,
      (Bus.stalled_iff (q := q.pushed s.params.qcap x) hc).mpr ⟨hidle, Nat.succ_pos _⟩⟩

end Sys2Proof.Machine
end

section
/-! The statements of `43_bus.md` about runs: at most one transfer of a bus is in flight (R180), its transactions are
initiated in submission order (R181), a post-callback follows the completion (R182), and every queued transaction is
completed (R184). They are read off what one step can do to a registered bus, `BusMove`. -/

namespace Sys2Proof.Machine

variable {s s' s1 : State} {i : Instr} {b : Byte} {c : BusCfg} {q q' : Bus} {x y : Txn} {xs ys : List Txn} {n : Nat}
  {r : Record} {new rs : List Record}

/-! ## Runs step by step -/

/-- A run of one step more is that step and the run from where it ends. -/
theorem run_succ (h : core.run (n + 1) s = .next s') : ∃ s1, step s = .next s1 ∧ core.run n s1 = .next s' := by
  simp only [Host.Core.run] at h
  split at h
  · exact ⟨_, by assumption, h⟩
  · cases h
  · cases h

theorem undisturbed_succ (h1 : step s = .next s1) :
    State.undisturbed b (n + 1) s ↔ ¬ s.endsTransfer b ∧ State.undisturbed b n s1 := by
  rw [State.undisturbed, h1]

theorem submittedAlong_succ (h1 : step s = .next s1) :
    State.submittedAlong b (n + 1) s = s.submitted b ++ State.submittedAlong b n s1 := by
  rw [State.submittedAlong, h1]

/-! ## At most one in flight (R180) -/

/-- A step that does not end the transfer in flight leaves the bus Busy and emits no `INITIATE` of it: a dispatch is of
a first submission, which a Busy bus never has (I3, I4). -/
theorem BusMove.keeps_busy (hm : BusMove s b c q q' new) (hw : q.Wf s.params) (hb : q.busy = true)
    (hn : ¬ s.endsTransfer b) : q'.busy = true ∧ ∀ r ∈ new, r.isInitiateOf b = false := by
  have hne : q.count ≠ 0 := fun h0 => by simp [(hw.idle_of_empty h0).1] at hb
  cases hm with
  | quiet _ _ hq hquiet => exact ⟨hq.busy.trans hb, fun r hr => (hquiet r hr).1⟩
  | join x _ hq => exact ⟨hq.busy.trans hb, fun r hr => absurd hr List.not_mem_nil⟩
  | notIdle x _ _ _ h0 | start x a _ _ _ h0 => exact absurd h0 hne
  | failed _ he => exact absurd he hn
  | completeLast x _ s1 he | completeNext x y a _ s1 he => exact absurd ⟨s1, .inl he⟩ hn

/-- Settles O52, by induction on the number of steps. -/
theorem atMostOneTransferInFlight : Obligations.AtMostOneTransferInFlight := by
  intro n
  induction n with
  | zero =>
    rintro s s' b hI hr0 hb - h
    cases h
    exact ⟨hb, [], by simp, by simp⟩
  | succ n ih =>
    rintro s s' b hI hr0 ⟨c, q, hr, hb⟩ hu h
    obtain ⟨s1, h1, h⟩ := run_succ h
    obtain ⟨hn, hu⟩ := (undisturbed_succ h1).mp hu
    obtain ⟨-, hr1, q1, new1, hq1, hout1, hm⟩ := busMove_of_step hI hr0 h1 hr
    obtain ⟨hb1, hnew1⟩ := hm.keeps_busy (hI.regBus hr) hb hn
    obtain ⟨hb', new2, hout2, hnew2⟩ := ih s1 s' b (stepKeepsInvariants s s1 hI h1) hr1 ⟨c, q1, hq1, hb1⟩ hu h
    refine ⟨hb', new1 ++ new2, by rw [hout2, hout1, List.append_assoc], fun r hr => ?_⟩
    exact (List.mem_append.mp hr).elim (hnew1 r) (hnew2 r)

/-! ## The queued transactions not yet dispatched (R34) -/

/-- The queued transactions of a bus whose dispatch has not been tried: all but the current one. -/
def Bus.undispatched (q : Bus) (qcap : Nat) : List Txn :=
  if q.curValid then (q.queue qcap).tail else q.queue qcap

theorem State.undispatched_of_regBus (hr : s.regBus? b = some (c, q)) :
    s.undispatched b = q.undispatched s.params.qcap := by
  rw [State.undispatched, (State.regBus?_eq_some.mp hr).1, Bus.undispatched]

theorem Bus.undispatched_current (h : q.curValid = true) (n : Nat) : q.undispatched n = (q.queue n).tail := if_pos h

theorem Bus.undispatched_idle (h : q.curValid = false) (n : Nat) : q.undispatched n = q.queue n :=
  if_neg (Bool.eq_false_iff.mp h)

theorem Bus.SameQueue.queue (h : q.SameQueue q') (n : Nat) : q'.queue n = q.queue n := by
  have hslot : q'.slotAt n = q.slotAt n := by
    funext k
    rw [Bus.slotAt, Bus.slotAt, h.slots, h.head]
  rw [Bus.queue, Bus.queue, hslot, h.count]

theorem Bus.SameQueue.undispatched (h : q.SameQueue q') (n : Nat) : q'.undispatched n = q.undispatched n := by
  rw [Bus.undispatched, Bus.undispatched, h.queue, h.curValid]

/-- A dispatch makes the first of them current. -/
theorem Bus.undispatched_dispatch (hc : q.curValid = false) (h : q.queue n = x :: xs) (a : Bool) :
    q.undispatched n = x :: ({ q with curValid := true, busy := a } : Bus).undispatched n := by
  have hxs : ({ q with curValid := true, busy := a } : Bus).undispatched n = xs := congrArg List.tail h
  rw [Bus.undispatched_idle hc, h, hxs]

/-- A Transaction that joins the queue waits for its dispatch behind the others. -/
theorem Bus.Wf.undispatched_pushed {p : Params} (hw : q.Wf p) (hn : q.count ≠ p.qcap) (x : Txn) :
    (q.pushed p.qcap x).undispatched p.qcap = q.undispatched p.qcap ++ [x] := by
  have hqueue := hw.queue_pushed hn x
  have hcur : (q.pushed p.qcap x).curValid = q.curValid := rfl
  cases hc : q.curValid with
  | false => rw [Bus.undispatched_idle (hcur.trans hc), Bus.undispatched_idle hc, hqueue]
  | true =>
    have hne : q.queue p.qcap ≠ [] := fun h => (hw.cur hc).ne' (hw.queue_eq_nil.mp h)
    rw [Bus.undispatched_current (hcur.trans hc), Bus.undispatched_current hc, hqueue, List.tail_append_of_ne_nil hne]

/-- Taking the head of the queue away leaves what was behind it. -/
theorem Bus.Wf.queue_popped {p : Params} (hw : q.Wf p) (h : q.queue p.qcap = y :: ys) :
    (q.popped p.qcap).queue p.qcap = ys := hw.queue_dequeued h

/-- A completion takes the current transaction away, and those not yet dispatched are the same. -/
theorem Bus.Wf.undispatched_popped {p : Params} (hw : q.Wf p) (hc : q.curValid = true) :
    (q.popped p.qcap).undispatched p.qcap = q.undispatched p.qcap := by
  have hn : q.count ≠ 0 := (hw.cur hc).ne'
  obtain ⟨x, hx, -⟩ := hw.head_slot hn
  have hcons := hw.queue_eq_cons hn hx
  rw [Bus.undispatched_idle rfl, Bus.undispatched_current hc, hw.queue_popped hcons, hcons, List.tail_cons]

/-! ## Submission order (R181) -/

theorem Quiet.filter_isInitiateOf (h : Quiet b rs) : rs.filter (Record.isInitiateOf b) = [] :=
  List.filter_eq_nil_iff.mpr fun r hr => by simp [(h r hr).1]

theorem filter_isInitiateOf_cbRecords (x : Txn) (kind : CbKind) (b' : Byte) (ctx : Ctx) :
    (x.cbRecords kind b' ctx).filter (Record.isInitiateOf b) = [] := by
  unfold Txn.cbRecords
  split <;> rfl

/-- A dispatch emits one `INITIATE`, whatever the backend answers. -/
theorem filter_isInitiateOf_dispatchRecords (x : Txn) (p : Params) (c : BusCfg) (ctx : Ctx) (a : Bool) :
    (x.dispatchRecords p c b ctx a).filter (Record.isInitiateOf b) = [x.initiateRecord p c b] := by
  have hinit : [x.initiateRecord p c b].filter (Record.isInitiateOf b) = [x.initiateRecord p c b] :=
    List.filter_cons_of_pos (beq_self_eq_true b)
  have herr : (if a then [] else [Record.errn b .errHwInitiate ctx]).filter (Record.isInitiateOf b) = [] := by
    cases a <;> rfl
  rw [Txn.dispatchRecords, List.filter_append, List.filter_append, filter_isInitiateOf_cbRecords, hinit, herr]
  rfl

/-- One step initiates the first of the transactions not yet dispatched, and appends to them what it submits. -/
theorem BusMove.initiates_in_order (hm : BusMove s b c q q' new) (hw : q.Wf s.params) (hreg : q.cfg ≠ none) :
    ∃ inits : List Txn,
      new.filter (Record.isInitiateOf b) = inits.map (fun x => x.initiateRecord s.params c b) ∧
      q.undispatched s.params.qcap ++ s.submitted b = inits ++ q'.undispatched s.params.qcap := by
  have hroom : q.count = 0 → q.count ≠ s.params.qcap := fun h0 => h0 ▸ hw.qcap_pos.ne
  cases hm with
  | quiet _ _ hq hquiet hs => exact ⟨[], hquiet.filter_isInitiateOf, by rw [hs, hq.undispatched]; simp⟩
  | join x _ hq hn _ _ hs => exact ⟨[], rfl, by rw [hs, hq.undispatched, hw.undispatched_pushed hn]; rfl⟩
  | notIdle x _ hq _ h0 hs => exact ⟨[], rfl, by rw [hs, hq.undispatched, hw.undispatched_pushed (hroom h0)]; rfl⟩
  | start x a _ hq _ h0 hs =>
    have hpushed : (q.pushed s.params.qcap x).queue s.params.qcap = [x] := by
      rw [hw.queue_pushed (hroom h0), hw.queue_eq_nil.mpr h0]
      rfl
    refine ⟨[x], ?_, ?_⟩
    · rw [List.filter_append, filter_isInitiateOf_dispatchRecords]
      rfl
    · rw [hs, hq.undispatched, ← hw.undispatched_pushed (hroom h0),
        Bus.undispatched_dispatch (q := q.pushed _ x) (hw.idle_of_empty h0).2 hpushed a]
      rfl
  | failed _ _ _ hq hs =>
    refine ⟨[], rfl, ?_⟩
    rw [hs, hq.undispatched, List.append_nil]
    rfl
  | completeLast x _ _ _ hb _ _ hq hs =>
    refine ⟨[], filter_isInitiateOf_cbRecords .., ?_⟩
    rw [hs, hq.undispatched, hw.undispatched_popped (hw.busy hb), List.append_nil, List.nil_append]
  | completeNext x y a _ _ _ hb _ hn hy hq hs =>
    have hwp := hw.popped hreg (by omega)
    have hpopped := hwp.queue_eq_cons (by simp only [Bus.popped]; omega) hy
    refine ⟨[y], ?_, ?_⟩
    · rw [List.filter_append, filter_isInitiateOf_cbRecords, filter_isInitiateOf_dispatchRecords]
      rfl
    · rw [hs, hq.undispatched, ← hw.undispatched_popped (hw.busy hb), List.append_nil,
        Bus.undispatched_dispatch rfl hpopped a]
      rfl

/-- Settles O53, by induction on the number of steps. -/
theorem initiatesFollowSubmissionOrder : Obligations.InitiatesFollowSubmissionOrder := by
  intro n
  induction n with
  | zero =>
    intro s s' b c q hI hr0 hr h
    cases h
    exact ⟨[], [], by simp, rfl, by simp [State.submittedAlong]⟩
  | succ n ih =>
    intro s s' b c q hI hr0 hr h
    obtain ⟨s1, h1, h⟩ := run_succ h
    have hreg : q.cfg ≠ none := by simp [(State.regBus?_eq_some.mp hr).2]
    obtain ⟨hp, hr1, q1, new1, hq1, hout1, hm⟩ := busMove_of_step hI hr0 h1 hr
    obtain ⟨inits1, hrec1, hfifo1⟩ := hm.initiates_in_order (hI.regBus hr) hreg
    obtain ⟨new2, inits2, hout2, hrec2, hfifo2⟩ := ih s1 s' b c q1 (stepKeepsInvariants s s1 hI h1) hr1 hq1 h
    rw [← hp, ← State.undispatched_of_regBus hq1, hp, ← State.undispatched_of_regBus hr] at hfifo1
    refine ⟨new1 ++ new2, inits1 ++ inits2, by rw [hout2, hout1, List.append_assoc], ?_, ?_⟩
    · rw [List.filter_append, List.map_append, hrec1, hrec2, hp]
      rfl
    · rw [submittedAlong_succ h1, ← List.append_assoc, hfifo1, List.append_assoc, hfifo2, List.append_assoc]

/-! ## Completion (R182, R184) -/

/-- CPLT of a Busy bus takes the head off the queue, invokes its post-callback and dispatches what is queued then. -/
theorem exec_cplt_of_busy (hr : s.regBus? b = some (c, q)) (hw : q.Wf s.params) (hb : q.busy = true)
    (hq : q.queue s.params.qcap = x :: xs) : exec (.cplt b) s =
      andThen (dispatch b c (q.popped s.params.qcap) .irq
        (cbInvoke .post x b .irq (s.setBus b (q.popped s.params.qcap)))) fun r => .next r.1 := by
  obtain ⟨hn, hx⟩ := hw.head_slot_of_queue_cons hq
  simp only [exec, execCplt, onRegistered, hr, hb, Bool.true_eq_false, if_false, qDequeue_head _ hn hx, andThen]
  rfl

theorem exec_cplt_last (hr : s.regBus? b = some (c, q)) (hw : q.Wf s.params) (hb : q.busy = true)
    (hq : q.queue s.params.qcap = [x]) :
    exec (.cplt b) s = .next ((s.setBus b (q.popped s.params.qcap)).emit (x.cbRecords .post b .irq)) := by
  have hcount : q.count = 1 := by rw [← hw.length_queue, hq, List.length_singleton]
  rw [exec_cplt_of_busy hr hw hb hq, dispatch_empty (by simp [Bus.popped, hcount])]
  simp only [andThen, cbInvoke, State.emit_setBus, State.setBus_setBus]
  rfl

theorem exec_cplt_next (hr : s.regBus? b = some (c, q)) (hw : q.Wf s.params) (hb : q.busy = true)
    (hq : q.queue s.params.qcap = x :: y :: ys) : exec (.cplt b) s =
      .next ((s.afterAnswer.setBus b ((q.popped s.params.qcap).dispatched s.nextAnswer .irq)).emit
        (x.cbRecords .post b .irq ++ y.dispatchRecords s.params c b .irq s.nextAnswer)) := by
  have hreg : q.cfg ≠ none := by simp [(State.regBus?_eq_some.mp hr).2]
  have hwp := hw.popped hreg (hw.head_slot_of_queue_cons hq).1
  obtain ⟨hn, hy⟩ := hwp.head_slot_of_queue_cons (hw.queue_popped hq)
  rw [exec_cplt_of_busy hr hw hb hq, dispatch_head hn hy]
  simp only [andThen, cbInvoke, State.nextAnswer_emit, State.nextAnswer_setBus, State.afterAnswer_emit,
    State.afterAnswer_setBus, State.emit_setBus, State.emit_emit, State.setBus_setBus, State.emit_params,
    State.setBus_params]
  cases s.nextAnswer <;> simp [Bus.dispatched, Txn.dispatchRecords]

/-- The records of `CB_INVOKE` hold a post-callback of a bus only where it is the post hook that is invoked, of that
bus. -/
theorem isPostOf_of_mem_cbRecords {kind : CbKind} {b' : Byte} {ctx : Ctx} (hr : r ∈ x.cbRecords kind b' ctx)
    (hp : r.isPostOf b = true) : kind = .post ∧ b' = b ∧ r = .cb .post b ctx x.postFn x.postArg := by
  unfold Txn.cbRecords at hr
  split at hr
  · obtain rfl := List.mem_singleton.mp hr
    obtain ⟨rfl, rfl⟩ : kind = .post ∧ b' = b := by simpa [Record.isPostOf] using hp
    exact ⟨rfl, rfl, rfl⟩
  · exact absurd hr List.not_mem_nil

/-- A dispatch emits no post-callback. -/
theorem isPostOf_of_mem_dispatchRecords {p : Params} {b' : Byte} {ctx : Ctx} {a : Bool}
    (hr : r ∈ x.dispatchRecords p c b' ctx a) : r.isPostOf b = false := by
  simp only [Txn.dispatchRecords, List.mem_append, List.mem_singleton] at hr
  rcases hr with (hr | rfl) | hr
  · exact (Quiet.cbRecords_pre x b b' ctx r hr).2
  · rfl
  · cases a
    · obtain rfl := List.mem_singleton.mp hr
      rfl
    · exact absurd hr List.not_mem_nil

theorem out_ne_of_mem_new (hout : s'.out = s.out ++ new) (hr : r ∈ new) : s'.out ≠ s.out := by
  intro h
  rw [List.self_eq_append_right.mp (h.symm.trans hout)] at hr
  exact List.not_mem_nil hr

/-- An instruction that emits a post-callback of a bus is CPLT of it while it is Busy, and the hook is that of the
head. -/
theorem Effect.post_of_completion (he : Effect i s s') (hb0 : b ≠ 0) (hout : s'.out = s.out ++ new) (hr : r ∈ new)
    (hp : r.isPostOf b = true) :
    ∃ c q x, i = .cplt b ∧ s.regBus? b = some (c, q) ∧ q.busy = true ∧ q.count ≠ 0 ∧
      q.slots.getD q.head none = some x ∧ r = .cb .post b .irq x.postFn x.postArg := by
  have hsame := out_ne_of_mem_new hout hr
  have hone : ∀ r1 : Record, r1.isPostOf b = false → s'.out = s.out ++ [r1] → False := fun r1 h1 h => by
    rw [← List.append_cancel_left (h.symm.trans hout), List.mem_singleton] at hr
    rw [hr, h1] at hp
    cases hp
  cases he with
  | answer | stage | device | drain | join | ignored => exact absurd rfl hsame
  | register | notIdle | route | spurious | transferError => exact (hone _ rfl rfl).elim
  | hook x kind =>
    obtain rfl := List.append_cancel_left hout
    exact absurd (isPostOf_of_mem_cbRecords hr hp).2.1.symm hb0
  | start b' x c q st v =>
    obtain rfl := List.append_cancel_left hout
    rcases List.mem_append.mp hr with hr | hr
    · obtain rfl := List.mem_singleton.mp hr
      cases hp
    · rw [isPostOf_of_mem_dispatchRecords hr] at hp
      cases hp
  | completeLast b' c q x hi hreg hb hx hn =>
    obtain rfl := List.append_cancel_left hout
    obtain ⟨-, rfl, rfl⟩ := isPostOf_of_mem_cbRecords hr hp
    exact ⟨c, q, x, hi, hreg, hb, by omega, hx, rfl⟩
  | completeNext b' c q x y hi hreg hb hx hn =>
    obtain rfl := List.append_cancel_left hout
    rcases List.mem_append.mp hr with hr | hr
    · obtain ⟨-, rfl, rfl⟩ := isPostOf_of_mem_cbRecords hr hp
      exact ⟨c, q, x, hi, hreg, hb, by omega, hx, rfl⟩
    · rw [isPostOf_of_mem_dispatchRecords hr] at hp
      cases hp

/-- Settles O54: a step that is no instruction's transition emits nothing, and of the instructions only CPLT emits a
post-callback of a bus. -/
theorem postCallbackOnlyAfterCompletion : Obligations.PostCallbackOnlyAfterCompletion := by
  intro s s' b new r hI hb0 h hout hr hp
  have hsame := out_ne_of_mem_new hout hr
  cases effect_of_step hI h with
  | reset | idle => exact absurd rfl hsame
  | illegal s1 _ _ hpend => exact absurd hpend.out hsame
  | dropped s1 _ _ hpend => exact absurd hpend.out hsame
  | run i s1 s' hsel _ hpend _ he =>
    obtain ⟨c, q, x, rfl, hreg, hb, hn, hx, rfl⟩ := he.post_of_completion hb0 (hpend.out ▸ hout) hr hp
    have hw := (hpend.inv hI).regBus hreg
    exact ⟨s1, c, q, x, _, hsel, hreg, hb, hpend.params ▸ hw.queue_eq_cons hn hx, rfl⟩

/-! ## Every queued transaction completes (R184) -/

@[simp] theorem State.accepts_setBus : (s.setBus b q).accepts n ↔ s.accepts n := by
  induction n generalizing s with
  | zero => rfl
  | succ n ih => simp only [State.accepts, State.ask_fst, State.ask_snd, State.nextAnswer_setBus,
      State.afterAnswer_setBus, ih]

@[simp] theorem State.accepts_emit : (s.emit rs).accepts n ↔ s.accepts n := by
  induction n generalizing s with
  | zero => rfl
  | succ n ih => simp only [State.accepts, State.ask_fst, State.ask_snd, State.nextAnswer_emit,
      State.afterAnswer_emit, ih]

theorem completeTimes_succ (h : exec (.cplt b) s = .next s1) : completeTimes b (n + 1) s = completeTimes b n s1 := by
  rw [completeTimes, h]
  rfl

/-- Settles O56, by induction on the transactions behind the head: each completion puts the next one in flight, with one
answer fewer to come, and the last one leaves the queue empty. -/
theorem everyQueuedTransactionCompletes : Obligations.EveryQueuedTransactionCompletes := by
  intro s b c q x xs hI hr hb hq ha
  induction xs generalizing s q x with
  | nil =>
    obtain ⟨hbus, hc⟩ := State.regBus?_eq_some.mp hr
    have hw := hI.bus hbus
    refine ⟨_, q.popped s.params.qcap, completeTimes_succ (exec_cplt_last hr hw hb hq),
      State.regBus?_setBus_self hbus hc, rfl, rfl, ?count, hw.queue_popped hq, by simp⟩
    case count =>
      change q.count - 1 = 0
      rw [← hw.length_queue, hq, List.length_singleton]
  | cons y ys ih =>
    obtain ⟨hacc, ha⟩ := ha
    obtain ⟨hbus, hc⟩ := State.regBus?_eq_some.mp hr
    have hw := hI.bus hbus
    have hnext := exec_cplt_next hr hw hb hq
    rw [State.ask_fst] at hacc
    rw [hacc] at hnext
    have hI1 := (effect_of_exec hI hnext).inv hI
    have hr1 := State.regBus?_setBus_self (s := s.afterAnswer)
      (q := (q.popped s.params.qcap).dispatched true .irq) hbus hc
    obtain ⟨s', q', hrun, hr', hb', hv', hn', hq', hout⟩ :=
      ih _ _ y hI1 hr1 rfl (hw.queue_popped hq) (by simpa using ha)
    refine ⟨s', q', (completeTimes_succ hnext).trans hrun, hr', hb', hv', hn', hq', ?_⟩
    rw [hout]
    simp [Txn.dispatchRecords, Txn.lifeRecords]

end Sys2Proof.Machine
end

section
/-! The statements of `60_exceptions.md`: the order in which events are serviced (R224), their arrival (R221, R223, R96),
the events themselves (R222 to R227), the error latch (R206) and the state after an error (R208). -/

namespace Sys2Proof.Machine

variable {s s' s1 : State} {i : Instr} {b : Byte} {k : EventKind} {c : BusCfg} {q q' q1 : Bus} {x y : Txn}
  {ys : List Txn} {w : Half} {f : BusCfg → Bus → Result}

/-! ## Events on the port (R221, R96) -/

/-- With no reset and nothing pending, the event that arrives is serviced. -/
theorem step_of_event {ws : List Half} (hr : s.resetReq = false) (hn : s.pending? = none) (he : s.evPort = w :: ws)
    (hd : decodeEvent w = .ok (k, b)) : step s = exec (k.instr b) ({ s with evPort := ws } : State).arrive := by
  simp [step, selectInput, hr, hn, he, hd]

/-- With no reset and nothing pending, a word that is no event is dropped. -/
theorem step_of_noEvent {ws : List Half} {why : Reject} (hr : s.resetReq = false) (hn : s.pending? = none)
    (he : s.evPort = w :: ws) (hd : decodeEvent w = .error why) :
    step s = .next ({ s with evPort := ws } : State).arrive := by
  simp [step, selectInput, hr, hn, he, hd]

/-- Settles O7: the two things the event port can hold. -/
theorem stepServicesArrivingEvent : Obligations.StepServicesArrivingEvent :=
  fun _ _ _ hr hn he => ⟨fun _ _ => step_of_event hr hn he, fun _ => step_of_noEvent hr hn he⟩

/-! ## The pending event serviced next (R224) -/

theorem Bus.firstPend_eq_none : q.firstPend = none ↔ ∀ k, q.pend k = false := by
  refine ⟨fun h => ?_, fun h => ?_⟩
  · unfold Bus.firstPend at h
    split_ifs at h with hev her hcp hxe
    intro k
    cases k with
    | irqEv => exact Bool.eq_false_iff.mpr hev
    | irqEr => exact Bool.eq_false_iff.mpr her
    | cplt => exact Bool.eq_false_iff.mpr hcp
    | xerr => exact Bool.eq_false_iff.mpr hxe
  · have hev : q.pendIrqEv = false := h .irqEv
    have her : q.pendIrqEr = false := h .irqEr
    have hcp : q.pendCplt = false := h .cplt
    have hxe : q.pendXerr = false := h .xerr
    simp [Bus.firstPend, hev, her, hcp, hxe]

/-- The source chosen within one bus is pending, and none before it in the order of R224 (3) is. -/
theorem Bus.firstPend_eq_some (h : q.firstPend = some k) :
    q.pend k = true ∧ (k = .irqEr → q.pendIrqEv = false) ∧
    (k = .cplt → q.pendIrqEv = false ∧ q.pendIrqEr = false) ∧
    (k = .xerr → q.pendIrqEv = false ∧ q.pendIrqEr = false ∧ q.pendCplt = false) := by
  unfold Bus.firstPend at h
  split_ifs at h with hev her hcp hxe
  all_goals
    cases h
    simp_all [Bus.pend]

/-- The choice among the buses: the first in the list with a pending event. -/
theorem firstPending_eq_some {n : Nat} {qs : List Bus} (h : firstPending n qs = some (k, b)) :
    ∃ j q, qs[j]? = some q ∧ b = BitVec.ofNat 8 (n + j) ∧ q.firstPend = some k ∧
      ∀ j' q', j' < j → qs[j']? = some q' → q'.firstPend = none := by
  induction qs generalizing n with
  | nil => cases h
  | cons q qs ih =>
    rw [firstPending] at h
    split at h
    · rename_i k' hk
      cases h
      exact ⟨0, q, rfl, rfl, hk, fun _ _ hj => absurd hj (Nat.not_lt_zero _)⟩
    · rename_i hk
      obtain ⟨j, r, hr, hb, hk', hlow⟩ := ih h
      refine ⟨j + 1, r, hr, by rw [hb, Nat.add_right_comm, Nat.add_assoc], hk', fun j' q' hj hq' => ?_⟩
      cases j' with
      | zero => cases hq'; exact hk
      | succ j' => exact hlow j' q' (Nat.lt_of_succ_lt_succ hj) hq'

theorem firstPending_eq_none {n : Nat} {qs : List Bus} (h : firstPending n qs = none) (hq : q ∈ qs) :
    q.firstPend = none := by
  induction qs generalizing n with
  | nil => exact absurd hq List.not_mem_nil
  | cons r qs ih =>
    rw [firstPending] at h
    split at h
    · cases h
    · rename_i hk
      rcases List.mem_cons.mp hq with rfl | hq
      · exact hk
      · exact ih h hq

/-- The event chosen is of a bus that exists, the first of its sources, and no lower bus has one pending. That the bus
found in the list is the one named takes `N_BUS` to fit in a handle (R7). -/
theorem State.Inv.pending?_eq_some (hI : s.Inv) (h : s.pending? = some (k, b)) :
    ∃ q, s.bus? b = some q ∧ q.firstPend = some k ∧
      ∀ b' q', b'.toNat < b.toNat → s.bus? b' = some q' → q'.firstPend = none := by
  obtain ⟨j, q, hq, rfl, hk, hlow⟩ := firstPending_eq_some h
  obtain ⟨⟨-, hn⟩, -⟩ := hI.params
  have hj : j < s.params.nBus := hI.busesLength ▸ (List.getElem?_eq_some_iff.mp hq).1
  have hb : (BitVec.ofNat 8 (1 + j)).toNat = 1 + j := by
    rw [BitVec.toNat_ofNat, Nat.mod_eq_of_lt (by omega)]
  refine ⟨q, State.bus?_eq_some.mpr ⟨by omega, by rw [hb, Nat.add_sub_cancel_left]; exact hq⟩, hk,
    fun b' q' hlt hq' => ?_⟩
  obtain ⟨hrange, hget⟩ := State.bus?_eq_some.mp hq'
  exact hlow _ q' (by omega) hget

/-- With no reset, the pending event chosen is serviced with its bit cleared. -/
theorem step_of_pending (hr : s.resetReq = false) (h : s.pending? = some (k, b)) (hq : s.bus? b = some q) :
    step s = exec (k.instr b) (s.setBus b (q.setPend k false)).arrive := by
  simp [step, selectInput, hr, h, State.clearPend, hq]

/-- Settles O8, by the choice among the buses and the choice within one. -/
theorem pendingEventsAreServicedInOrder : Obligations.PendingEventsAreServicedInOrder := by
  intro s hI
  refine ⟨fun k b h => ?_, fun h b q hq => Bus.firstPend_eq_none.mp (firstPending_eq_none h (State.mem_of_bus? hq))⟩
  obtain ⟨q, hq, hk, hlow⟩ := hI.pending?_eq_some h
  obtain ⟨hpend, horder⟩ := Bus.firstPend_eq_some hk
  exact ⟨⟨q, hq, hpend, fun hr => step_of_pending hr h hq, horder⟩,
    fun b' q' hlt hq' => Bus.firstPend_eq_none.mp (hlow b' q' hlt hq')⟩

/-! ## Arrivals during a transition (R221, R223) -/

theorem latchEvent_of_error {why : Reject} (hd : decodeEvent w = .error why) : latchEvent s w = s := by
  simp [latchEvent, hd]

theorem latchEvent_of_none (hd : decodeEvent w = .ok (k, b)) (hr : s.regBus? b = none) : latchEvent s w = s := by
  simp [latchEvent, hd, hr]

theorem latchEvent_of_regBus (hd : decodeEvent w = .ok (k, b)) (hr : s.regBus? b = some (c, q)) :
    latchEvent s w = s.setBus b (q.setPend k true) := by
  simp [latchEvent, hd, hr]

theorem Bus.setPend_setPend (q : Bus) (k : EventKind) (v v' : Bool) :
    (q.setPend k v).setPend k v' = q.setPend k v' := by
  cases k <;> rfl

theorem Bus.pend_setPend_ne (q : Bus) {k k' : EventKind} (h : k' ≠ k) (v : Bool) :
    (q.setPend k v).pend k' = q.pend k' := by
  cases k <;> cases k' <;> simp_all [Bus.pend, Bus.setPend]

theorem State.arrive_of_cons {ws : List Half} {rest : List (List Half)} (h : s.evDuring = ws :: rest) :
    s.arrive = ws.foldl latchEvent { s with evDuring := rest } := by
  rw [State.arrive, h]

/-- Buses that differ in the pending bits only have the same configuration and the same latch. -/
theorem Bus.latch_fields_of_noPend (h : q'.noPend = q.noPend) :
    q'.cfg = q.cfg ∧ q'.err = q.err ∧ q'.errLost = q.errLost := by
  have hf := fun {α : Type} (f : Bus → α) => congrArg f h
  exact ⟨hf Bus.cfg, hf Bus.err, hf Bus.errLost⟩

/-- Settles O9: a latched word is one write of a pending bit, and writing it again writes the same. -/
theorem eventDuringTransitionPends : Obligations.EventDuringTransitionPends := by
  intro s w
  refine ⟨fun _ => latchEvent_of_error, fun _ _ => latchEvent_of_none, fun k b c q hd hr => ?_,
    fun _ _ => State.arrive_of_cons, fun h => by rw [State.arrive, h]⟩
  obtain ⟨hq, hc⟩ := State.regBus?_eq_some.mp hr
  have hnp := q.noPend_setPend k true
  obtain ⟨hslots, hhead, htail, hcount, hbusy, hcur⟩ := Bus.SameQueue.of_noPend hnp
  obtain ⟨hcfg, herr, hlost⟩ := Bus.latch_fields_of_noPend hnp
  have hlatch := latchEvent_of_regBus hd hr
  have hr' : (s.setBus b (q.setPend k true)).regBus? b = some (c, q.setPend k true) :=
    State.regBus?_setBus_self hq (hcfg.trans hc)
  refine ⟨⟨q.setPend k true, hlatch ▸ hr', q.pend_setPend_true k k (.inr rfl), fun k' h => q.pend_setPend_ne h true,
    hlatch, hslots, hhead, htail, hcount, hbusy, hcur, herr, hlost⟩, ?_⟩
  rw [hlatch, latchEvent_of_regBus hd hr', State.setBus_setBus, Bus.setPend_setPend]

/-- What arrives as a transition begins is used up, and its events of registered buses are pending then. -/
theorem arrive_pends {ws : List Half} {rest : List (List Half)} (h : s.evDuring = ws :: rest) :
    s.arrive.evDuring = rest ∧ ∀ w k b c q, w ∈ ws → decodeEvent w = .ok (k, b) → s.regBus? b = some (c, q) →
      ∃ q1, s.arrive.regBus? b = some (c, q1) ∧ q1.pend k = true := by
  rw [State.arrive_of_cons h]
  exact ⟨foldl_latchEvent_evDuring ws _, fun _ _ _ _ _ hm hd hr => foldl_latchEvent_pends ws hm hd hr⟩

/-- What has arrived as a transition begins is pending when it ends: a transition writes no pending bit (R38), and a Bus
stays registered (R28). -/
theorem pends_after_transition {s0 : State} {ws : List Half} {rest : List (List Half)} {gs : List StateGroup}
    (h0 : OnlyPend s s0) (hd0 : s0.evDuring = ws :: rest) (hev : s'.evDuring = s0.arrive.evDuring)
    (hw : s0.arrive.BusesWriteOnly gs s')
    (hreg : ∀ b c q, s.regBus? b = some (c, q) → ∃ q', s'.regBus? b = some (c, q')) :
    s'.evDuring = rest ∧ ∀ w k b c q, w ∈ ws → decodeEvent w = .ok (k, b) → s.regBus? b = some (c, q) →
      ∃ q', s'.regBus? b = some (c, q') ∧ q'.pend k = true := by
  obtain ⟨hrest, hpends⟩ := arrive_pends hd0
  refine ⟨hev.trans hrest, fun w k b c q hm hd hr => ?_⟩
  obtain ⟨q0, hr0, -⟩ := h0.regBus_some hr
  obtain ⟨q1, hr1, hk⟩ := hpends w k b c q0 hm hd hr0
  obtain ⟨q', hr'⟩ := hreg b c q hr
  have hbits := (hw b q1 q' (State.regBus?_eq_some.mp hr1).1 (State.regBus?_eq_some.mp hr').1).pend
  exact ⟨q', hr', (hbits k).trans hk⟩

/-- Settles O57, by the cases of what a step can do: with an input to take, each of them begins with the arrivals. -/
theorem arrivalsArePendingAfterStep : Obligations.ArrivalsArePendingAfterStep := by
  intro s s' ws rest hI hr0 hd hin h
  obtain ⟨-, hreg, -⟩ := registrationIsPermanent s s' hI hr0 h
  have hbegin := selectInput_arrives s
  cases effect_of_step hI h with
  | reset _ hr => simp [hr0] at hr
  | idle hsel =>
    rw [hsel] at hbegin
    obtain ⟨hpend, hev, hcmd⟩ := hbegin
    simp [hpend, hev, hcmd] at hin
  | run i s1 s' hsel _ hp _ he =>
    rw [hsel] at hbegin
    obtain ⟨s0, h0, hd0, rfl⟩ := hbegin
    exact pends_after_transition h0 (hd0.trans hd) he.evDuring (he.buses_writeOnly (hp.inv hI)) hreg
  | illegal s1 hsel | dropped s1 hsel =>
    rw [hsel] at hbegin
    obtain ⟨s0, h0, hd0, rfl⟩ := hbegin
    exact pends_after_transition (gs := []) h0 (hd0.trans hd) rfl (.of_buses rfl rfl) hreg

/-! ## The events (R222 to R227) -/

theorem onRegistered_of_none (hn : s.regBus? b = none) : onRegistered b s f = .next s := by rw [onRegistered, hn]

theorem onRegistered_of_regBus (hr : s.regBus? b = some (c, q)) : onRegistered b s f = f c q := by
  rw [onRegistered, hr]

/-- Settles O40: each of the four handlers looks for the Bus first. -/
theorem eventsWithoutBusAreDropped : Obligations.EventsWithoutBusAreDropped := by
  intro b s k hn
  cases k with
  | irqEv | irqEr | cplt | xerr => exact onRegistered_of_none hn

/-- Settles O39: the two classes of interrupt are routed in the same way. -/
theorem lowLevelInterruptsAreRouted : Obligations.LowLevelInterruptsAreRouted :=
  fun b s => ⟨fun hn => ⟨eventsWithoutBusAreDropped b s .irqEv hn, eventsWithoutBusAreDropped b s .irqEr hn⟩,
    fun _ hr => ⟨onRegistered_of_regBus hr, onRegistered_of_regBus hr⟩⟩

/-- Settles O41: nothing is queued behind the transaction that has completed. -/
theorem completionOfLastGoesIdle : Obligations.CompletionOfLastGoesIdle := by
  intro b s c q x hI hr hb hq
  have hw := hI.regBus hr
  have hcount : q.count - 1 = 0 := by rw [← hw.length_queue, hq, List.length_singleton]
  rw [exec_cplt_last hr hw hb hq, Bus.popped, hcount]
  rfl

/-- Settles O42: the backend accepts the initiate of the successor. -/
theorem completionDispatchesNext : Obligations.CompletionDispatchesNext := by
  intro b s c q x y ys hI hr hb hq hacc
  have hacc : s.nextAnswer = true := hacc
  rw [exec_cplt_next hr (hI.regBus hr) hb hq, hacc, Txn.dispatchRecords, if_pos rfl, List.append_nil,
    ← List.append_assoc]
  rfl

/-- Settles O43: the backend refuses the initiate of the successor, which stays at the head of the queue. -/
theorem completionInitiateFails : Obligations.CompletionInitiateFails := by
  intro b s c q x y ys hI hr hb hq href
  have href : s.nextAnswer = false := href
  have hw := hI.regBus hr
  have hexec := exec_cplt_next hr hw hb hq
  rw [href] at hexec
  refine ⟨?_, fun s' h => ?stalled⟩
  · rw [hexec, Txn.dispatchRecords, if_neg Bool.false_ne_true, ← List.append_assoc, ← List.append_assoc,
      ← Bus.latch_eq_withError]
    rfl
  case stalled =>
    rw [hexec] at h
    cases h
    obtain ⟨hbus, hc⟩ := State.regBus?_eq_some.mp hr
    have hc' : ((q.popped s.params.qcap).dispatched false .irq).cfg = some c := (Bus.cfg_dispatched ..).trans hc
    have hsame := (Bus.SameQueue.refl (q.popped s.params.qcap)).dispatched false .irq
    have hcount : 0 < q.count - 1 := by
      rw [← hw.length_queue, hq]
      exact Nat.succ_pos _
    exact ⟨c, _, State.regBus?_setBus_self (s := s.afterAnswer) hbus hc',
      (Bus.stalled_iff hc').mpr ⟨hsame.busy, hsame.count ▸ hcount⟩⟩

/-- LATCH as the end of an event. -/
theorem latch_eq_handles (b : Byte) (q : Bus) (cause : Status) (ctx : Ctx) (s : State) :
    Host.Outcome.next (latch b q cause ctx s) = s.handles b (q.withError cause ctx) [.errn b cause ctx] := by
  rw [← Bus.latch_eq_withError]
  rfl

theorem exec_cplt_spurious (hr : s.regBus? b = some (c, q)) (hb : q.busy = false) :
    exec (.cplt b) s = s.handles b (q.withError .errHwSpurious .irq) [.errn b .errHwSpurious .irq] :=
  (onRegistered_of_regBus hr).trans ((if_pos hb).trans (latch_eq_handles ..))

theorem exec_xerr_spurious (hr : s.regBus? b = some (c, q)) (hb : q.busy = false) :
    exec (.xerr b) s = s.handles b (q.withError .errHwSpurious .irq) [.errn b .errHwSpurious .irq] :=
  (onRegistered_of_regBus hr).trans ((if_pos hb).trans (latch_eq_handles ..))

/-- Settles O45: both handlers refuse before they look at the queue. -/
theorem spuriousNotificationsAreLatched : Obligations.SpuriousNotificationsAreLatched :=
  fun _ _ _ _ hr hb => ⟨exec_cplt_spurious hr hb, exec_xerr_spurious hr hb⟩

/-- Settles O44: dropped, spurious, or the end of the transfer in flight. -/
theorem transferErrorIsLatched : Obligations.TransferErrorIsLatched := by
  intro b s
  refine ⟨eventsWithoutBusAreDropped b s .xerr, fun c q hr => ⟨exec_xerr_spurious hr, fun hb => ?failed⟩⟩
  case failed =>
    have hbusy : ¬ q.busy = false := by simp [hb]
    exact (onRegistered_of_regBus hr).trans ((if_neg hbusy).trans (latch_eq_handles ..))

/-! ## The error latch (R206) -/

theorem Bus.latch_of_none (h : q.err = none) (cause : Status) (ctx : Ctx) :
    q.latch cause ctx = { q with err := some ⟨cause, ctx⟩ } := by
  rw [Bus.latch, h]

theorem Bus.latch_of_some {e : ErrRec} (h : q.err = some e) (cause : Status) (ctx : Ctx) :
    q.latch cause ctx = { q with errLost := true } := by
  rw [Bus.latch, h]

/-- An error that `q` has latched, and the mark that a later one was lost, stand in `q'`. -/
structure Bus.KeepsError (q q' : Bus) : Prop where
  err : q.err ≠ none → q'.err = q.err
  lost : q.errLost = true → q'.errLost = true

theorem Bus.KeepsError.of_eq (he : q'.err = q.err) (hl : q'.errLost = q.errLost) : q.KeepsError q' :=
  ⟨fun _ => he, fun h => hl.trans h⟩

theorem Bus.KeepsError.trans (h : q.KeepsError q1) (h' : q1.KeepsError q') : q.KeepsError q' where
  err := fun hn => (h'.err (h.err hn ▸ hn)).trans (h.err hn)
  lost := fun hl => h'.lost (h.lost hl)

theorem Bus.KeepsError.latch (q : Bus) (cause : Status) (ctx : Ctx) : q.KeepsError (q.latch cause ctx) := by
  cases he : q.err with
  | none => exact Bus.latch_of_none he cause ctx ▸ ⟨fun hn => absurd he hn, id⟩
  | some e => exact Bus.latch_of_some he cause ctx ▸ ⟨fun _ => rfl, fun _ => rfl⟩

theorem Bus.KeepsError.withFlags (q : Bus) (busy curValid : Bool) :
    q.KeepsError { q with busy := busy, curValid := curValid } := .of_eq rfl rfl

theorem Bus.KeepsError.pushed (q : Bus) (n : Nat) (x : Txn) : q.KeepsError (q.pushed n x) := .of_eq rfl rfl

theorem Bus.KeepsError.popped (q : Bus) (n : Nat) : q.KeepsError (q.popped n) := .of_eq rfl rfl

theorem Bus.KeepsError.dispatched (q : Bus) (a : Bool) (ctx : Ctx) : q.KeepsError (q.dispatched a ctx) := by
  cases a
  · exact (Bus.KeepsError.withFlags q false true).trans (.latch _ _ _)
  · exact .withFlags q true true

/-- Bus `b`, where it is registered, is registered in `s'` with the same configuration and what it has latched. -/
def State.KeepsErrorOf (b : Byte) (s s' : State) : Prop :=
  ∀ c q, s.regBus? b = some (c, q) → ∃ q', s'.regBus? b = some (c, q') ∧ q.KeepsError q'

theorem State.KeepsErrorOf.of_buses (hp : s'.params = s.params) (hb : s'.buses = s.buses) : s.KeepsErrorOf b s' :=
  fun _ q hr => ⟨q, (State.regBus?_congr hp hb b).trans hr, .of_eq rfl rfl⟩

/-- A write of one bus takes no error away when it takes none away from that bus. -/
theorem State.KeepsErrorOf.of_setBus {b' : Byte} {r r' : Bus} {c' : BusCfg} (h0 : s.regBus? b' = some (c', r))
    (hk : b' = b → r.KeepsError r') (hc : r'.cfg = r.cfg) (hp : s'.params = s.params)
    (hb : s'.buses = (s.setBus b' r').buses) : s.KeepsErrorOf b s' := by
  intro c q hr
  obtain ⟨q', hr', hself, hother⟩ := regBus?_after_setBus hr (State.regBus?_eq_some.mp h0).1 hc hp hb
  refine ⟨q', hr', ?_⟩
  by_cases e : b' = b
  · obtain ⟨rfl, rfl⟩ := hself e
    exact hk e
  · rw [hother e]
    exact .of_eq rfl rfl

theorem State.KeepsErrorOf.trans (h : s.KeepsErrorOf b s1) (h' : s1.KeepsErrorOf b s') : s.KeepsErrorOf b s' := by
  intro c q hr
  obtain ⟨q1, hr1, hk1⟩ := h c q hr
  obtain ⟨q', hr', hk'⟩ := h' c q1 hr1
  exact ⟨q', hr', hk1.trans hk'⟩

/-- Taking an input leaves what is latched. -/
theorem OnlyPend.keepsErrorOf (h : OnlyPend s s1) (b : Byte) : s.KeepsErrorOf b s1 := by
  intro c q hr
  obtain ⟨q1, hr1, hnp⟩ := h.regBus_some hr
  obtain ⟨-, herr, hlost⟩ := Bus.latch_fields_of_noPend hnp
  exact ⟨q1, hr1, .of_eq herr hlost⟩

/-- No instruction but BUSERR of a bus takes away what it has latched: BUSINIT, which clears the latch too, is of a bus
that is not registered yet. -/
theorem Effect.keepsErrorOf (h : Effect i s s') (hi : i ≠ .buserr b) : s.KeepsErrorOf b s' := by
  cases h with
  | answer | hook | stage | device | ignored | route => exact .of_buses rfl rfl
  | register b' r c' _ hq' hn =>
    intro c q hr
    have hne : b ≠ b' := by
      rintro rfl
      obtain ⟨hq, hc⟩ := State.regBus?_eq_some.mp hr
      obtain rfl := Option.some.inj (hq.symm.trans hq')
      simp [hc] at hn
    exact ⟨q, (State.regBus?_setBus_ne (s := s) hne _).trans hr, .of_eq rfl rfl⟩
  | drain b' c r v hb hr =>
    exact .of_setBus (r' := { r with err := none, errLost := false }) hr (fun e => absurd (e ▸ hb) hi) rfl rfl rfl
  | join b' x c r _ hr | notIdle b' x c r _ hr => exact .of_setBus hr (fun _ => .pushed r _ x) rfl rfl rfl
  | start b' x c r st v _ hr =>
    exact .of_setBus hr (fun _ => (Bus.KeepsError.pushed r _ x).trans (.dispatched _ _ _))
      (Bus.cfg_dispatched ..) rfl rfl
  | spurious b' c r _ hr => exact .of_setBus hr (fun _ => .latch r _ _) (Bus.cfg_latch ..) rfl rfl
  | transferError b' c r _ hr =>
    exact .of_setBus hr (fun _ => (Bus.KeepsError.withFlags r false r.curValid).trans (.latch _ _ _))
      (Bus.cfg_latch ..) rfl rfl
  | completeLast b' c r x _ hr => exact .of_setBus hr (fun _ => .popped r _) rfl rfl rfl
  | completeNext b' c r x y _ hr =>
    exact .of_setBus hr (fun _ => (Bus.KeepsError.popped r _).trans (.dispatched _ _ _))
      (Bus.cfg_dispatched ..) rfl rfl

/-- A step that is no reset and runs no BUSERR of the bus keeps what it has latched. -/
theorem StepEffect.keepsErrorOf (h : StepEffect s s') (hr : selectInput s ≠ .reset)
    (hb : ∀ s1, selectInput s ≠ .run (.buserr b) s1) : s.KeepsErrorOf b s' := by
  cases h with
  | reset hsel => exact absurd hsel hr
  | run i s1 s' hsel _ hp _ he => exact (hp.keepsErrorOf b).trans (he.keepsErrorOf fun hi => hb s1 (hi ▸ hsel))
  | illegal s1 _ _ hp => exact (hp.keepsErrorOf b).trans (.of_buses rfl rfl)
  | dropped s1 _ _ hp => exact hp.keepsErrorOf b
  | idle => exact .of_buses rfl rfl

/-- Settles O46, by the two cases of the latch and by what a step keeps of it. -/
theorem latchKeepsFirstError : Obligations.LatchKeepsFirstError := by
  refine ⟨fun b q cause ctx s => ⟨fun h => ?first, fun h => ?later⟩, fun s s' b c q hI hr hn h => ?step⟩
  case first =>
    rw [latch, Bus.latch_of_none h]
    rfl
  case later =>
    obtain ⟨e, he⟩ := Option.ne_none_iff_exists'.mp h
    rw [latch, Bus.latch_of_some he]
    rfl
  case step =>
    by_cases hreset : selectInput s = .reset
    · exact .inl hreset
    by_cases hdrain : ∃ s1, selectInput s = .run (.buserr b) s1
    · exact .inr (.inl hdrain)
    obtain ⟨q', hr', hk⟩ := (effect_of_step hI h).keepsErrorOf hreset (not_exists.mp hdrain) c q hr
    exact .inr (.inr ⟨q', hr', hk.err hn, hk.lost⟩)

/-! ## The state after an error (R208) -/

/-- A dispatch that is refused leaves an error in the latch. -/
theorem Bus.errValid_dispatched_false (q : Bus) (ctx : Ctx) : (q.dispatched false ctx).errValid = true := by
  have h : q.dispatched false ctx = Bus.withError { q with curValid := true, busy := false } .errHwInitiate ctx :=
    Bus.latch_eq_withError _ _ _
  rw [h]
  rfl

/-- `s'` is `s` after a first submission whose dispatch the backend has refused (R168, R170). -/
def InitiateRefused (i : Instr) (s s' : State) : Prop :=
  ∃ b x c q, submission s i = some (b, x) ∧ s.regBus? b = some (c, q) ∧ q.count = 0 ∧
    s' = ((s.afterAnswer.afterAnswer.setBus b ((q.pushed s.params.qcap x).dispatched false .fg)).emit
      ([.idleq b] ++ x.dispatchRecords s.params c b .fg false)).respond .errHwInitiate 0

/-- An effect with an error status is a response only, or the refused dispatch of a submission. -/
theorem Effect.of_error {st : Status} {v : Word} (h : Effect i s s') (hresp : s'.resp = s.resp ++ [⟨st, v⟩])
    (he : st.isError = true) :
    (st ≠ .errHwInitiate ∧ s' = s.respond st v) ∨ (st = .errHwInitiate ∧ InitiateRefused i s s') := by
  have hone : ∀ {st' : Status} {v' : Word}, s'.resp = s.resp ++ [⟨st', v'⟩] → st' = st ∧ v' = v := fun h => by
    simpa using List.append_cancel_left (h.symm.trans hresp)
  have hok : ∀ {v' : Word}, s'.resp = s.resp ++ [⟨.ok, v'⟩] → False := fun h => by
    obtain ⟨rfl, -⟩ := hone h
    cases he
  have hnone : s'.resp ≠ s.resp := fun h => by simp [h] at hresp
  cases h with
  | answer st' v' _ _ hst =>
    obtain ⟨rfl, rfl⟩ := hone rfl
    exact .inl ⟨hst, rfl⟩
  | hook | stage | device | register | drain | join | notIdle => exact (hok rfl).elim
  | start b x c q st' v' hsub hr _ h0 _ hst =>
    obtain ⟨rfl, rfl⟩ := hone rfl
    cases ha : s.afterAnswer.nextAnswer with
    | true =>
      obtain ⟨rfl, -⟩ : st' = .ok ∧ v' = 1 := by simpa [ha] using hst
      cases he
    | false =>
      obtain ⟨rfl, rfl⟩ : st' = .errHwInitiate ∧ v' = 0 := by simpa [ha] using hst
      exact .inr ⟨rfl, b, x, c, q, hsub, hr, h0, rfl⟩
  | ignored | route | spurious | transferError | completeLast | completeNext => exact absurd rfl hnone

/-- Settles O49: an error status comes with a response only, but for the refused dispatch of a first submission. -/
theorem errorLeavesStateUnchanged : Obligations.ErrorLeavesStateUnchanged := by
  intro i s s' st v hI h hresp he
  rcases (effect_of_exec hI h).of_error hresp he with ⟨hne, rfl⟩ | ⟨rfl, b, x, c, q, hsub, hr, h0, rfl⟩
  · exact ⟨fun _ => rfl, fun heq => absurd heq hne⟩
  · refine ⟨fun hne => absurd rfl hne, fun _ => ?_⟩
    obtain ⟨hbus, hc⟩ := State.regBus?_eq_some.mp hr
    have hw := hI.bus hbus
    have hsame := (Bus.SameQueue.refl (q.pushed s.params.qcap x)).dispatched false .fg
    refine ⟨b, x, c, q, (q.pushed s.params.qcap x).dispatched false .fg, hsub, hr,
      State.regBus?_setBus_self (s := s.afterAnswer.afterAnswer) hbus ((Bus.cfg_dispatched ..).trans hc),
      (hsame.queue _).trans (hw.queue_pushed (h0 ▸ hw.qcap_pos.ne) x), hsame.curValid, hsame.busy,
      Bus.errValid_dispatched_false _ _, ?_⟩
    simp only [State.respond_out, State.emit_out, State.setBus_out, State.afterAnswer_out, Txn.dispatchRecords,
      Bool.false_eq_true, if_false, List.append_assoc]
    rfl

end Sys2Proof.Machine
end

section
/-! The statements of `70_reset_and_hazards.md`: the reset input (R250), and the stalled state, which nothing but reset
ends (R266). -/

namespace Sys2Proof.Machine

variable {s s' : State} {b : Byte} {c : BusCfg} {q q' : Bus} {new : List Record} {n : Nat}

/-! ## Reset (R250) -/

/-- A requested reset is taken before any other input. -/
theorem step_of_resetReq (hr : s.resetReq = true) : step s = .next s.hardReset := by
  simp [step, selectInput, hr]

/-- Settles O10: the tables are those of the state after reset, whose lookups find nothing but blank buses. -/
theorem resetInputClearsAllState : Obligations.ResetInputClearsAllState := by
  intro s hr
  have hblank : ∀ b q, s.hardReset.bus? b = some q → q = Bus.atReset s.params.qcap := fun b q hq => by
    have hq : (State.resetWith s.params).bus? b = some q := hq
    rw [State.bus?_resetWith] at hq
    split_ifs at hq
    exact (Option.some.inj hq).symm
  exact ⟨s.hardReset, step_of_resetReq hr, State.txr?_resetWith s.params, State.dev?_resetWith s.params, hblank,
    List.length_replicate, List.length_replicate, List.length_replicate, rfl, rfl, rfl, rfl, rfl, rfl, rfl, rfl, rfl⟩

/-! ## The stalled state (R266) -/

theorem State.queueOf_of_regBus (hr : s.regBus? b = some (c, q)) : s.queueOf b = q.queue s.params.qcap := by
  rw [State.queueOf, (State.regBus?_eq_some.mp hr).1]

/-- A step leaves a stalled bus stalled: only a submission to an empty queue or a completion of a Busy bus dispatches
anything, and a stalled bus is neither empty nor Busy. A submission joins the queue and nothing leaves it. -/
theorem BusMove.keeps_stalled (hm : BusMove s b c q q' new) (hw : q.Wf s.params) (hb : q.busy = false)
    (hn : 0 < q.count) : (q'.busy = false ∧ 0 < q'.count) ∧
      q'.queue s.params.qcap = q.queue s.params.qcap ++ s.submitted b ∧ Quiet b new := by
  cases hm with
  | quiet _ _ hq hquiet hs =>
    exact ⟨⟨hq.busy.trans hb, hq.count ▸ hn⟩, by rw [hq.queue, hs, List.append_nil], hquiet⟩
  | join x _ hq hroom _ _ hs =>
    exact ⟨⟨hq.busy.trans hb, hq.count ▸ Nat.succ_pos _⟩, by rw [hq.queue, hw.queue_pushed hroom, hs], .nil b⟩
  | notIdle x _ _ _ h0 | start x a _ _ _ h0 => exact absurd h0 hn.ne'
  | failed _ _ hbusy | completeLast x _ _ _ hbusy | completeNext x y a _ _ _ hbusy =>
    rw [hb] at hbusy
    cases hbusy

/-- Settles O55, by induction on the number of steps. -/
theorem stalledBusStaysStalled : Obligations.StalledBusStaysStalled := by
  intro n
  induction n with
  | zero =>
    intro s s' b hI hr0 hst h
    cases h
    exact ⟨hst, by simp [State.submittedAlong], [], by simp, by simp⟩
  | succ n ih =>
    rintro s s' b hI hr0 ⟨c, q, hr, hst⟩ h
    obtain ⟨s1, h1, h⟩ := run_succ h
    obtain ⟨hb, hn⟩ := (Bus.stalled_iff (State.regBus?_eq_some.mp hr).2).mp hst
    obtain ⟨hp, hr1, q1, new1, hq1, hout1, hm⟩ := busMove_of_step hI hr0 h1 hr
    obtain ⟨hstill, hqueue1, hquiet1⟩ := hm.keeps_stalled (hI.regBus hr) hb hn
    have hst1 : s1.stalledAt b := ⟨c, q1, hq1, (Bus.stalled_iff (State.regBus?_eq_some.mp hq1).2).mpr hstill⟩
    obtain ⟨hst', hqueue2, new2, hout2, hquiet2⟩ := ih s1 s' b (stepKeepsInvariants s s1 hI h1) hr1 hst1 h
    refine ⟨hst', ?_, new1 ++ new2, by rw [hout2, hout1, List.append_assoc], hquiet1.append hquiet2⟩
    calc s'.queueOf b
        = q1.queue s.params.qcap ++ s1.submittedAlong b n := by rw [hqueue2, State.queueOf_of_regBus hq1, hp]
      _ = q.queue s.params.qcap ++ (s.submitted b ++ s1.submittedAlong b n) := by rw [hqueue1, List.append_assoc]
      _ = s.queueOf b ++ s.submittedAlong b (n + 1) := by
        rw [State.queueOf_of_regBus hr, submittedAlong_succ h1]

end Sys2Proof.Machine
end
